-- ==== Sys2Proof/Word.lean ====
section
/-! DEFINITION. The word types of the block: 32-bit register words, MEM bytes, pin levels, and the two
engines a command word can be written to (00_scope.md R9; 10_state.md R22; 30_encoding.md R80). -/

namespace Sys2Proof

/-- A 32-bit register or command word (10_state.md R22, 30_encoding.md R80). -/
abbrev Word := BitVec 32

/-- A byte of MEM or of the serial bus (20_memory.md R60). -/
abbrev Byte := BitVec 8

/-- The level of a pin, 0 or 1 (40_panel_primitives.md R100). `~~~l` is the spec's `1 - l`. -/
abbrev Level := BitVec 1

/-- An offset in the register space, 0x00 to 0xFF (10_state.md R22). -/
abbrev Offset := BitVec 8

/-- The two engines. A word's engine is the register it is written to: IC_CMD or PS_CMD
(30_encoding.md R80). -/
inductive Engine where
  | ic
  | ps
deriving DecidableEq, Repr

end Sys2Proof
end

