-- ==== Sys2Proof/Syntax.lean ====
section
/-! DEFINITION. The commands of interface IC-1: one constructor for each row of spec/opcode_table.json.
No command has an immediate (30_encoding.md R86), so no constructor has an argument. -/

namespace Sys2Proof

/-- The six commands (30_encoding.md R81, R82). -/
inductive Instr where
  /-- IC.CONVERT (42_convert.md R151). -/
  | icConvert
  /-- PS.INITIALIZE (41_panel_ops.md R125). -/
  | psInitialize
  /-- PS.DISPLAY (41_panel_ops.md R126). -/
  | psDisplay
  /-- PS.CLEAR (41_panel_ops.md R127). -/
  | psClear
  /-- PS.SLEEP (41_panel_ops.md R128). -/
  | psSleep
  /-- PS.TEARDOWN (41_panel_ops.md R129). -/
  | psTeardown
deriving DecidableEq, Repr

end Sys2Proof
end

