-- ==== Sys2Proof/Decode.lean ====
section
/-! DEFINITION. Decoding of a latched command word, total on all 2^32 words, rejecting by name
(30_encoding.md R80 to R84), and the encoder. -/

namespace Sys2Proof

/-- Why a word is ILLEGAL (30_encoding.md R83, 93_implementation_defined.md S6). -/
inductive Illegal where
  /-- Bits 31:8, the field RSV, are not zero. -/
  | reservedBits
  /-- The opcode is not in the engine's map. -/
  | reservedOpcode
deriving DecidableEq, Repr

/-- The field OP, bits 7:0 (R80). -/
def wordOp (w : Word) : Byte := w.extractLsb' 0 8

/-- The field RSV, bits 31:8 (R80). -/
def wordRsv (w : Word) : BitVec 24 := w.extractLsb' 8 24

/-- The image_converter opcode map (R81). -/
def icOpcode (op : Byte) : Option Instr :=
  if op = 0x01 then some .icConvert else none

/-- The panel_state_machine opcode map (R82). -/
def psOpcode (op : Byte) : Option Instr :=
  if op = 0x01 then some .psInitialize
  else if op = 0x02 then some .psDisplay
  else if op = 0x03 then some .psClear
  else if op = 0x04 then some .psSleep
  else if op = 0x05 then some .psTeardown
  else none

/-- The opcode map of an engine. -/
def engineOpcode : Engine → Byte → Option Instr
  | .ic => icOpcode
  | .ps => psOpcode

/-- `decode(engine, w)` (R83). -/
def decode (e : Engine) (w : Word) : Except Illegal Instr :=
  if wordRsv w ≠ 0 then .error .reservedBits
  else match engineOpcode e (wordOp w) with
    | some i => .ok i
    | none => .error .reservedOpcode

/-- Whether engine `e` decodes `w` to command `i`. -/
def decodesTo (e : Engine) (w : Word) (i : Instr) : Bool :=
  match decode e w with
  | .ok j => j == i
  | .error _ => false

/-- The engine a table word is written to. 0x00000001 is IC.CONVERT for IC_CMD and PS.INITIALIZE for
PS_CMD; read without a register it is taken for the table's first row, IC.CONVERT. Log 15. -/
def tableEngine (w : Word) : Engine :=
  match decode .ic w with
  | .ok _ => .ic
  | .error _ =>
    match decode .ps w with
    | .ok _ => .ps
    | .error _ => .ic

/-- The command word whose bits are `w`, every bit from `nbits` up being 0. -/
def tableWord (nbits w : Nat) : Word := BitVec.ofNat 32 (w % 2 ^ nbits)

/-- The command the decoder reads from a word of spec/opcode_table.json. Log 15. -/
def decodeTableWord (nbits w : Nat) : Option Instr :=
  match decode (tableEngine (tableWord nbits w)) (tableWord nbits w) with
  | .ok i => some i
  | .error _ => none

/-- The engine of a command and its word: OP from R81 or R82, RSV zero (R80). -/
def encode : Instr → Engine × Word
  | .icConvert => (.ic, 0x00000001)
  | .psInitialize => (.ps, 0x00000001)
  | .psDisplay => (.ps, 0x00000002)
  | .psClear => (.ps, 0x00000003)
  | .psSleep => (.ps, 0x00000004)
  | .psTeardown => (.ps, 0x00000005)

end Sys2Proof
end

