-- ==== Sys2Proof/Config.lean ====
section
/-! DEFINITION. The implementation parameters of 00_scope.md R7 as a record, the steps of a panel's init and LUT
sequences (30_encoding.md R85), the answers ENV can give (40_panel_primitives.md R100), and the free
values: opaque constants, about which nothing can be proved. -/

namespace Sys2Proof

/-- A ColorMode code that is not reserved (44_color_reduce_dither.md R180). -/
inductive ColorMode where
  | blackWhite
  | grayscale4
deriving DecidableEq, Repr, Inhabited

/-- A Step of INIT_SEQ or LUT_SEQ (30_encoding.md R85). -/
inductive PanelStep where
  /-- `CMD(opc, payload)`: send one panel command and its payload. -/
  | cmd (opc : Byte) (payload : List Byte)
  /-- `DELAY(ms)`. -/
  | delay (ms : Nat)
  /-- `WAIT_BUSY`: one busy poll. -/
  | waitBusy
deriving DecidableEq, Repr

/-- The parameters of 00_scope.md R7. `Params.wf` (WellFormed.lean) gives the legal ranges. -/
structure Params where
  /-- MEM_SIZE: bytes of MEM. -/
  memSize : Nat
  /-- IC_MAX_W: the largest DW CONVERT accepts, and the length of the line buffers. -/
  icMaxW : Nat
  /-- IC_MAX_H: the largest DH CONVERT accepts. -/
  icMaxH : Nat
  panelW : Nat
  panelH : Nat
  panelMode : ColorMode
  initSeq : List PanelStep
  lutSeq : List PanelStep
  opcData : Byte
  opcRefresh : Byte
  opcSleep : Byte
  sleepPayload : List Byte
  resetPulseMs : Nat
  busyPollMs : Nat
  busyMaxPolls : Nat
  busyReadyLevel : Level
  rstActiveLevel : Level
  dcCmdLevel : Level
deriving DecidableEq, Repr, Inhabited

/-- ENV's answer to SpiWrite or PinWrite (40_panel_primitives.md R100). -/
inductive Ack where
  | ok
  | fail
deriving DecidableEq, Repr, Inhabited

/-- ENV's answer to PinRead(BUSY): `LEVEL(l)` or `FAIL` (40_panel_primitives.md R100). -/
inductive BusyAnswer where
  | level (l : Level)
  | fail
deriving DecidableEq, Repr, Inhabited

/-- The parameters of the machine that `State.reset` is built from, before R8's check: OPEN
(92_eei_decisions.md D20 to D22), so no value is given. Log 4. -/
opaque Config.rawParams : Params

/-- ENV's n-th free answer to a SpiWrite or PinWrite, used when `State.acks` is empty. Log 3. -/
opaque Config.freeAck : Nat → Ack

/-- ENV's n-th free answer to a PinRead, used when `State.busyReads` is empty. Log 3. -/
opaque Config.freeBusy : Nat → BusyAnswer

/-- What RST_OUT or DC_OUT holds after a FAIL answer to PinWrite: unspecified
(40_panel_primitives.md R101). Log 10. -/
opaque Config.freeLevel : Nat → Level

/-- Which engine completes first when both are pending and the schedule names neither: R71 and R210 give no
order. `true` is IC. Log 2. -/
opaque Config.freeIcFirst : Nat → Bool

end Sys2Proof
end

