-- ==== Sys2Proof/Machine/Layout.lean ====
section
/-! DEFINITION. Color modes, their levels and the size of a packed buffer (44_color_reduce_dither.md R180,
R181; 45_bitpack.md R200, R206; 41_panel_ops.md R121, R122). -/

namespace Sys2Proof.Machine

/-- The ColorMode code of R180. -/
def colorCode : ColorMode → BitVec 4
  | .blackWhite => 0
  | .grayscale4 => 1

/-- The ColorMode a code stands for; codes 2 to 15 are reserved (R180). -/
def colorOfCode (c : BitVec 4) : Option ColorMode :=
  if c = 0 then some .blackWhite
  else if c = 1 then some .grayscale4
  else none

/-- Bits per pixel (R180). -/
def bpp : ColorMode → Nat
  | .blackWhite => 1
  | .grayscale4 => 2

/-- `n = L - 1`, the highest level, white (R180, R181). -/
def maxLevel : ColorMode → Nat
  | .blackWhite => 1
  | .grayscale4 => 3

/-- `lev(q) = (255 × q) div n`, the nominal luma of level q (R181). -/
def lev (n q : Nat) : Nat := 255 * q / n

/-- `STRIDE(W, m)`: bytes per row (R200). -/
def stride (w : Nat) (m : ColorMode) : Nat := (w * bpp m + 7) / 8

/-- `LEN(W, H, m)`: bytes of the packed buffer (R200). -/
def bufferLen (w h : Nat) (m : ColorMode) : Nat := stride w m * h

/-- EXPECTED_LEN, the buffer length DISPLAY checks (R121). -/
def expectedLen (c : Params) : Nat := bufferLen c.panelW c.panelH c.panelMode

/-- WHITE_BYTE (R122). -/
def whiteByte : Byte := 0xFF

end Sys2Proof.Machine
end

