-- ==== Sys2Proof/WellFormed.lean ====
section
/-! DEFINITION. What is well formed: commands, panel steps (30_encoding.md R85) and parameters (00_scope.md R7,
R8). The machine is only ever built from well-formed parameters (R8, 92_eei_decisions.md D49). -/

namespace Sys2Proof

/-- A command has no operand and no immediate (30_encoding.md R86), so every one is well formed. -/
def Instr.wf : Instr → Bool
  | .icConvert => true
  | .psInitialize => true
  | .psDisplay => true
  | .psClear => true
  | .psSleep => true
  | .psTeardown => true

/-- R85's third column: a payload of at most 2^32 - 1 bytes, a delay of at most 2^32 - 1 ms. -/
def PanelStep.wf : PanelStep → Bool
  | .cmd _ payload => payload.length ≤ 2 ^ 32 - 1
  | .delay ms => ms ≤ 2 ^ 32 - 1
  | .waitBusy => true

/-- `lo ≤ v ≤ hi`. -/
def inRange (lo hi v : Nat) : Bool := decide (lo ≤ v) && decide (v ≤ hi)

/-- The ranges of R7, the steps of R85 and the bound on EXPECTED_LEN: R8. -/
def Params.wf (c : Params) : Bool :=
  inRange 1 (2 ^ 32) c.memSize
  && inRange 1 65535 c.icMaxW
  && inRange 1 65535 c.icMaxH
  && inRange 1 65535 c.panelW
  && inRange 1 65535 c.panelH
  && c.initSeq.all PanelStep.wf
  && c.lutSeq.all PanelStep.wf
  && inRange 0 (2 ^ 32 - 1) c.resetPulseMs
  && inRange 0 (2 ^ 32 - 1) c.busyPollMs
  && inRange 1 (2 ^ 32 - 1) c.busyMaxPolls
  && inRange 0 (2 ^ 32 - 1) (Machine.expectedLen c)

/-- A well-formed record, so that one exists; it stands in for an ill-formed `Config.rawParams`, from which
R8 builds no machine. Log 4. -/
def Config.leastParams : Params where
  memSize := 1
  icMaxW := 1
  icMaxH := 1
  panelW := 1
  panelH := 1
  panelMode := .blackWhite
  initSeq := []
  lutSeq := []
  opcData := 0
  opcRefresh := 0
  opcSleep := 0
  sleepPayload := []
  resetPulseMs := 0
  busyPollMs := 0
  busyMaxPolls := 1
  busyReadyLevel := 0
  rstActiveLevel := 0
  dcCmdLevel := 0

/-- The parameters the machine is built from: any well-formed record (R8). Log 4. -/
def Config.params : Params :=
  if Config.rawParams.wf then Config.rawParams else Config.leastParams

end Sys2Proof
end

