-- ==== Sys2Proof/Machine/State.lean ====
section
/-! DEFINITION. The state of the block as plain data, the faults it records, and the state after reset
(10_state.md R22 to R48; 20_memory.md R60 to R63; 60_exceptions.md R212 to R216; 70_reset_and_hazards.md
R231). The last six fields are the model's own inputs and observations (logs 1, 3, 4, 13, 16). -/

namespace Sys2Proof.Machine

/-- IC_PEND and PS_PEND (10_state.md R41, R42). -/
inductive Pend where
  | none
  | pending
deriving DecidableEq, Repr

/-- The error codes of STATUS.ERR, by name (60_exceptions.md R212). -/
inductive Err where
  | none
  | decodeError
  | dimensionMismatch
  | unsupportedColorMode
  | illegalCommand
  | transportError
  | initTimeout
  | busyTimeout
  | bufferSizeMismatch
  | invalidState
deriving DecidableEq, Repr

/-- The stages of PS_STATUS.STAGE, by name (60_exceptions.md R214). -/
inductive Stage where
  | none
  | validate
  | reset
  | init
  | lutLoad
  | busyPoll
  | dataXfer
  | refresh
  | sleep
deriving DecidableEq, Repr

/-- PS_ST, the stored handle state (10_state.md R42). -/
inductive HandleState where
  | uninitialized
  | idle
  | asleep
  | faulted
deriving DecidableEq, Repr

/-- The output pins (40_panel_primitives.md R101). -/
inductive OutPin where
  | rst
  | dc
deriving DecidableEq, Repr

/-- A HAL event with ENV's answer (40_panel_primitives.md R100). -/
inductive HalEvent where
  | spiWrite (b : Byte) (answer : Ack)
  | pinWrite (p : OutPin) (l : Level) (answer : Ack)
  /-- The pin read is BUSY, the only input pin. -/
  | pinRead (answer : BusyAnswer)
  | delay (ms : Nat)
deriving DecidableEq, Repr

/-- The kinds of hazard (70_reset_and_hazards.md R240 to R242). -/
inductive HazardKind where
  /-- REG_WRITE_PENDING (R240). -/
  | regWritePending
  /-- MEM_IN_FLIGHT (R241). -/
  | memInFlight
  /-- CROSS_ENGINE (R242). -/
  | crossEngine
deriving DecidableEq, Repr

/-- The model-level faults of 60_exceptions.md R216. They are recorded in FAULTS and the machine goes on as
R217 and R244 say, so no step answers with one of them (log 5): safe, since every claim may take "FAULTS is
empty" as a premise (R47). -/
inductive Fault where
  /-- BusError(off): a register access that 10_state.md R23 refuses. Raised by the host's access. Safe. -/
  | busErrorReg (off : Offset)
  /-- BusError(a): a MEM access that 20_memory.md R64 refuses. Raised by the host's access. Safe. -/
  | busErrorMem (a : Nat)
  /-- UnwrittenRead(a): a read of a byte not written since reset (20_memory.md R61). Raised by CONVERT,
  DISPLAY and the host's MEM read. Safe. -/
  | unwrittenRead (a : Nat)
  /-- Hazard(kind, detail), the detail being an offset or an address (70_reset_and_hazards.md R240 to R242).
  Raised by the host's access. Safe. -/
  | hazard (kind : HazardKind) (detail : Nat)
deriving DecidableEq, Repr

/-- Refusals. -/
inductive Refusal where
  /-- An instruction without a meaning. Every command has one, so nothing raises it. Safe. -/
  | notModelled (mnemonic : String)
deriving DecidableEq, Repr

/-- The host's transactions: the four of 30_encoding.md R87, and the two kinds of access of another width that
10_state.md R23 and 20_memory.md R64 answer with a bus error (log 14). -/
inductive Transaction where
  | regWrite (off : Offset) (w : Word)
  | regRead (off : Offset)
  | memWrite (a : Nat) (b : Byte)
  | memRead (a : Nat)
  /-- A register access that is not of 32 bits. -/
  | regOtherWidth (off : Offset) (isRead : Bool)
  /-- A MEM access of more than one byte. -/
  | memManyBytes (a : Nat) (isRead : Bool)
deriving DecidableEq, Repr

/-- What a host read returns (R87): a register word, a byte, or no value where 20_memory.md R61 says that
the read has none (log 13). -/
inductive Reply where
  | word (w : Word)
  | byte (b : Byte)
  | noValue
deriving DecidableEq, Repr

/-- Which agent takes a step of the one total order (00_scope.md R6, 20_memory.md R71). Log 1. -/
inductive Turn where
  | host (t : Transaction)
  | ic
  | ps
deriving DecidableEq, Repr

/-- MEM: the written bytes, in rising order of address, each address once. An address that is not listed has
not been written since reset and has no value (20_memory.md R61, R63). Log 11. -/
abbrev Memory := List Host.Cell

/-- The state of the block. -/
structure State where
  /-- The parameters (00_scope.md R7); no step changes them (10_state.md R49). Log 4. -/
  cfg : Params
  /-- IC_STATUS.DONE (10_state.md R25). -/
  icDone : Bool
  /-- IC_STATUS.ERR (R25). -/
  icErr : Err
  /-- IC_STATUS.CAUSE (R25). -/
  icCause : BitVec 4
  /-- IC_SRC_DIM (R26). -/
  icSrcDim : Word
  /-- IC_SRC_FMT (R27). -/
  icSrcFmt : Word
  /-- IC_SRC_BASE (R28). -/
  icSrcBase : Word
  /-- IC_DST_DIM (R29). -/
  icDstDim : Word
  /-- IC_MODE (R30). -/
  icMode : Word
  /-- IC_DST_BASE (R31). -/
  icDstBase : Word
  /-- IC_DST_CAP (R32). -/
  icDstCap : Word
  /-- IC_OUT_LEN (R33). -/
  icOutLen : Word
  /-- PS_STATUS.DONE (R35). -/
  psDone : Bool
  /-- PS_STATUS.ERR (R35). -/
  psErr : Err
  /-- PS_STATUS.STAGE (R35). -/
  psStage : Stage
  /-- PS_BUF_BASE (R36). -/
  psBufBase : Word
  /-- PS_BUF_LEN (R37). -/
  psBufLen : Word
  /-- IC_PEND (R41). -/
  icPend : Pend
  /-- IC_CMDL (R41). -/
  icCmdl : Word
  /-- PS_PEND (R42). -/
  psPend : Pend
  /-- PS_CMDL (R42). -/
  psCmdl : Word
  /-- PS_ST (R42). -/
  psSt : HandleState
  /-- FS_CUR (R44). -/
  fsCur : List (BitVec 16)
  /-- FS_NXT (R44). -/
  fsNxt : List (BitVec 16)
  /-- RST_OUT (R45). -/
  rstOut : Level
  /-- DC_OUT (R45). -/
  dcOut : Level
  /-- TRACE, oldest event first (R46). -/
  trace : List HalEvent
  /-- FAULTS, oldest first (R47). -/
  faults : List Fault
  /-- MEM (R48). -/
  mem : Memory
  /-- The turns still to come, the host's transactions among them. Log 1. -/
  agenda : List Turn
  /-- ENV's next answers to SpiWrite and PinWrite. Log 3. -/
  acks : List Ack
  /-- ENV's next answers to PinRead. Log 3. -/
  busyReads : List BusyAnswer
  /-- How many free values have been drawn. Log 16. -/
  draws : Nat
  /-- What the host's reads have returned, oldest first. Log 13. -/
  replies : List Reply
deriving DecidableEq, Repr

/-- The state after power-on reset (70_reset_and_hazards.md R230, R231). The latches, the line buffers and the
pin latches are unspecified there and hold 0 here (logs 6, 7, 9). -/
def State.reset : State where
  cfg := Config.params
  icDone := false
  icErr := .none
  icCause := 0
  icSrcDim := 0
  icSrcFmt := 0
  icSrcBase := 0
  icDstDim := 0
  icMode := 0x00000010
  icDstBase := 0
  icDstCap := 0
  icOutLen := 0
  psDone := false
  psErr := .none
  psStage := .none
  psBufBase := 0
  psBufLen := 0
  icPend := .none
  icCmdl := 0
  psPend := .none
  psCmdl := 0
  psSt := .uninitialized
  fsCur := List.replicate Config.params.icMaxW 0
  fsNxt := List.replicate Config.params.icMaxW 0
  rstOut := 0
  dcOut := 0
  trace := []
  faults := []
  mem := []
  agenda := []
  acks := []
  busyReads := []
  draws := 0
  replies := []

end Sys2Proof.Machine
end

