-- ==== Sys2Proof/Machine/Operands.lean ====
section
/-! DEFINITION. The operands commands read from registers (30_encoding.md R86), and the MEM regions of the
hazard rules (20_memory.md R69). -/

namespace Sys2Proof.Machine

/-- SW = IC_SRC_DIM[15:0] (R26). -/
def srcWidth (s : State) : Nat := (s.icSrcDim.extractLsb' 0 16).toNat

/-- SH = IC_SRC_DIM[31:16] (R26). -/
def srcHeight (s : State) : Nat := (s.icSrcDim.extractLsb' 16 16).toNat

/-- FMT = IC_SRC_FMT[1:0] (R27). -/
def srcFormat (s : State) : BitVec 2 := s.icSrcFmt.extractLsb' 0 2

/-- SRC_BASE (R28). -/
def srcBase (s : State) : Nat := s.icSrcBase.toNat

/-- DW = IC_DST_DIM[15:0] (R29). -/
def dstWidth (s : State) : Nat := (s.icDstDim.extractLsb' 0 16).toNat

/-- DH = IC_DST_DIM[31:16] (R29). -/
def dstHeight (s : State) : Nat := (s.icDstDim.extractLsb' 16 16).toNat

/-- CMODE = IC_MODE[3:0] (R30). -/
def colorField (s : State) : BitVec 4 := s.icMode.extractLsb' 0 4

/-- DITHER = IC_MODE[5:4] (R30). -/
def ditherField (s : State) : BitVec 2 := s.icMode.extractLsb' 4 2

/-- FIT = IC_MODE[6] (R30). -/
def fitField (s : State) : BitVec 1 := s.icMode.extractLsb' 6 1

/-- DST_BASE (R31). -/
def dstBase (s : State) : Nat := s.icDstBase.toNat

/-- DST_CAP (R32). -/
def dstCap (s : State) : Nat := s.icDstCap.toNat

/-- BUF_BASE (R36). -/
def bufBase (s : State) : Nat := s.psBufBase.toNat

/-- BUF_LEN (R37). -/
def bufLen (s : State) : Nat := s.psBufLen.toNat

/-- Bpp of CONVERT's validation: 3 if FMT = 0, else 1 (42_convert.md R152). -/
def bytesPerPixel (fmt : BitVec 2) : Nat := if fmt = 0 then 3 else 1

/-- SRC_LEN = SW × SH × Bpp (42_convert.md R152). -/
def srcLen (s : State) : Nat := srcWidth s * srcHeight s * bytesPerPixel (srcFormat s)

/-- A half-open interval `[lo, hi)` of MEM addresses (20_memory.md R69). -/
structure Region where
  lo : Nat
  hi : Nat
deriving DecidableEq, Repr

/-- Whether an address is in a region. -/
def inRegion (r : Region) (a : Nat) : Bool := decide (r.lo ≤ a) && decide (a < r.hi)

/-- Whether two regions overlap; an empty one overlaps nothing (R69). -/
def regionsOverlap (r q : Region) : Bool := decide (max r.lo q.lo < min r.hi q.hi)

/-- Bpp of the hazard regions: 1 when FMT = 1 and 3 otherwise (R69). Log 18. -/
def regionBytesPerPixel (fmt : BitVec 2) : Nat := if fmt = 1 then 1 else 3

/-- SRC_REGION (R69). -/
def srcRegion (s : State) : Region :=
  ⟨srcBase s, srcBase s + srcWidth s * srcHeight s * regionBytesPerPixel (srcFormat s)⟩

/-- DST_REGION (R69). -/
def dstRegion (s : State) : Region := ⟨dstBase s, dstBase s + dstCap s⟩

/-- BUF_REGION (R69). -/
def bufRegion (s : State) : Region := ⟨bufBase s, bufBase s + bufLen s⟩

/-- Whether a CONVERT is pending: IC_PEND and the latched word (70_reset_and_hazards.md R241). -/
def convertPending (s : State) : Bool :=
  decide (s.icPend = .pending) && decodesTo .ic s.icCmdl .icConvert

/-- Whether a DISPLAY is pending (R241). -/
def displayPending (s : State) : Bool :=
  decide (s.psPend = .pending) && decodesTo .ps s.psCmdl .psDisplay

end Sys2Proof.Machine
end

