-- ==== Sys2Proof/Machine/Flags.lean ====
section
/-! DEFINITION. The status words: error, stage and state codes, the BUSY and DONE flags, and the words a read of
IC_STATUS and PS_STATUS returns (10_state.md R25, R35, R42, R43, R50; 60_exceptions.md R212 to R214). -/

namespace Sys2Proof.Machine

/-- STATUS.ERR (60_exceptions.md R212). -/
def errCode : Err → BitVec 8
  | .none => 0
  | .decodeError => 1
  | .dimensionMismatch => 2
  | .unsupportedColorMode => 3
  | .illegalCommand => 4
  | .transportError => 5
  | .initTimeout => 6
  | .busyTimeout => 7
  | .bufferSizeMismatch => 8
  | .invalidState => 9

/-- PS_STATUS.STAGE (60_exceptions.md R214). -/
def stageCode : Stage → BitVec 4
  | .none => 0
  | .validate => 1
  | .reset => 2
  | .init => 3
  | .lutLoad => 4
  | .busyPoll => 5
  | .dataXfer => 6
  | .refresh => 7
  | .sleep => 8

/-- The code of a stored handle state (10_state.md R43). -/
def handleCode : HandleState → BitVec 3
  | .uninitialized => 0
  | .idle => 1
  | .asleep => 3
  | .faulted => 4

/-- Whether the handle shows DISPLAYING: a DISPLAY or CLEAR issued from IDLE is pending (R42). -/
def displaying (s : State) : Bool :=
  decide (s.psPend = .pending)
  && (decide (wordOp s.psCmdl = 0x02) || decide (wordOp s.psCmdl = 0x03))
  && decide (wordRsv s.psCmdl = 0)
  && decide (s.psSt = .idle)

/-- PS_STATUS.STATE, the code of the visible state (R42, R43); DISPLAYING is 2. -/
def visibleCode (s : State) : BitVec 3 :=
  if displaying s then 2 else handleCode s.psSt

/-- IC_STATUS.BUSY (R25). -/
def icBusy (s : State) : Bool := decide (s.icPend ≠ .none)

/-- PS_STATUS.BUSY (R35). -/
def psBusy (s : State) : Bool := decide (s.psPend ≠ .none)

/-- A flag as one bit. -/
def flagBit (b : Bool) : BitVec 1 := if b then 1 else 0

/-- The word a read of IC_STATUS returns: `{—, CAUSE, —, ERR, —, DONE, BUSY}` (R25). -/
def icStatusWord (s : State) : Word :=
  (0 : BitVec 8) ++ s.icCause ++ (0 : BitVec 4) ++ errCode s.icErr ++ (0 : BitVec 6)
    ++ flagBit s.icDone ++ flagBit (icBusy s)

/-- The word a read of PS_STATUS returns: `{—, STAGE, —, STATE, ERR, —, DONE, BUSY}` (R35). -/
def psStatusWord (s : State) : Word :=
  (0 : BitVec 8) ++ stageCode s.psStage ++ (0 : BitVec 1) ++ visibleCode s ++ errCode s.psErr
    ++ (0 : BitVec 6) ++ flagBit s.psDone ++ flagBit (psBusy s)

end Sys2Proof.Machine
end

