-- ==== Sys2Proof/Machine/Ops.lean ====
section
/-! DEFINITION. The named operations over the state: MEM (20_memory.md R61, R62), recording a fault
(60_exceptions.md R216), issue (42_convert.md R150, 41_panel_ops.md R120), completion and error completion
(60_exceptions.md R210, R211). The block has no trap entry and no trap return: their analogues are the error
completion and the next issue (R220, R221). -/

namespace Sys2Proof.Machine

/-! ### MEM -/

/-- `MemRead(a, 1)`: the byte at `a`, or `none` where nothing has been written since reset (R61, R63). -/
def Memory.read : Memory → Nat → Option Byte
  | [], _ => none
  | (k, v) :: rest, a => if k = a then some v else Memory.read rest a

/-- `MemWrite(a, 1, v)` (R62). -/
def Memory.write : Memory → Nat → Byte → Memory
  | [], a, b => [(a, b)]
  | (k, v) :: rest, a, b =>
    if a < k then (a, b) :: (k, v) :: rest
    else if a = k then (a, b) :: rest
    else (k, v) :: Memory.write rest a b

/-- The canonical form: addresses strictly rising. An unlisted address has no value, so no entry can equal
what it reads as. -/
def Memory.wf : Memory → Bool
  | [] => true
  | c :: rest => rest.all (fun d => decide (c.1 < d.1)) && Memory.wf rest

/-- `MemRead(a + k, 1)` for k = 0 to n - 1, in that order, or the first address that is unwritten
(42_convert.md R153, 41_panel_ops.md R124). -/
def readBytes (m : Memory) : Nat → Nat → Except Nat (List Byte)
  | _, 0 => .ok []
  | a, n + 1 =>
    match Memory.read m a with
    | none => .error a
    | some b =>
      match readBytes m (a + 1) n with
      | .error e => .error e
      | .ok bs => .ok (b :: bs)

/-- `MemWrite(a + k, 1, B[k])` for every k (42_convert.md R151). -/
def writeBytes (m : Memory) : Nat → List Byte → Memory
  | _, [] => m
  | a, b :: bs => writeBytes (Memory.write m a b) (a + 1) bs

/-! ### Faults -/

/-- Appends a fault to FAULTS; a host access that records one has no other effect (60_exceptions.md R216,
R217; 70_reset_and_hazards.md R244). -/
def recordFault (f : Fault) (s : State) : State := { s with faults := s.faults ++ [f] }

/-! ### The image_converter's issue and completions -/

/-- Issue to IC (42_convert.md R150). -/
def icIssue (w : Word) (s : State) : State :=
  { s with icCmdl := w, icPend := .pending, icDone := false, icErr := .none, icCause := 0 }

/-- `complete_ok()` for IC (60_exceptions.md R210). -/
def icCompleteOk (s : State) : State :=
  { s with icDone := true, icErr := .none, icCause := 0, icPend := .none }

/-- `raise E(cause)` inside a CONVERT: IC_OUT_LEN becomes 0 (60_exceptions.md R211, 42_convert.md R154). -/
def icRaiseConvert (e : Err) (cause : BitVec 4) (s : State) : State :=
  { s with icDone := true, icErr := e, icCause := cause, icOutLen := 0, icPend := .none }

/-- The completion of an illegal word latched in IC_CMDL: ILLEGAL_COMMAND(1), IC_OUT_LEN unchanged
(30_encoding.md R83, 60_exceptions.md R211, 90_conflicts.md C10). -/
def icRaiseIllegal (s : State) : State :=
  { s with icDone := true, icErr := .illegalCommand, icCause := 1, icPend := .none }

/-- A completion of IC that reads an unwritten byte: the fault is recorded, IC_PEND becomes NONE and nothing
else changes (60_exceptions.md R217). -/
def icUnwritten (a : Nat) (s : State) : State :=
  { s with faults := s.faults ++ [.unwrittenRead a], icPend := .none }

/-! ### The panel_state_machine's issue and completions -/

/-- Issue to PS (41_panel_ops.md R120). -/
def psIssue (w : Word) (s : State) : State :=
  { s with psCmdl := w, psPend := .pending, psDone := false, psErr := .none, psStage := .none }

/-- `PS_ST <- h; complete_ok()` for PS (60_exceptions.md R210). -/
def psCompleteOk (h : HandleState) (s : State) : State :=
  { s with psSt := h, psDone := true, psErr := .none, psStage := .none, psPend := .none }

/-- Whether an error is a validation error (41_panel_ops.md R132). -/
def validationError : Err → Bool
  | .illegalCommand => true
  | .invalidState => true
  | .bufferSizeMismatch => true
  | _ => false

/-- PS_ST after an error of command `i` (41_panel_ops.md R132). -/
def psStateAfterError (i : Instr) (e : Err) (h : HandleState) : HandleState :=
  if validationError e then h
  else if i = .psTeardown then .uninitialized
  else .faulted

/-- `raise E` at a stage inside PS command `i` (60_exceptions.md R211). -/
def psRaise (i : Instr) (e : Err) (stage : Stage) (s : State) : State :=
  { s with
    psSt := psStateAfterError i e s.psSt, psDone := true, psErr := e, psStage := stage,
    psPend := .none }

/-- The completion of an illegal word latched in PS_CMDL: ILLEGAL_COMMAND at stage VALIDATE, PS_ST unchanged
(30_encoding.md R83, 60_exceptions.md R211). -/
def psRaiseIllegal (s : State) : State :=
  { s with psDone := true, psErr := .illegalCommand, psStage := .validate, psPend := .none }

/-- A completion of PS that reads an unwritten byte (60_exceptions.md R217). -/
def psUnwritten (a : Nat) (s : State) : State :=
  { s with faults := s.faults ++ [.unwrittenRead a], psPend := .none }

end Sys2Proof.Machine
end

