-- ==== Sys2Proof/Machine/Pack.lean ====
section
/-! DEFINITION. Stage 3 of CONVERT: bit packing (45_bitpack.md R200 to R206). -/

namespace Sys2Proof.Machine

/-- Byte of its row that column x's bits are in: `(x * b) div 8` (R202). -/
def pixelByte (b x : Nat) : Nat := x * b / 8

/-- Bit position of the pixel's least significant bit: `8 - b - ((x * b) mod 8)` (R202). -/
def pixelShift (b x : Nat) : Nat := 8 - b - x * b % 8

/-- The mask of one pixel's bits, `(1 << b) - 1` (R204). -/
def pixelOnes (b : Nat) : Byte := BitVec.ofNat 8 ((1 <<< b) - 1)

/-- One step of R204's loop, within a row: the bits of column x become level q. -/
def setPixel (b x q : Nat) (row : List Byte) : List Byte :=
  let k := pixelByte b x
  let shift := pixelShift b x
  let mask := pixelOnes b <<< shift
  row.set k ((row.getD k 0 &&& (0xFF ^^^ mask)) ||| (BitVec.ofNat 8 q <<< shift))

/-- Columns x, x+1, … of a row (R204). -/
def packColumns (b : Nat) : Nat → List Nat → List Byte → List Byte
  | _, [], row => row
  | x, q :: qs, row => packColumns b (x + 1) qs (setPixel b x q row)

/-- One row of STRIDE bytes: every bit starts as 1, so that pad bits are 1 (R203, R204). -/
def packRow (m : ColorMode) (dw : Nat) (qs : List Nat) : List Byte :=
  packColumns (bpp m) 0 qs (List.replicate (stride dw m) 0xFF)

/-- `pack(Q, m)`: row y fills bytes y × STRIDE to (y + 1) × STRIDE - 1 (R201, R204). -/
def pack (m : ColorMode) (dw : Nat) (q : List (List Nat)) : List Byte :=
  q.flatMap (packRow m dw)

/-- Unpacking of pixel (x, y) (R205). -/
def unpackPixel (m : ColorMode) (dw : Nat) (buf : List Byte) (x y : Nat) : Nat :=
  ((buf.getD (y * stride dw m + pixelByte (bpp m) x) 0 >>> pixelShift (bpp m) x)
    &&& pixelOnes (bpp m)).toNat

end Sys2Proof.Machine
end

