-- ==== Sys2Proof/Machine/Reduce.lean ====
section
/-! DEFINITION. Stage 2 of CONVERT: color reduction and dither (44_color_reduce_dither.md R180 to R190), over
the integers (R190, 00_scope.md R10). -/

namespace Sys2Proof.Machine

/-- DITHER = NONE (R184). -/
def levelNone (n luma : Nat) : Nat := min n ((n * luma + 127) / 255)

/-- The 4×4 Bayer matrix M, row by row (R185). -/
def bayer : List (List Nat) :=
  [[0, 8, 2, 10],
   [12, 4, 14, 6],
   [3, 11, 1, 9],
   [15, 7, 13, 5]]

/-- `M[y mod 4][x mod 4]` (R185). -/
def bayerAt (x y : Nat) : Nat := (bayer.getD (y % 4) []).getD (x % 4) 0

/-- DITHER = ORDERED (R185). -/
def levelOrdered (n x y luma : Nat) : Nat :=
  min n ((n * luma + (16 * bayerAt x y + 8)) / 255)

/-- A reduction that treats each pixel (x, y) alone (R183). -/
def reducePixels (f : Nat → Nat → Nat → Nat) (p : List (List Nat)) : List (List Nat) :=
  p.mapIdx fun y row => row.mapIdx fun x luma => f x y luma

/-- `fsq(v)` (R187). -/
def fsq (n : Nat) (v : Int) : Nat :=
  if v ≤ 0 then 0
  else if 255 ≤ v then n
  else (n * v.toNat + 127) / 255

/-- FS_CUR and FS_NXT (10_state.md R44). -/
structure LineBuffers where
  cur : List (BitVec 16)
  nxt : List (BitVec 16)
deriving DecidableEq, Repr

/-- Entry x of a line buffer, a 16-bit signed integer (10_state.md R44). -/
def entryAt (b : List (BitVec 16)) (x : Nat) : Int := (b.getD x 0).toInt

/-- `b[x] <- b[x] + d`, in 16 bits (10_state.md R44, R188). -/
def addEntry (b : List (BitVec 16)) (x : Nat) (d : Int) : List (BitVec 16) :=
  b.set x (BitVec.ofInt 16 (entryAt b x + d))

/-- The first loop of R186: FS_NXT[0 .. DW-1] becomes 0. -/
def clearNext (dw : Nat) (b : LineBuffers) : LineBuffers :=
  { b with nxt := List.replicate dw 0 ++ b.nxt.drop dw }

/-- The loop at the head of each row of R186: FS_CUR takes FS_NXT's entries 0 .. DW-1, which become 0. -/
def nextRow (dw : Nat) (b : LineBuffers) : LineBuffers :=
  { cur := b.nxt.take dw ++ b.cur.drop dw
    nxt := List.replicate dw 0 ++ b.nxt.drop dw }

/-- Hands on the error e made at column x: 7/16 right, 3/16 down-left, 5/16 down, 1/16 down-right, each truncated
toward zero, dropped outside 0 .. DW-1 (R186). The 5/16 share is handed on at every column. Log 19. -/
def diffuse (dw x : Nat) (e : Int) (b : LineBuffers) : LineBuffers :=
  let cur := if x + 1 < dw then addEntry b.cur (x + 1) (Int.tdiv (7 * e) 16) else b.cur
  let nxt := if 1 ≤ x then addEntry b.nxt (x - 1) (Int.tdiv (3 * e) 16) else b.nxt
  let nxt := addEntry nxt x (Int.tdiv (5 * e) 16)
  let nxt := if x + 1 < dw then addEntry nxt (x + 1) (Int.tdiv (1 * e) 16) else nxt
  { cur := cur, nxt := nxt }

/-- The value v quantized at column x (R186). -/
def fsValue (luma x : Nat) (b : LineBuffers) : Int := luma + entryAt b.cur x

/-- Columns x, x+1, … of a row, left to right: their levels and the buffers after them (R186). -/
def fsRow (n dw : Nat) : Nat → List Nat → LineBuffers → List Nat × LineBuffers
  | _, [], b => ([], b)
  | x, luma :: rest, b =>
    let v := fsValue luma x b
    let q := fsq n v
    let r := fsRow n dw (x + 1) rest (diffuse dw x (v - lev n q) b)
    (q :: r.1, r.2)

/-- Rows from top to bottom (R186). -/
def fsRows (n dw : Nat) : List (List Nat) → LineBuffers → List (List Nat) × LineBuffers
  | [], b => ([], b)
  | row :: rest, b =>
    let r := fsRow n dw 0 row (nextRow dw b)
    let t := fsRows n dw rest r.2
    (r.1 :: t.1, t.2)

/-- DITHER = FLOYD_STEINBERG: the levels, and what the line buffers hold after the last row (R186). Log 8. -/
def floydSteinberg (n dw : Nat) (p : List (List Nat)) (b : LineBuffers) :
    List (List Nat) × LineBuffers :=
  fsRows n dw p (clearNext dw b)

/-- `reduce(P, CMODE, DITHER)` (R182, R183). Only FLOYD_STEINBERG uses the line buffers (10_state.md R44).
DITHER = 3 never gets here (42_convert.md R152, check 1). -/
def reduce (n dw : Nat) (dither : BitVec 2) (p : List (List Nat)) (b : LineBuffers) :
    List (List Nat) × LineBuffers :=
  if dither = 0 then (reducePixels (fun _ _ luma => levelNone n luma) p, b)
  else if dither = 1 then (reducePixels (fun x y luma => levelOrdered n x y luma) p, b)
  else floydSteinberg n dw p b

end Sys2Proof.Machine
end

