-- ==== Sys2Proof/Machine/Resize.lean ====
section
/-! DEFINITION. Stage 1 of CONVERT: luma and resize (43_resize.md R170 to R178; the raster's layout is
42_convert.md R155). A plane of luma values or of levels is the list of its rows, top row first. -/

namespace Sys2Proof.Machine

/-- Luma of an RGB888 pixel (R171). -/
def lumaRgb (r g b : Nat) : Nat := (77 * r + 150 * g + 29 * b) / 256

/-- Byte k of the source region. -/
def srcByte (src : List Byte) (k : Nat) : Nat := (src.getD k 0).toNat

/-- Luma of source pixel (sx, sy), which starts at byte `(sy × SW + sx) × Bpp` (R155, R171). -/
def srcLuma (fmt : BitVec 2) (src : List Byte) (sw sx sy : Nat) : Nat :=
  let k := (sy * sw + sx) * bytesPerPixel fmt
  if fmt = 0 then lumaRgb (srcByte src k) (srcByte src (k + 1)) (srcByte src (k + 2))
  else srcByte src k

/-- `(i * s) div d`: which of s source columns (rows) destination column (row) i of d samples (R173). -/
def sampleIndex (s d i : Nat) : Nat := i * s / d

/-- The box the scaled image fills in the target: size (w, h) at (ox, oy) (R175). -/
structure Box where
  w : Nat
  h : Nat
  ox : Nat
  oy : Nat
deriving DecidableEq, Repr

/-- W2 and H2 of LETTERBOX; ties are width-limited (R175). -/
def letterboxSize (sw sh dw dh : Nat) : Nat × Nat :=
  if dw * sh ≤ dh * sw then (dw, max 1 (sh * dw / sw))
  else (max 1 (sw * dh / sh), dh)

/-- The LETTERBOX box, its margins rounded down (R175). -/
def letterboxBox (sw sh dw dh : Nat) : Box :=
  let wh := letterboxSize sw sh dw dh
  ⟨wh.1, wh.2, (dw - wh.1) / 2, (dh - wh.2) / 2⟩

/-- Whether destination pixel (x, y) is inside a box (R175). -/
def inBox (b : Box) (x y : Nat) : Bool :=
  decide (b.ox ≤ x) && decide (x < b.ox + b.w) && decide (b.oy ≤ y) && decide (y < b.oy + b.h)

/-- P[y][x] under STRETCH (R173). -/
def stretchPixel (fmt : BitVec 2) (src : List Byte) (sw sh dw dh x y : Nat) : Nat :=
  srcLuma fmt src sw (sampleIndex sw dw x) (sampleIndex sh dh y)

/-- P[y][x] under LETTERBOX: the sampled pixel inside the box, white outside (R175). -/
def letterboxPixel (fmt : BitVec 2) (src : List Byte) (sw sh dw dh x y : Nat) : Nat :=
  let b := letterboxBox sw sh dw dh
  if inBox b x y then
    srcLuma fmt src sw (sampleIndex sw b.w (x - b.ox)) (sampleIndex sh b.h (y - b.oy))
  else 255

/-- The dw × dh plane whose pixel (x, y) is `f x y`. -/
def plane (dw dh : Nat) (f : Nat → Nat → Nat) : List (List Nat) :=
  (List.range dh).map fun y => (List.range dw).map fun x => f x y

/-- `resize(S, SW, SH, DW, DH, FIT)`: R173 when FIT = 0, R175 when FIT = 1 (R172, R174). -/
def resize (fmt : BitVec 2) (src : List Byte) (sw sh dw dh : Nat) (fit : BitVec 1) :
    List (List Nat) :=
  plane dw dh fun x y =>
    if fit = 0 then stretchPixel fmt src sw sh dw dh x y
    else letterboxPixel fmt src sw sh dw dh x y

end Sys2Proof.Machine
end

