-- ==== Sys2Proof/Machine/Convert.lean ====
section
/-! DEFINITION. IC.CONVERT, performed by IC's completion step after the latched word has been decoded
(42_convert.md R150 to R159). -/

namespace Sys2Proof.Machine

/-- Checks 3 to 10 of R152, for a legal color mode: the error and its cause (60_exceptions.md R213), or
`none`. -/
def convertChecksFrom3 (m : ColorMode) (s : State) : Option (Err × BitVec 4) :=
  let len := bufferLen (dstWidth s) (dstHeight s) m
  if srcFormat s ≠ 0 ∧ srcFormat s ≠ 1 then some (.decodeError, 1)
  else if srcWidth s = 0 ∨ srcHeight s = 0 then some (.decodeError, 2)
  else if s.cfg.memSize < srcBase s + srcLen s then some (.decodeError, 3)
  else if dstWidth s = 0 ∨ dstHeight s = 0 then some (.dimensionMismatch, 1)
  else if s.cfg.icMaxW < dstWidth s ∨ s.cfg.icMaxH < dstHeight s then some (.dimensionMismatch, 2)
  else if dstCap s < len then some (.dimensionMismatch, 3)
  else if s.cfg.memSize < dstBase s + len then some (.dimensionMismatch, 4)
  else if regionsOverlap ⟨srcBase s, srcBase s + srcLen s⟩ ⟨dstBase s, dstBase s + len⟩ then
    some (.illegalCommand, 3)
  else none

/-- CONVERT's validation, in the order of R152: the first check that fails, or the legal color mode. -/
def convertCheck (s : State) : Except (Err × BitVec 4) ColorMode :=
  if ditherField s = 3 then .error (.illegalCommand, 2)
  else match colorOfCode (colorField s) with
    | none => .error (.unsupportedColorMode, 1)
    | some m =>
      match convertChecksFrom3 m s with
      | some e => .error e
      | none => .ok m

/-- Stages 1 and 2 on the source bytes: the levels, and the line buffers after them (R151). -/
def convertLevels (m : ColorMode) (src : List Byte) (s : State) : List (List Nat) × LineBuffers :=
  reduce (maxLevel m) (dstWidth s) (ditherField s)
    (resize (srcFormat s) src (srcWidth s) (srcHeight s) (dstWidth s) (dstHeight s) (fitField s))
    ⟨s.fsCur, s.fsNxt⟩

/-- The packed buffer B (R151). -/
def convertBytes (m : ColorMode) (src : List Byte) (s : State) : List Byte :=
  pack m (dstWidth s) (convertLevels m src s).1

/-- A CONVERT that succeeds: the LEN bytes, the line buffers, IC_OUT_LEN, `complete_ok()` (R151, R157). -/
def convertStore (m : ColorMode) (src : List Byte) (s : State) : State :=
  icCompleteOk { s with
    mem := writeBytes s.mem (dstBase s) (convertBytes m src s)
    fsCur := (convertLevels m src s).2.cur
    fsNxt := (convertLevels m src s).2.nxt
    icOutLen := BitVec.ofNat 32 (bufferLen (dstWidth s) (dstHeight s) m) }

/-- CONVERT's completion: validate, read the whole source, then store (R151 to R154). -/
def convertStep (s : State) : State :=
  match convertCheck s with
  | .error (e, cause) => icRaiseConvert e cause s
  | .ok m =>
    match readBytes s.mem (srcBase s) (srcLen s) with
    | .error a => icUnwritten a s
    | .ok src => convertStore m src s

/-- IC.CONVERT (R151). -/
def execConvert (s : State) : Host.Outcome State Fault Refusal := .next (convertStep s)

end Sys2Proof.Machine
end

