-- ==== Sys2Proof/Machine/Panel.lean ====
section
/-! DEFINITION. The HAL and the protocol primitives of the panel_state_machine (40_panel_primitives.md R100 to
R112). A primitive takes the state to the state after it, or raises an error at a stage; nothing after a raise
runs (00_scope.md R11, R102). -/

namespace Sys2Proof.Machine

/-- The outcome of a part of a panel command. -/
inductive HalRun where
  /-- It ended; the command goes on. -/
  | done (s : State)
  /-- `raise E` at a stage (60_exceptions.md R211). -/
  | raised (e : Err) (stage : Stage) (s : State)
deriving DecidableEq, Repr

/-- Sequencing: a raise ends the command (00_scope.md R11). -/
def halThen (r : HalRun) (next : State → HalRun) : HalRun :=
  match r with
  | .done s => next s
  | .raised e stage s => .raised e stage s

/-! ### The HAL calls (R100) -/

/-- Appends an event to TRACE (10_state.md R46). -/
def emit (e : HalEvent) (s : State) : State := { s with trace := s.trace ++ [e] }

/-- ENV's next answer to SpiWrite or PinWrite (R100). Log 3. -/
def nextAck (s : State) : Ack :=
  match s.acks with
  | a :: _ => a
  | [] => Config.freeAck s.draws

/-- That answer is used up. -/
def takeAck (s : State) : State :=
  match s.acks with
  | _ :: rest => { s with acks := rest }
  | [] => { s with draws := s.draws + 1 }

/-- ENV's next answer to PinRead(BUSY) (R100). Log 3. -/
def nextBusy (s : State) : BusyAnswer :=
  match s.busyReads with
  | a :: _ => a
  | [] => Config.freeBusy s.draws

/-- That answer is used up. -/
def takeBusy (s : State) : State :=
  match s.busyReads with
  | _ :: rest => { s with busyReads := rest }
  | [] => { s with draws := s.draws + 1 }

/-- Sets RST_OUT or DC_OUT (R101). -/
def setPin (p : OutPin) (l : Level) (s : State) : State :=
  match p with
  | .rst => { s with rstOut := l }
  | .dc => { s with dcOut := l }

/-- A latch after a FAIL answer to PinWrite: unspecified, so a free value (R101). Log 10. -/
def spoilPin (p : OutPin) (s : State) : State :=
  setPin p (Config.freeLevel s.draws) { s with draws := s.draws + 1 }

/-- `hal SpiWrite(b)` (R100). -/
def spiWrite (stage : Stage) (b : Byte) (s : State) : HalRun :=
  match nextAck s with
  | .ok => .done (emit (.spiWrite b .ok) (takeAck s))
  | .fail => .raised .transportError stage (emit (.spiWrite b .fail) (takeAck s))

/-- `hal PinWrite(p, l)` (R100, R101). -/
def pinWrite (stage : Stage) (p : OutPin) (l : Level) (s : State) : HalRun :=
  match nextAck s with
  | .ok => .done (setPin p l (emit (.pinWrite p l .ok) (takeAck s)))
  | .fail =>
    .raised .transportError stage (spoilPin p (emit (.pinWrite p l .fail) (takeAck s)))

/-- `hal Delay(ms)` (R100, R113). -/
def halDelay (ms : Nat) (s : State) : HalRun := .done (emit (.delay ms) s)

/-! ### The primitives -/

/-- The payload loop of R103: bytes in list order. -/
def sendBytes (stage : Stage) : List Byte → State → HalRun
  | [], s => .done s
  | b :: bs, s => halThen (spiWrite stage b s) (sendBytes stage bs)

/-- `send_command(opc, payload)` (R103). -/
def sendCommand (stage : Stage) (opc : Byte) (payload : List Byte) (s : State) : HalRun :=
  halThen (pinWrite stage .dc s.cfg.dcCmdLevel s) fun s1 =>
  halThen (spiWrite stage opc s1) fun s2 =>
  halThen (pinWrite stage .dc (~~~ s.cfg.dcCmdLevel) s2) fun s3 =>
  sendBytes stage payload s3

/-- `reset` (R104). -/
def resetPulse (s : State) : HalRun :=
  halThen (pinWrite .reset .rst s.cfg.rstActiveLevel s) fun s1 =>
  halThen (halDelay s.cfg.resetPulseMs s1) fun s2 =>
  pinWrite .reset .rst (~~~ s.cfg.rstActiveLevel) s2

/-- One read of R105's loop: a FAIL raises TRANSPORT_ERROR, the ready level ends the poll, the other level goes on
with `notReady` (R105, 60_exceptions.md R218). -/
def pollRead (stage : Stage) (notReady : State → HalRun) (s : State) : HalRun :=
  match nextBusy s with
  | .fail => .raised .transportError stage (emit (.pinRead .fail) (takeBusy s))
  | .level l =>
    let s1 := emit (.pinRead (.level l)) (takeBusy s)
    if l = s.cfg.busyReadyLevel then .done s1 else notReady s1

/-- The loop of R105; the number counts the reads allowed after this one. -/
def pollLoop (timeout : Err) (stage : Stage) : Nat → State → HalRun
  | 0, s => pollRead stage (fun s1 => .raised timeout stage s1) s
  | more + 1, s =>
    pollRead stage
      (fun s1 => halThen (halDelay s1.cfg.busyPollMs s1) (pollLoop timeout stage more)) s

/-- `busy_poll(E)`: at most BUSY_MAX_POLLS reads (R105). -/
def busyPoll (timeout : Err) (stage : Stage) (s : State) : HalRun :=
  pollLoop timeout stage (s.cfg.busyMaxPolls - 1) s

/-- `exec_step(s, E)` (R106). -/
def execStep (timeout : Err) (stage : Stage) (p : PanelStep) (s : State) : HalRun :=
  match p with
  | .cmd opc payload => sendCommand stage opc payload s
  | .delay ms => halDelay ms s
  | .waitBusy => busyPoll timeout stage s

/-- The loops of R107 and R108: steps in list order. -/
def execSteps (timeout : Err) (stage : Stage) : List PanelStep → State → HalRun
  | [], s => .done s
  | p :: ps, s => halThen (execStep timeout stage p s) (execSteps timeout stage ps)

/-- `init` (R107). -/
def initPanel (s : State) : HalRun := execSteps .initTimeout .init s.cfg.initSeq s

/-- `lut_load` (R108). -/
def lutLoad (s : State) : HalRun := execSteps .initTimeout .lutLoad s.cfg.lutSeq s

/-- `ready_wait` (R109). -/
def readyWait (s : State) : HalRun := busyPoll .initTimeout .busyPoll s

/-- `data_xfer(bytes)` (R110). -/
def dataXfer (bytes : List Byte) (s : State) : HalRun :=
  sendCommand .dataXfer s.cfg.opcData bytes s

/-- `refresh` (R111). -/
def refreshPanel (s : State) : HalRun :=
  halThen (sendCommand .refresh s.cfg.opcRefresh [] s) (busyPoll .busyTimeout .busyPoll)

/-- `sleep_seq` (R112). -/
def sleepSeq (s : State) : HalRun := sendCommand .sleep s.cfg.opcSleep s.cfg.sleepPayload s

end Sys2Proof.Machine
end

