-- ==== Sys2Proof/Machine/PanelOps.lean ====
section
/-! DEFINITION. The five commands of the panel_state_machine, performed by PS's completion step after the latched
word has been decoded (41_panel_ops.md R120 to R133). -/

namespace Sys2Proof.Machine

/-- The end of command `i`: `PS_ST <- h; complete_ok()`, or the error completion (60_exceptions.md R210,
R211). -/
def psFinish (i : Instr) (h : HandleState) : HalRun → State
  | .done s => psCompleteOk h s
  | .raised e stage s => psRaise i e stage s

/-- The HAL part of INITIALIZE (R125). -/
def initializeRun (s : State) : HalRun :=
  halThen (resetPulse s) fun s1 =>
  halThen (initPanel s1) fun s2 =>
  halThen (lutLoad s2) readyWait

/-- PS.INITIALIZE (R125). -/
def execInitialize (s : State) : Host.Outcome State Fault Refusal :=
  .next (psFinish .psInitialize .idle (initializeRun s))

/-- The HAL part of DISPLAY and CLEAR (R126, R127). -/
def transferRun (bytes : List Byte) (s : State) : HalRun :=
  halThen (dataXfer bytes s) refreshPanel

/-- DISPLAY's validation, in order: state, length, MEM bounds (R123). -/
def displayCheck (s : State) : Option Err :=
  if s.psSt ≠ .idle then some .invalidState
  else if bufLen s ≠ expectedLen s.cfg then some .bufferSizeMismatch
  else if s.cfg.memSize < bufBase s + bufLen s then some .bufferSizeMismatch
  else none

/-- DISPLAY's completion: validate, read the whole buffer, then the HAL part (R123, R124, R126). -/
def displayStep (s : State) : State :=
  match displayCheck s with
  | some e => psRaise .psDisplay e .validate s
  | none =>
    match readBytes s.mem (bufBase s) (bufLen s) with
    | .error a => psUnwritten a s
    | .ok bytes => psFinish .psDisplay .idle (transferRun bytes s)

/-- PS.DISPLAY (R126). -/
def execDisplay (s : State) : Host.Outcome State Fault Refusal := .next (displayStep s)

/-- The buffer CLEAR sends: EXPECTED_LEN bytes of WHITE_BYTE (R122, R127). -/
def whiteBuffer (c : Params) : List Byte := List.replicate (expectedLen c) whiteByte

/-- CLEAR's completion (R127). -/
def clearStep (s : State) : State :=
  if s.psSt ≠ .idle then psRaise .psClear .invalidState .validate s
  else psFinish .psClear .idle (transferRun (whiteBuffer s.cfg) s)

/-- PS.CLEAR (R127). -/
def execClear (s : State) : Host.Outcome State Fault Refusal := .next (clearStep s)

/-- SLEEP's completion (R128). -/
def sleepStep (s : State) : State :=
  if s.psSt ≠ .idle then psRaise .psSleep .invalidState .validate s
  else psFinish .psSleep .asleep (sleepSeq s)

/-- PS.SLEEP (R128). -/
def execSleep (s : State) : Host.Outcome State Fault Refusal := .next (sleepStep s)

/-- TEARDOWN's completion: sleep_seq only from IDLE, then UNINITIALIZED (R129). -/
def teardownStep (s : State) : State :=
  if s.psSt = .idle then psFinish .psTeardown .uninitialized (sleepSeq s)
  else psCompleteOk .uninitialized s

/-- PS.TEARDOWN (R129). -/
def execTeardown (s : State) : Host.Outcome State Fault Refusal := .next (teardownStep s)

end Sys2Proof.Machine
end

