-- ==== Sys2Proof/Machine/Dispatch.lean ====
section
/-! DEFINITION. One arm for each command: what its completion step does. -/

namespace Sys2Proof.Machine

def exec (i : Instr) (s : State) : Host.Outcome State Fault Refusal :=
  match i with
  | .icConvert => Sys2Proof.Machine.execConvert s
  | .psInitialize => Sys2Proof.Machine.execInitialize s
  | .psDisplay => Sys2Proof.Machine.execDisplay s
  | .psClear => Sys2Proof.Machine.execClear s
  | .psSleep => Sys2Proof.Machine.execSleep s
  | .psTeardown => Sys2Proof.Machine.execTeardown s

end Sys2Proof.Machine
end

