-- ==== Sys2Proof/Machine/RegMap.lean ====
section
/-! DEFINITION. The register space: names, offsets, access kinds and what a read returns (10_state.md R22 to
R40). -/

namespace Sys2Proof.Machine

/-- The registers (R22). -/
inductive Reg where
  | icCmd
  | icStatus
  | icSrcDim
  | icSrcFmt
  | icSrcBase
  | icDstDim
  | icMode
  | icDstBase
  | icDstCap
  | icOutLen
  | psCmd
  | psStatus
  | psBufBase
  | psBufLen
  | psExpLen
  | psPanelDim
  | psPanelMode
deriving DecidableEq, Repr

/-- How a register may be accessed (R22, R23). -/
inductive Access where
  | wo
  | ro
  | rw
deriving DecidableEq, Repr

/-- Every register, in the order of R22. -/
def allRegs : List Reg :=
  [.icCmd, .icStatus, .icSrcDim, .icSrcFmt, .icSrcBase, .icDstDim, .icMode, .icDstBase, .icDstCap,
   .icOutLen, .psCmd, .psStatus, .psBufBase, .psBufLen, .psExpLen, .psPanelDim, .psPanelMode]

/-- A register's offset (R22). -/
def regOffset : Reg → Offset
  | .icCmd => 0x00
  | .icStatus => 0x04
  | .icSrcDim => 0x08
  | .icSrcFmt => 0x0C
  | .icSrcBase => 0x10
  | .icDstDim => 0x14
  | .icMode => 0x18
  | .icDstBase => 0x1C
  | .icDstCap => 0x20
  | .icOutLen => 0x24
  | .psCmd => 0x40
  | .psStatus => 0x44
  | .psBufBase => 0x48
  | .psBufLen => 0x4C
  | .psExpLen => 0x50
  | .psPanelDim => 0x54
  | .psPanelMode => 0x58

/-- The register at an offset; every other offset is unmapped, the misaligned ones among them (R22, R23). -/
def regAt (off : Offset) : Option Reg := allRegs.find? fun r => regOffset r == off

/-- A register's access kind (R22). -/
def regAccess : Reg → Access
  | .icCmd => .wo
  | .icStatus => .ro
  | .icSrcDim => .rw
  | .icSrcFmt => .rw
  | .icSrcBase => .rw
  | .icDstDim => .rw
  | .icMode => .rw
  | .icDstBase => .rw
  | .icDstCap => .rw
  | .icOutLen => .ro
  | .psCmd => .wo
  | .psStatus => .ro
  | .psBufBase => .rw
  | .psBufLen => .rw
  | .psExpLen => .ro
  | .psPanelDim => .ro
  | .psPanelMode => .ro

/-- The engine a register belongs to (R22). -/
def regEngine : Reg → Engine
  | .icCmd => .ic
  | .icStatus => .ic
  | .icSrcDim => .ic
  | .icSrcFmt => .ic
  | .icSrcBase => .ic
  | .icDstDim => .ic
  | .icMode => .ic
  | .icDstBase => .ic
  | .icDstCap => .ic
  | .icOutLen => .ic
  | .psCmd => .ps
  | .psStatus => .ps
  | .psBufBase => .ps
  | .psBufLen => .ps
  | .psExpLen => .ps
  | .psPanelDim => .ps
  | .psPanelMode => .ps

/-- PS_EXP_LEN (R38). -/
def expLenWord (c : Params) : Word := BitVec.ofNat 32 (expectedLen c)

/-- PS_PANEL_DIM, `{PANEL_H[15:0], PANEL_W[15:0]}` (R39). -/
def panelDimWord (c : Params) : Word := BitVec.ofNat 16 c.panelH ++ BitVec.ofNat 16 c.panelW

/-- PS_PANEL_MODE: the ColorMode code in bits 3:0 (R40). -/
def panelModeWord (c : Params) : Word := (0 : BitVec 28) ++ colorCode c.panelMode

/-- The bits of IC_SRC_FMT that are not reserved (R27). -/
def srcFmtMask : Word := 0x00000003

/-- The bits of IC_MODE that are not reserved (R30). -/
def modeMask : Word := 0x0000007F

/-- What a read of a register returns; a write-only register and a reserved field
read 0 (R23 to R40). -/
def regValue (r : Reg) (s : State) : Word :=
  match r with
  | .icCmd => 0
  | .icStatus => icStatusWord s
  | .icSrcDim => s.icSrcDim
  | .icSrcFmt => s.icSrcFmt &&& srcFmtMask
  | .icSrcBase => s.icSrcBase
  | .icDstDim => s.icDstDim
  | .icMode => s.icMode &&& modeMask
  | .icDstBase => s.icDstBase
  | .icDstCap => s.icDstCap
  | .icOutLen => s.icOutLen
  | .psCmd => 0
  | .psStatus => psStatusWord s
  | .psBufBase => s.psBufBase
  | .psBufLen => s.psBufLen
  | .psExpLen => expLenWord s.cfg
  | .psPanelDim => panelDimWord s.cfg
  | .psPanelMode => panelModeWord s.cfg

/-- The effect of a write that no hazard stops: a command register issues, a read-only register ignores the
write, reserved fields ignore it (R23 to R40; 42_convert.md R150; 41_panel_ops.md R120). -/
def regStore (r : Reg) (w : Word) (s : State) : State :=
  match r with
  | .icCmd => icIssue w s
  | .icStatus => s
  | .icSrcDim => { s with icSrcDim := w }
  | .icSrcFmt => { s with icSrcFmt := w &&& srcFmtMask }
  | .icSrcBase => { s with icSrcBase := w }
  | .icDstDim => { s with icDstDim := w }
  | .icMode => { s with icMode := w &&& modeMask }
  | .icDstBase => { s with icDstBase := w }
  | .icDstCap => { s with icDstCap := w }
  | .icOutLen => s
  | .psCmd => psIssue w s
  | .psStatus => s
  | .psBufBase => { s with psBufBase := w }
  | .psBufLen => { s with psBufLen := w }
  | .psExpLen => s
  | .psPanelDim => s
  | .psPanelMode => s

end Sys2Proof.Machine
end

