-- ==== Sys2Proof/Machine/HostPort.lean ====
section
/-! DEFINITION. The host's transactions: register and MEM accesses, bus errors and hazards (10_state.md R23;
20_memory.md R64; 30_encoding.md R87; 70_reset_and_hazards.md R240 to R246). Hazards are checked before the access
takes effect, and a faulting access changes nothing but FAULTS (R244). -/

namespace Sys2Proof.Machine

/-- Hands a read's result to the host (30_encoding.md R87). Log 13. -/
def sendReply (r : Reply) (s : State) : State := { s with replies := s.replies ++ [r] }

/-- Whether an engine has a pending command. -/
def enginePending (e : Engine) (s : State) : Bool :=
  match e with
  | .ic => decide (s.icPend = .pending)
  | .ps => decide (s.psPend = .pending)

/-- REG_WRITE_PENDING: a write to a register of a pending engine that is not read-only (R240). -/
def regWriteHazard (r : Reg) (s : State) : Bool :=
  decide (regAccess r ≠ .ro) && enginePending (regEngine r) s

/-- CROSS_ENGINE: issuing a CONVERT whose DST_REGION overlaps a pending DISPLAY's BUF_REGION, or a DISPLAY whose
BUF_REGION overlaps a pending CONVERT's DST_REGION (R242). -/
def crossEngineHazard (r : Reg) (w : Word) (s : State) : Bool :=
  match r with
  | .icCmd =>
    decodesTo .ic w .icConvert && displayPending s && regionsOverlap (dstRegion s) (bufRegion s)
  | .psCmd =>
    decodesTo .ps w .psDisplay && convertPending s && regionsOverlap (bufRegion s) (dstRegion s)
  | _ => false

/-- `RegWrite(off, w)` (R23, R240, R242). -/
def regWriteStep (off : Offset) (w : Word) (s : State) : State :=
  match regAt off with
  | none => recordFault (.busErrorReg off) s
  | some r =>
    if regWriteHazard r s then recordFault (.hazard .regWritePending off.toNat) s
    else if crossEngineHazard r w s then recordFault (.hazard .crossEngine off.toNat) s
    else regStore r w s

/-- `RegRead(off)`: no side effect but the reply; a refused access returns 0 (R23). -/
def regReadStep (off : Offset) (s : State) : State :=
  match regAt off with
  | none => sendReply (.word 0) (recordFault (.busErrorReg off) s)
  | some r => sendReply (.word (regValue r s)) s

/-- MEM_IN_FLIGHT for a write: the address is in a pending command's read or write region (R241). -/
def memWriteHazard (a : Nat) (s : State) : Bool :=
  (convertPending s && (inRegion (srcRegion s) a || inRegion (dstRegion s) a))
  || (displayPending s && inRegion (bufRegion s) a)

/-- MEM_IN_FLIGHT for a read: the address is in a pending command's write region (R241). -/
def memReadHazard (a : Nat) (s : State) : Bool := convertPending s && inRegion (dstRegion s) a

/-- `HostMemWrite(a, b)` (20_memory.md R64, R241). An address outside MEM is a bus error whatever is pending.
Log 12. -/
def memWriteStep (a : Nat) (b : Byte) (s : State) : State :=
  if s.cfg.memSize ≤ a then recordFault (.busErrorMem a) s
  else if memWriteHazard a s then recordFault (.hazard .memInFlight a) s
  else { s with mem := Memory.write s.mem a b }

/-- `HostMemRead(a)` (20_memory.md R61, R64, R241): a bus error or a hazard returns 0, an unwritten byte has no
value. Logs 12, 13. -/
def memReadStep (a : Nat) (s : State) : State :=
  if s.cfg.memSize ≤ a then sendReply (.byte 0) (recordFault (.busErrorMem a) s)
  else if memReadHazard a s then sendReply (.byte 0) (recordFault (.hazard .memInFlight a) s)
  else match Memory.read s.mem a with
    | some b => sendReply (.byte b) s
    | none => sendReply .noValue (recordFault (.unwrittenRead a) s)

/-- An access of another width: a bus error, a read returning 0 (10_state.md R23, 20_memory.md R64). Log 14. -/
def otherWidthStep (f : Fault) (isRead : Bool) (zero : Reply) (s : State) : State :=
  if isRead then sendReply zero (recordFault f s) else recordFault f s

/-- One host transaction. -/
def hostStep (t : Transaction) (s : State) : State :=
  match t with
  | .regWrite off w => regWriteStep off w s
  | .regRead off => regReadStep off s
  | .memWrite a b => memWriteStep a b s
  | .memRead a => memReadStep a s
  | .regOtherWidth off isRead => otherWidthStep (.busErrorReg off) isRead (.word 0) s
  | .memManyBytes a isRead => otherWidthStep (.busErrorMem a) isRead (.byte 0) s

end Sys2Proof.Machine
end

