-- ==== Sys2Proof/Machine/Complete.lean ====
section
/-! DEFINITION. The completion steps of the two engines and the turns of the one total order (00_scope.md R6;
20_memory.md R71; 30_encoding.md R83; 60_exceptions.md R210). -/

namespace Sys2Proof.Machine

/-- IC's completion step: the latched word is decoded and performed; an illegal word completes with
ILLEGAL_COMMAND(1) (R83, R210). -/
def completeIc (s : State) : Host.Outcome State Fault Refusal :=
  match decode .ic s.icCmdl with
  | .ok i => exec i s
  | .error _ => .next (icRaiseIllegal s)

/-- PS's completion step (R83, R210). -/
def completePs (s : State) : Host.Outcome State Fault Refusal :=
  match decode .ps s.psCmdl with
  | .ok i => exec i s
  | .error _ => .next (psRaiseIllegal s)

/-- One turn. An engine with no pending command has no enabled step, so its turn passes (R210). Log 17. -/
def takeTurn (t : Turn) (s : State) : Host.Outcome State Fault Refusal :=
  match t with
  | .host x => .next (hostStep x s)
  | .ic => if s.icPend = .pending then completeIc s else .next s
  | .ps => if s.psPend = .pending then completePs s else .next s

/-- What happens when the agenda has run out: a pending engine completes (weak fairness, R210), in a free order
when both are pending, and with nothing pending the block waits for its host. Logs 1, 2. -/
def drainStep (s : State) : Host.Outcome State Fault Refusal :=
  match s.icPend, s.psPend with
  | .pending, .pending =>
    if Config.freeIcFirst s.draws then completeIc { s with draws := s.draws + 1 }
    else completePs { s with draws := s.draws + 1 }
  | .pending, .none => completeIc s
  | .none, .pending => completePs s
  | .none, .none => .next s

/-- The state with word `w` latched for engine `e`, pending, and that engine's turn next. Logs 1, 15. -/
def placeWord (e : Engine) (w : Word) (s : State) : State :=
  match e with
  | .ic => { s with icCmdl := w, icPend := .pending, agenda := .ic :: s.agenda }
  | .ps => { s with psCmdl := w, psPend := .pending, agenda := .ps :: s.agenda }

end Sys2Proof.Machine
end

