-- ==== Sys2Proof/Machine/Step.lean ====
section
/-! DEFINITION. One step of the machine: the next turn of the agenda (20_memory.md R71), and how a table word is
placed so that the next step performs it. -/

namespace Sys2Proof.Machine

/-- One step. Log 1. -/
def step (s : State) : Host.Outcome State Fault Refusal :=
  match s.agenda with
  | t :: rest => takeTurn t { s with agenda := rest }
  | [] => drainStep s

/-- The state with a table word latched and pending at its engine, whose turn is next. Logs 1, 15. -/
def State.withFetchWord (s : State) (nbits w : Nat) : State :=
  placeWord (tableEngine (tableWord nbits w)) (tableWord nbits w) s

end Sys2Proof.Machine
end

