-- ==== Sys2Proof/Machine/Asm.lean ====
section
/-! DEFINITION. The text syntax of host programs as transactions: the four operations and the pseudo-instructions
(30_encoding.md R89, R90). A program is the list of turns its lines put into `State.agenda`. -/

namespace Sys2Proof.Machine

/-- `WR <reg>, <imm32>` (R89). -/
def asmWr (r : Reg) (w : Word) : List Transaction := [.regWrite (regOffset r) w]

/-- `RD <reg>` (R89). -/
def asmRd (r : Reg) : List Transaction := [.regRead (regOffset r)]

/-- `MWB <addr>, <byte>` (R89). -/
def asmMwb (a : Nat) (b : Byte) : List Transaction := [.memWrite a b]

/-- `MRB <addr>` (R89). -/
def asmMrb (a : Nat) : List Transaction := [.memRead a]

/-- The register a command's word is written to (R80). -/
def commandReg : Engine → Reg
  | .ic => .icCmd
  | .ps => .psCmd

/-- `IC.CONVERT` to `PS.TEARDOWN`: a write of the command's word (R90). -/
def asmCommand (i : Instr) : List Transaction := asmWr (commandReg (encode i).1) (encode i).2

/-- `DIM <reg>, w, h` (R90). -/
def asmDim (r : Reg) (w h : Nat) : List Transaction := asmWr r (BitVec.ofNat 32 ((h <<< 16) ||| w))

/-- `MODE cm, di, fit` (R90). -/
def asmMode (cm di fit : Nat) : List Transaction :=
  asmWr .icMode (BitVec.ofNat 32 (cm ||| (di <<< 4) ||| (fit <<< 6)))

/-- `MWS <addr>, b0, ..., bk` (R90). -/
def asmMws : Nat → List Byte → List Transaction
  | _, [] => []
  | a, b :: bs => asmMwb a b ++ asmMws (a + 1) bs

/-- The status register of an engine. -/
def statusReg : Engine → Reg
  | .ic => .icStatus
  | .ps => .psStatus

/-- One read of `WAIT.IC` or `WAIT.PS` (R90). -/
def asmWaitRead (e : Engine) : List Transaction := asmRd (statusReg e)

/-- Whether `WAIT` goes back to its read: bit 0 of the result is 1. The loop is the host's own control flow
(R90). -/
def waitAgain (r : Reply) : Bool :=
  match r with
  | .word w => w.getLsbD 0
  | .byte _ => false
  | .noValue => false

/-- The host's turns for a list of transactions. -/
def hostTurns (ts : List Transaction) : List Turn := ts.map .host

end Sys2Proof.Machine
end

