-- ==== Sys2Proof/Safety.lean ====
section
/-! DEFINITION. The terms statements are written in: fault-free runs, the machine's invariant, what an engine's
step may change, the events a panel command emits when every answer is good, and the unbounded-integer
Floyd–Steinberg scan of 44_color_reduce_dither.md R186 and R188. -/

namespace Sys2Proof.Safety

open Sys2Proof.Machine

/-- FAULTS is empty: the premise of every claim about a run (10_state.md R47, 60_exceptions.md R216). -/
def FaultFree (s : State) : Prop := s.faults = []

/-- The five commands of the panel_state_machine (30_encoding.md R82). -/
def panelCommands : List Instr := [.psInitialize, .psDisplay, .psClear, .psSleep, .psTeardown]

/-! ### Legal values of the status registers -/

/-- The (ERR, CAUSE) pairs IC_STATUS can hold (60_exceptions.md R213). -/
def legalIcPairs : List (Err × BitVec 4) :=
  [(.none, 0),
   (.illegalCommand, 1), (.illegalCommand, 2), (.illegalCommand, 3),
   (.unsupportedColorMode, 1),
   (.decodeError, 1), (.decodeError, 2), (.decodeError, 3),
   (.dimensionMismatch, 1), (.dimensionMismatch, 2), (.dimensionMismatch, 3),
   (.dimensionMismatch, 4)]

/-- The (ERR, STAGE) pairs PS_STATUS can hold (60_exceptions.md R212, R214; the Errors lines of
40_panel_primitives.md R103 to R112 and 41_panel_ops.md R125 to R129). -/
def legalPsPairs : List (Err × Stage) :=
  [(.none, .none),
   (.illegalCommand, .validate), (.invalidState, .validate), (.bufferSizeMismatch, .validate),
   (.transportError, .reset), (.transportError, .init), (.transportError, .lutLoad),
   (.transportError, .busyPoll), (.transportError, .dataXfer), (.transportError, .refresh),
   (.transportError, .sleep),
   (.initTimeout, .init), (.initTimeout, .lutLoad), (.initTimeout, .busyPoll),
   (.busyTimeout, .busyPoll)]

/-- Whether an error is raised by the HAL part of a command (41_panel_ops.md R132). -/
def halError : Err → Bool
  | .transportError => true
  | .initTimeout => true
  | .busyTimeout => true
  | _ => false

/-- The invariant every step keeps: the parameters are well formed (00_scope.md R8), MEM has its canonical form and
lies below MEM_SIZE (20_memory.md R60), the line buffers have IC_MAX_W entries (10_state.md R44), reserved
register fields are 0 (R23), the status registers hold legal values (60_exceptions.md R212 to R214), a pending
engine has DONE, ERR and its detail cleared (R50; 42_convert.md R150; 41_panel_ops.md R120), and after a HAL error
PS_ST is FAULTED, or UNINITIALIZED after TEARDOWN's (70_reset_and_hazards.md R235). -/
structure Inv (s : State) : Prop where
  cfg_wf : s.cfg.wf = true
  mem_wf : Memory.wf s.mem = true
  mem_bounded : ∀ a, Memory.read s.mem a ≠ none → a < s.cfg.memSize
  fsCur_length : s.fsCur.length = s.cfg.icMaxW
  fsNxt_length : s.fsNxt.length = s.cfg.icMaxW
  srcFmt_reserved : s.icSrcFmt.toNat < 4
  mode_reserved : s.icMode.toNat < 128
  ic_pair : (s.icErr, s.icCause) ∈ legalIcPairs
  ps_pair : (s.psErr, s.psStage) ∈ legalPsPairs
  ic_pending : s.icPend = .pending → s.icDone = false
  ps_pending : s.psPend = .pending → s.psDone = false
  ic_not_done : s.icDone = false → s.icErr = .none
  ps_not_done : s.psDone = false → s.psErr = .none
  after_hal_error : halError s.psErr = true →
    s.psSt = .faulted ∨ (s.psSt = .uninitialized ∧ s.psErr = .transportError ∧ s.psStage = .sleep)

/-! ### What a step of an engine may change -/

/-- `t` differs from `s` at most in TRACE, the pin latches and ENV's inputs: what a HAL call may change. -/
def HalFrame (s t : State) : Prop :=
  t = { s with
    trace := t.trace, rstOut := t.rstOut, dcOut := t.dcOut, acks := t.acks,
    busyReads := t.busyReads, draws := t.draws }

/-- `t` differs from `s` at most in PS's status, handle state, PEND, pin latches, TRACE and ENV's inputs: MEM,
FAULTS, every register of R22 that can be written, IC_OUT_LEN, IC's status and hidden state, PS_CMDL, the
parameters, the agenda and the replies are the same. -/
def PanelFrame (s t : State) : Prop :=
  t = { s with
    psDone := t.psDone, psErr := t.psErr, psStage := t.psStage, psSt := t.psSt,
    psPend := t.psPend, trace := t.trace, rstOut := t.rstOut, dcOut := t.dcOut,
    acks := t.acks, busyReads := t.busyReads, draws := t.draws }

/-- `t` differs from `s` at most in MEM, FAULTS, IC_OUT_LEN, IC's status, IC_PEND and the line buffers: the effects
42_convert.md R157 allows a CONVERT, and the fault of 20_memory.md R61. -/
def ConvertFrame (s t : State) : Prop :=
  t = { s with
    mem := t.mem, faults := t.faults, icOutLen := t.icOutLen, icDone := t.icDone,
    icErr := t.icErr, icCause := t.icCause, icPend := t.icPend, fsCur := t.fsCur,
    fsNxt := t.fsNxt }

/-! ### CONVERT's checks, from the register bits -/

/-- The checks of 42_convert.md R152 in order, each with its error and cause (60_exceptions.md R213), written on
the numbers in the registers. A check that uses LEN is listed for the color mode its CMODE stands for. -/
def convertCheckList (s : State) : List (Bool × Err × BitVec 4) :=
  let sw := s.icSrcDim.toNat % 65536
  let sh := s.icSrcDim.toNat / 65536
  let fmt := s.icSrcFmt.toNat % 4
  let srcBytes := sw * sh * (if fmt = 0 then 3 else 1)
  let dw := s.icDstDim.toNat % 65536
  let dh := s.icDstDim.toNat / 65536
  let cmode := s.icMode.toNat % 16
  let dither := s.icMode.toNat / 16 % 4
  let len := (dw * (cmode + 1) + 7) / 8 * dh
  let srcLo := s.icSrcBase.toNat
  let dstLo := s.icDstBase.toNat
  [(dither == 3, .illegalCommand, 2),
   (decide (2 ≤ cmode), .unsupportedColorMode, 1),
   (decide (2 ≤ fmt), .decodeError, 1),
   (sw == 0 || sh == 0, .decodeError, 2),
   (decide (s.cfg.memSize < srcLo + srcBytes), .decodeError, 3),
   (dw == 0 || dh == 0, .dimensionMismatch, 1),
   (decide (s.cfg.icMaxW < dw) || decide (s.cfg.icMaxH < dh), .dimensionMismatch, 2),
   (decide (s.icDstCap.toNat < len), .dimensionMismatch, 3),
   (decide (s.cfg.memSize < dstLo + len), .dimensionMismatch, 4),
   (decide (srcLo < dstLo + len) && decide (dstLo < srcLo + srcBytes), .illegalCommand, 3)]

/-- SW × SH × Bpp on the numbers in the registers (42_convert.md R152). -/
def sourceBytes (s : State) : Nat :=
  s.icSrcDim.toNat % 65536 * (s.icSrcDim.toNat / 65536)
    * (if s.icSrcFmt.toNat % 4 = 0 then 3 else 1)

/-- The source bytes are all written, and `src` lists them in address order (42_convert.md R153). -/
def SourceIs (s : State) (src : List Byte) : Prop :=
  src.length = sourceBytes s
    ∧ ∀ k, k < sourceBytes s → Memory.read s.mem (s.icSrcBase.toNat + k) = src[k]?

/-- A CONVERT that passes every check of R152 for color mode `m` on written source bytes `src`. -/
def ConvertReady (s : State) (m : ColorMode) (src : List Byte) : Prop :=
  (∀ c ∈ convertCheckList s, c.1 = false) ∧ s.icMode.toNat % 16 = (colorCode m).toNat
    ∧ SourceIs s src

/-- DW on the number in IC_DST_DIM (10_state.md R29). -/
def targetWidth (s : State) : Nat := s.icDstDim.toNat % 65536

/-- DH on the number in IC_DST_DIM (R29). -/
def targetHeight (s : State) : Nat := s.icDstDim.toNat / 65536

/-- Bits per pixel of a legal CMODE: 1 or 2 (10_state.md R30, 44_color_reduce_dither.md R180). -/
def targetBits (s : State) : Nat := s.icMode.toNat % 16 + 1

/-- STRIDE of the target on the register numbers (45_bitpack.md R200). -/
def targetRow (s : State) : Nat := (targetWidth s * targetBits s + 7) / 8

/-- LEN of the target on the register numbers (R200). -/
def targetLen (s : State) : Nat := targetRow s * targetHeight s

/-- Luma of source pixel (sx, sy), on the numbers in the registers (42_convert.md R155, 43_resize.md R171). -/
def sourceLuma (s : State) (src : List Byte) (sx sy : Nat) : Nat :=
  let pixel := sy * (s.icSrcDim.toNat % 65536) + sx
  if s.icSrcFmt.toNat % 4 = 0 then
    (77 * (src.getD (3 * pixel) 0).toNat + 150 * (src.getD (3 * pixel + 1) 0).toNat
      + 29 * (src.getD (3 * pixel + 2) 0).toNat) / 256
  else (src.getD pixel 0).toNat

/-- P[y][x], the luma plane of stage 1, on the numbers in the registers: FIT is bit 6 of IC_MODE (10_state.md
R30), STRETCH is 43_resize.md R173 and LETTERBOX is R175. -/
def lumaAt (s : State) (src : List Byte) (x y : Nat) : Nat :=
  let sw := s.icSrcDim.toNat % 65536
  let sh := s.icSrcDim.toNat / 65536
  let dw := s.icDstDim.toNat % 65536
  let dh := s.icDstDim.toNat / 65536
  if s.icMode.toNat / 64 % 2 = 0 then sourceLuma s src (x * sw / dw) (y * sh / dh)
  else
    let w2 := if dw * sh ≤ dh * sw then dw else max 1 (sw * dh / sh)
    let h2 := if dw * sh ≤ dh * sw then max 1 (sh * dw / sw) else dh
    let ox := (dw - w2) / 2
    let oy := (dh - h2) / 2
    if ox ≤ x ∧ x < ox + w2 ∧ oy ≤ y ∧ y < oy + h2 then
      sourceLuma s src ((x - ox) * sw / w2) ((y - oy) * sh / h2)
    else 255

/-! ### The MEM regions of the hazard rules, on the numbers in the registers (20_memory.md R69) -/

/-- Address `a` is in SRC_REGION, with Bpp = 1 when FMT = 1 and 3 otherwise. -/
def InSourceRegion (s : State) (a : Nat) : Prop :=
  s.icSrcBase.toNat ≤ a
    ∧ a < s.icSrcBase.toNat
        + s.icSrcDim.toNat % 65536 * (s.icSrcDim.toNat / 65536)
          * (if s.icSrcFmt.toNat % 4 = 1 then 1 else 3)

/-- Address `a` is in DST_REGION. -/
def InTargetRegion (s : State) (a : Nat) : Prop :=
  s.icDstBase.toNat ≤ a ∧ a < s.icDstBase.toNat + s.icDstCap.toNat

/-- Address `a` is in BUF_REGION. -/
def InBufferRegion (s : State) (a : Nat) : Prop :=
  s.psBufBase.toNat ≤ a ∧ a < s.psBufBase.toNat + s.psBufLen.toNat

/-- DST_REGION and BUF_REGION overlap: they share an address. -/
def TargetMeetsBuffer (s : State) : Prop := ∃ a, InTargetRegion s a ∧ InBufferRegion s a

/-! ### Events of a panel command whose HAL answers are all good -/

/-- Whether ENV answers the event with OK or FAIL: SpiWrite and PinWrite (40_panel_primitives.md R100). -/
def isWriteEvent : HalEvent → Bool
  | .spiWrite _ _ => true
  | .pinWrite _ _ _ => true
  | .pinRead _ => false
  | .delay _ => false

/-- How many OK answers a list of events needs. -/
def writeCount (es : List HalEvent) : Nat := es.countP isWriteEvent

/-- Whether ENV answered the event with FAIL. -/
def failed : HalEvent → Bool
  | .spiWrite _ a => a == .fail
  | .pinWrite _ _ a => a == .fail
  | .pinRead a => a == .fail
  | .delay _ => false

/-- send_command (40_panel_primitives.md R103). -/
def sendCommandEvents (c : Params) (opc : Byte) (payload : List Byte) : List HalEvent :=
  [.pinWrite .dc c.dcCmdLevel .ok, .spiWrite opc .ok, .pinWrite .dc (~~~ c.dcCmdLevel) .ok]
    ++ payload.map fun b => .spiWrite b .ok

/-- reset (R104). -/
def resetEvents (c : Params) : List HalEvent :=
  [.pinWrite .rst c.rstActiveLevel .ok, .delay c.resetPulseMs,
   .pinWrite .rst (~~~ c.rstActiveLevel) .ok]

/-- k reads that are not ready, each with the delay after it (R105). -/
def waitEvents (c : Params) (k : Nat) : List HalEvent :=
  (List.replicate k
    [HalEvent.pinRead (.level (~~~ c.busyReadyLevel)), HalEvent.delay c.busyPollMs]).flatten

/-- A busy poll that sees the ready level at read k + 1 (R105). -/
def pollEvents (c : Params) (k : Nat) : List HalEvent :=
  waitEvents c k ++ [.pinRead (.level c.busyReadyLevel)]

/-- The events of a timeout: BUSY_MAX_POLLS reads, and a delay between two reads (R105). -/
def timeoutEvents (c : Params) : List HalEvent :=
  waitEvents c (c.busyMaxPolls - 1) ++ [.pinRead (.level (~~~ c.busyReadyLevel))]

/-- How many WAIT_BUSY steps a sequence has. -/
def pollCount (ps : List PanelStep) : Nat := ps.countP fun p => p == .waitBusy

/-- The steps of a sequence, `waits` giving the reads that are not ready in each WAIT_BUSY (R106 to R108). -/
def stepsEvents (c : Params) : List PanelStep → List Nat → List HalEvent
  | [], _ => []
  | .cmd opc payload :: ps, waits => sendCommandEvents c opc payload ++ stepsEvents c ps waits
  | .delay ms :: ps, waits => .delay ms :: stepsEvents c ps waits
  | .waitBusy :: ps, k :: waits => pollEvents c k ++ stepsEvents c ps waits
  | .waitBusy :: ps, [] => stepsEvents c ps []

/-- INITIALIZE: reset, init, lut_load, ready_wait (41_panel_ops.md R125). -/
def initializeEvents (c : Params) (waits : List Nat) (last : Nat) : List HalEvent :=
  resetEvents c ++ stepsEvents c (c.initSeq ++ c.lutSeq) waits ++ pollEvents c last

/-- data_xfer and refresh (R110, R111). -/
def transferEvents (c : Params) (bytes : List Byte) (k : Nat) : List HalEvent :=
  sendCommandEvents c c.opcData bytes ++ sendCommandEvents c c.opcRefresh [] ++ pollEvents c k

/-- sleep_seq (R112). -/
def sleepEvents (c : Params) : List HalEvent := sendCommandEvents c c.opcSleep c.sleepPayload

/-- ENV's answers to the reads of successive polls, each ready after `k` reads that are not. -/
def busyAnswers (c : Params) (waits : List Nat) : List BusyAnswer :=
  waits.flatMap fun k =>
    List.replicate k (.level (~~~ c.busyReadyLevel)) ++ [.level c.busyReadyLevel]

/-! ### Where a command fails -/

/-- The HAL events of a panel command whose answers are all good, each with the stage it belongs to
(40_panel_primitives.md R102 to R112; 41_panel_ops.md R125 to R129). `bytes` is DISPLAY's buffer; `initWaits`,
`lutWaits` and `last` count the reads that are not ready in each poll. CONVERT has none. -/
def stagedEvents (c : Params) (bytes : List Byte) (initWaits lutWaits : List Nat) (last : Nat) :
    Instr → List (Stage × HalEvent)
  | .icConvert => []
  | .psInitialize =>
    (resetEvents c).map (Stage.reset, ·)
      ++ (stepsEvents c c.initSeq initWaits).map (Stage.init, ·)
      ++ (stepsEvents c c.lutSeq lutWaits).map (Stage.lutLoad, ·)
      ++ (pollEvents c last).map (Stage.busyPoll, ·)
  | .psDisplay =>
    (sendCommandEvents c c.opcData bytes).map (Stage.dataXfer, ·)
      ++ (sendCommandEvents c c.opcRefresh []).map (Stage.refresh, ·)
      ++ (pollEvents c last).map (Stage.busyPoll, ·)
  | .psClear =>
    (sendCommandEvents c c.opcData (List.replicate (expectedLen c) 0xFF)).map (Stage.dataXfer, ·)
      ++ (sendCommandEvents c c.opcRefresh []).map (Stage.refresh, ·)
      ++ (pollEvents c last).map (Stage.busyPoll, ·)
  | .psSleep => (sleepEvents c).map (Stage.sleep, ·)
  | .psTeardown => (sleepEvents c).map (Stage.sleep, ·)

/-- The polls of INITIALIZE have as many counts as WAIT_BUSY steps, and each sees ready within the bound (R105). -/
def WaitsFit (c : Params) (initWaits lutWaits : List Nat) (last : Nat) : Prop :=
  initWaits.length = pollCount c.initSeq ∧ lutWaits.length = pollCount c.lutSeq
    ∧ ∀ k ∈ initWaits ++ lutWaits ++ [last], k < c.busyMaxPolls

/-- DISPLAY's buffer: EXPECTED_LEN bytes inside MEM, all written (41_panel_ops.md R123, R124). -/
def BufferIs (s : State) (bytes : List Byte) : Prop :=
  s.psBufLen.toNat = expectedLen s.cfg
    ∧ s.psBufBase.toNat + s.psBufLen.toNat ≤ s.cfg.memSize
    ∧ bytes.length = s.psBufLen.toNat
    ∧ ∀ k, k < s.psBufLen.toNat → Memory.read s.mem (s.psBufBase.toNat + k) = bytes[k]?

/-- The command gets past its validation to its HAL part (41_panel_ops.md R123, R125 to R129). -/
def ReachesHal (s : State) (bytes : List Byte) : Instr → Prop
  | .icConvert => False
  | .psInitialize => True
  | .psDisplay => s.psSt = .idle ∧ BufferIs s bytes
  | .psClear => s.psSt = .idle
  | .psSleep => s.psSt = .idle
  | .psTeardown => s.psSt = .idle

/-- Whether ENV answers the event: every HAL call but Delay (40_panel_primitives.md R100). -/
def isAnswered : HalEvent → Bool
  | .spiWrite _ _ => true
  | .pinWrite _ _ _ => true
  | .pinRead _ => true
  | .delay _ => false

/-- The event with the answer FAIL in place of ENV's. -/
def withFail : HalEvent → HalEvent
  | .spiWrite b _ => .spiWrite b .fail
  | .pinWrite p l _ => .pinWrite p l .fail
  | .pinRead _ => .pinRead .fail
  | .delay ms => .delay ms

/-- ENV's answer to a read of BUSY, if the event is one. -/
def busyAnswer : HalEvent → Option BusyAnswer
  | .pinRead a => some a
  | _ => none

/-- ENV's next answers are those of the events `es`, then FAIL to the event `e`, then `acks` and `reads`. -/
def FailsAfter (s : State) (es : List HalEvent) (e : HalEvent) (acks : List Ack)
    (reads : List BusyAnswer) : Prop :=
  s.acks = List.replicate (writeCount es) .ok ++ (if isWriteEvent e = true then .fail :: acks else acks)
    ∧ s.busyReads
      = es.filterMap busyAnswer ++ (if isWriteEvent e = true then reads else .fail :: reads)

/-! ### How much a command emits -/

/-- The most events a step emits: ev(s) of 41_panel_ops.md R131. -/
def stepBound (c : Params) : PanelStep → Nat
  | .cmd _ payload => 3 + payload.length
  | .delay _ => 1
  | .waitBusy => 2 * c.busyMaxPolls - 1

/-- The most HAL events a completion of a command emits (41_panel_ops.md R131); CONVERT emits none
(42_convert.md R157). -/
def eventBound (c : Params) : Instr → Nat
  | .icConvert => 0
  | .psInitialize =>
    3 + ((c.initSeq ++ c.lutSeq).map (stepBound c)).sum + (2 * c.busyMaxPolls - 1)
  | .psDisplay => (3 + expectedLen c) + 3 + (2 * c.busyMaxPolls - 1)
  | .psClear => (3 + expectedLen c) + 3 + (2 * c.busyMaxPolls - 1)
  | .psSleep => 3 + c.sleepPayload.length
  | .psTeardown => 3 + c.sleepPayload.length

/-- The last PinWrite to a pin in a list of events, if any (10_state.md R45). -/
def lastPinWrite (p : OutPin) : List HalEvent → Option (Level × Ack)
  | [] => none
  | e :: es =>
    match lastPinWrite p es with
    | some w => some w
    | none =>
      match e with
      | .pinWrite q l a => if q = p then some (l, a) else none
      | _ => none

/-- The latch of an output pin (10_state.md R45). -/
def pinLatch (p : OutPin) (s : State) : Level :=
  match p with
  | .rst => s.rstOut
  | .dc => s.dcOut

/-! ### Floyd–Steinberg over unbounded integers -/

/-- The scan's two rows of errors as functions of the column, without a width. -/
structure ErrorRows where
  cur : Nat → Int
  nxt : Nat → Int

/-- `f` with `d` added at column x. -/
def addAt (f : Nat → Int) (x : Nat) (d : Int) : Nat → Int := fun i => if i = x then f i + d else f i

/-- The four assignments at column x of 44_color_reduce_dither.md R186. -/
def exactDiffuse (dw x : Nat) (e : Int) (r : ErrorRows) : ErrorRows :=
  { cur := if x + 1 < dw then addAt r.cur (x + 1) (Int.tdiv (7 * e) 16) else r.cur
    nxt :=
      let left := if 1 ≤ x then addAt r.nxt (x - 1) (Int.tdiv (3 * e) 16) else r.nxt
      let below := addAt left x (Int.tdiv (5 * e) 16)
      if x + 1 < dw then addAt below (x + 1) (Int.tdiv (1 * e) 16) else below }

/-- fsq(v) over the integers (R187). -/
def exactLevel (n : Nat) (v : Int) : Nat :=
  if v ≤ 0 then 0 else if 255 ≤ v then n else ((n * v + 127) / 255).toNat

/-- Columns x, x+1, … of a row (R181, R186). -/
def exactRow (n dw : Nat) : Nat → List Nat → ErrorRows → List Nat × ErrorRows
  | _, [], r => ([], r)
  | x, luma :: rest, r =>
    let v : Int := luma + r.cur x
    let q := exactLevel n v
    let t := exactRow n dw (x + 1) rest (exactDiffuse dw x (v - (255 * q / n : Nat)) r)
    (q :: t.1, t.2)

/-- Rows from top to bottom, each starting with the errors the row above handed down (R186). -/
def exactRows (n dw : Nat) : List (List Nat) → (Nat → Int) → List (List Nat)
  | [], _ => []
  | row :: rest, carried =>
    let t := exactRow n dw 0 row { cur := carried, nxt := fun _ => 0 }
    t.1 :: exactRows n dw rest t.2.nxt

/-- R186's levels when the entries are unbounded integers (R188). -/
def exactFloydSteinberg (n dw : Nat) (p : List (List Nat)) : List (List Nat) :=
  exactRows n dw p fun _ => 0

end Sys2Proof.Safety
end

