-- ==== Sys2Proof/Certificates/Slice0/Obligations.lean ====
section
/-! DEFINITION. The statements for the provers, in the order of OBLIGATIONS.json. A statement that rests on a
choice of the model names its log entry. -/

open Sys2Proof Sys2Proof.Machine Sys2Proof.Safety

/-! ### Command words -/

/-- A few words of 95_test_vectors.md section 3.1, legal and illegal, decode as listed there (30_encoding.md R81 to
R83). -/
def Obligations.ListedWordsDecode : Prop :=
  decode .ic 0x00000001 = .ok .icConvert
  ∧ decode .ps 0x00000001 = .ok .psInitialize
  ∧ decode .ps 0x00000002 = .ok .psDisplay
  ∧ decode .ps 0x00000003 = .ok .psClear
  ∧ decode .ps 0x00000004 = .ok .psSleep
  ∧ decode .ps 0x00000005 = .ok .psTeardown
  ∧ decode .ic 0x00000000 = .error .reservedOpcode
  ∧ decode .ic 0x80000001 = .error .reservedBits
  ∧ decode .ps 0x00000006 = .error .reservedOpcode
  ∧ decode .ps 0x00010002 = .error .reservedBits

/-- Of all 2^32 words at either engine, exactly the word of a command decodes to that command
(30_encoding.md R81, R82). -/
def Obligations.DecodeInvertsEncode : Prop :=
  ∀ (e : Engine) (w : Word) (i : Instr), decode e w = .ok i ↔ encode i = (e, w)

/-- Every word outside an engine's map completes with ILLEGAL_COMMAND and changes nothing but the engine's status
and PEND: no word is a hint or a no-op (30_encoding.md R83, R84; 60_exceptions.md R211). -/
def Obligations.ReservedWordsAreIllegal : Prop :=
  (∀ (s : State) (rest : List Turn), s.agenda = .ic :: rest → s.icPend = .pending →
    s.icCmdl.toNat ≠ 1 →
    step s = .next { s with
      agenda := rest, icDone := true, icErr := .illegalCommand, icCause := 1, icPend := .none })
  ∧ (∀ (s : State) (rest : List Turn), s.agenda = .ps :: rest → s.psPend = .pending →
    (s.psCmdl.toNat = 0 ∨ 6 ≤ s.psCmdl.toNat) →
    step s = .next { s with
      agenda := rest, psDone := true, psErr := .illegalCommand, psStage := .validate,
      psPend := .none })

/-! ### Steps -/

/-- What a step does with each turn. An engine's turn with a pending command performs the command its latched word
decodes to, on the state with that turn taken off the agenda; so does a step of an exhausted agenda when that engine
alone is pending (60_exceptions.md R210). A host's turn is its transaction, in the order of the agenda (00_scope.md R6;
20_memory.md R71; 30_encoding.md R87). The model's choices: an engine's turn with nothing pending passes (log 17);
an exhausted agenda gives a pending engine its turn, either one when both are pending, and with nothing pending the
machine waits (logs 1, 2). -/
def Obligations.StepRunsDecodedCommand : Prop :=
  (∀ (s : State) (i : Instr), i.wf = true →
    (∀ rest, s.agenda = .ic :: rest → s.icPend = .pending → decode .ic s.icCmdl = .ok i →
      step s = exec i { s with agenda := rest })
    ∧ (∀ rest, s.agenda = .ps :: rest → s.psPend = .pending → decode .ps s.psCmdl = .ok i →
      step s = exec i { s with agenda := rest })
    ∧ (s.agenda = [] → s.icPend = .pending → s.psPend = .none → decode .ic s.icCmdl = .ok i →
      step s = exec i s)
    ∧ (s.agenda = [] → s.icPend = .none → s.psPend = .pending → decode .ps s.psCmdl = .ok i →
      step s = exec i s))
  ∧ (∀ (s : State) (rest : List Turn),
    (∀ x, s.agenda = .host x :: rest → step s = .next (hostStep x { s with agenda := rest }))
    ∧ (s.agenda = .ic :: rest → s.icPend = .none → step s = .next { s with agenda := rest })
    ∧ (s.agenda = .ps :: rest → s.psPend = .none → step s = .next { s with agenda := rest }))
  ∧ (∀ s : State, s.agenda = [] →
    (s.icPend = .none → s.psPend = .none → step s = .next s)
    ∧ (s.icPend = .pending → s.psPend = .none → step s = step { s with agenda := [.ic] })
    ∧ (s.icPend = .none → s.psPend = .pending → step s = step { s with agenda := [.ps] })
    ∧ (s.icPend = .pending → s.psPend = .pending →
      step s = step { s with agenda := [.ic], draws := s.draws + 1 }
      ∨ step s = step { s with agenda := [.ps], draws := s.draws + 1 }))

/-- No step stops: errors are reported in STATUS and model-level faults are recorded in FAULTS
(60_exceptions.md R211, R216; log 5). -/
def Obligations.EveryStepHasANextState : Prop :=
  ∀ s : State, ∃ t, step s = .next t

/-- From every state, once the agenda's turns and two more have passed, nothing is pending: a completion step that
stays enabled is taken (60_exceptions.md R210; logs 1, 2). -/
def Obligations.PendingCommandsComplete : Prop :=
  ∀ s : State, ∃ t : State, Host.Core.run Sys2Proof.core (s.agenda.length + 2) s = .next t
    ∧ t.agenda = [] ∧ t.icPend = .none ∧ t.psPend = .none

/-- The state after reset, register by register as a read returns it, the hidden state whose value is specified, and
the reserved fields, which read 0 in every state (70_reset_and_hazards.md R231). -/
def Obligations.ResetState : Prop :=
  (∀ r ∈ [Reg.icCmd, .icStatus, .icSrcDim, .icSrcFmt, .icSrcBase, .icDstDim, .icDstBase, .icDstCap,
      .icOutLen, .psCmd, .psStatus, .psBufBase, .psBufLen], regValue r State.reset = 0)
  ∧ regValue .icMode State.reset = 0x00000010
  ∧ regValue .psExpLen State.reset = BitVec.ofNat 32 (expectedLen State.reset.cfg)
  ∧ regValue .psPanelDim State.reset
      = BitVec.ofNat 16 State.reset.cfg.panelH ++ BitVec.ofNat 16 State.reset.cfg.panelW
  ∧ regValue .psPanelMode State.reset = (0 : BitVec 28) ++ colorCode State.reset.cfg.panelMode
  ∧ State.reset.icPend = .none ∧ State.reset.psPend = .none
  ∧ State.reset.psSt = .uninitialized
  ∧ State.reset.trace = [] ∧ State.reset.faults = []
  ∧ (∀ a, Memory.read State.reset.mem a = none)
  ∧ ∀ s : State,
    (regValue .icSrcFmt s).toNat < 4 ∧ (regValue .icMode s).toNat < 128
    ∧ regValue .icStatus s &&& 0xFF0F00FC = 0 ∧ regValue .psStatus s &&& 0xFF0800FC = 0

/-- The state after reset meets the invariant. The latches, line buffers and pin latches are unspecified there;
the line buffers' length is the only thing said of them (logs 4, 7). -/
def Obligations.ResetMeetsInvariant : Prop := Inv State.reset

/-- Every step keeps the invariant, from every state that meets it. -/
def Obligations.StepKeepsInvariant : Prop :=
  ∀ s t : State, Inv s → step s = .next t → Inv t

/-- No step changes the parameters (10_state.md R49; log 4). -/
def Obligations.StepKeepsParameters : Prop :=
  ∀ s t : State, step s = .next t → t.cfg = s.cfg

/-- FAULTS and TRACE are empty at reset, and every step only appends to them (10_state.md R46, R47). -/
def Obligations.TraceAndFaultsOnlyGrow : Prop :=
  State.reset.faults = [] ∧ State.reset.trace = []
  ∧ ∀ s t : State, step s = .next t →
    (∃ fs, t.faults = s.faults ++ fs) ∧ (∃ es, t.trace = s.trace ++ es)

/-! ### CONVERT -/

/-- The first check of R152 that fails is the error reported, with its cause, and nothing else changes but
IC_OUT_LEN, which becomes 0 (42_convert.md R152, R154). -/
def Obligations.ConvertReportsFirstFailedCheck : Prop :=
  ∀ (s : State) (k : Nat) (e : Err) (cause : BitVec 4),
    (convertCheckList s)[k]? = some (true, e, cause) →
    (∀ c ∈ (convertCheckList s).take k, c.1 = false) →
    exec .icConvert s = .next { s with
      icDone := true, icErr := e, icCause := cause, icOutLen := 0, icPend := .none }

/-- A CONVERT that passes every check but finds a source byte unwritten records the lowest such address and sets
IC_PEND to NONE; nothing else changes (20_memory.md R61, 42_convert.md R153, 60_exceptions.md R217). -/
def Obligations.ConvertStopsAtUnwrittenSource : Prop :=
  ∀ (s : State) (a : Nat),
    (∀ c ∈ convertCheckList s, c.1 = false) →
    s.icSrcBase.toNat ≤ a → a < s.icSrcBase.toNat + sourceBytes s →
    Memory.read s.mem a = none →
    (∀ x, s.icSrcBase.toNat ≤ x → x < a → Memory.read s.mem x ≠ none) →
    exec .icConvert s = .next { s with
      faults := s.faults ++ [.unwrittenRead a], icPend := .none }

/-- A CONVERT that passes every check on written source bytes completes: exactly LEN bytes are written, the packed
levels; every byte outside [DST_BASE, DST_BASE + LEN) and every register but IC_OUT_LEN and IC_STATUS is as
before (42_convert.md R151, R154, R157, R158). -/
def Obligations.ConvertCompletes : Prop :=
  ∀ (s : State) (m : ColorMode) (src : List Byte), ConvertReady s m src →
    ∃ t : State, exec .icConvert s = .next t
      ∧ ConvertFrame s t ∧ t.faults = s.faults
      ∧ t.icDone = true ∧ t.icErr = .none ∧ t.icCause = 0 ∧ t.icPend = .none
      ∧ t.icOutLen.toNat = targetLen s
      ∧ (pack m (targetWidth s) (convertLevels m src s).1).length = targetLen s
      ∧ (∀ k, k < targetLen s →
          Memory.read t.mem (s.icDstBase.toNat + k)
            = (pack m (targetWidth s) (convertLevels m src s).1)[k]?)
      ∧ (∀ a, (a < s.icDstBase.toNat ∨ s.icDstBase.toNat + targetLen s ≤ a) →
          Memory.read t.mem a = Memory.read s.mem a)

/-- Where a successful CONVERT puts each pixel's level, and that every pad bit is 1, read from MEM
(45_bitpack.md R201 to R203). -/
def Obligations.ConvertPixelsInMemory : Prop :=
  ∀ (s t : State) (m : ColorMode) (src : List Byte), ConvertReady s m src →
    exec .icConvert s = .next t →
    ∀ y, y < targetHeight s →
      (∀ x, x < targetWidth s →
        ∃ b : Byte,
          Memory.read t.mem (s.icDstBase.toNat + y * targetRow s + x * targetBits s / 8) = some b
          ∧ b.toNat / 2 ^ (8 - targetBits s - x * targetBits s % 8) % 2 ^ targetBits s
              = (((convertLevels m src s).1.getD y []).getD x 0))
      ∧ (∀ j, j < 8 * targetRow s - targetWidth s * targetBits s →
        ∃ b : Byte,
          Memory.read t.mem (s.icDstBase.toNat + (y + 1) * targetRow s - 1) = some b
          ∧ b.getLsbD j = true)

/-- The level of every pixel of a ready CONVERT under NONE, ORDERED and FLOYD_STEINBERG, as R184, R185 and R186 give
it from the luma plane of R173 or R175, all on the numbers in the registers: DITHER is bits 5:4 of IC_MODE
(44_color_reduce_dither.md R182, R183; 10_state.md R26, R29, R30). -/
def Obligations.ConvertLevelsFollowDither : Prop :=
  ∀ (s : State) (m : ColorMode) (src : List Byte) (x y : Nat), ConvertReady s m src →
    let dw := targetWidth s
    let dh := targetHeight s
    let n := if s.icMode.toNat % 16 = 0 then 1 else 3
    let dither := s.icMode.toNat / 16 % 4
    x < dw → y < dh →
    ((convertLevels m src s).1.getD y []).getD x 0 =
      if dither = 0 then min n ((n * lumaAt s src x y + 127) / 255)
      else if dither = 1 then levelOrdered n x y (lumaAt s src x y)
      else ((exactFloydSteinberg n dw ((List.range dh).map fun j =>
        (List.range dw).map fun i => lumaAt s src i j)).getD y []).getD x 0

/-- A fault-free CONVERT, whatever its outcome, changes nothing outside MEM[DST_BASE .. DST_BASE + LEN - 1],
IC_OUT_LEN, IC_STATUS, IC_PEND, FS_CUR and FS_NXT, and the line buffers only under FLOYD_STEINBERG
(42_convert.md R157; 10_state.md R44). -/
def Obligations.ConvertFrameHolds : Prop :=
  ∀ (s t : State), exec .icConvert s = .next t → t.faults = s.faults →
    ConvertFrame s t
    ∧ (s.icMode.toNat / 16 % 4 ≠ 2 → t.fsCur = s.fsCur ∧ t.fsNxt = s.fsNxt)
    ∧ ∀ a, (s.icMode.toNat % 16 < 2 →
        a < s.icDstBase.toNat ∨ s.icDstBase.toNat + targetLen s ≤ a) →
      Memory.read t.mem a = Memory.read s.mem a

/-- Two successful CONVERTs with equal SW, SH, FMT, DW, DH, CMODE, DITHER and FIT and equal source bytes write
equal bytes and the same IC_OUT_LEN, whatever the addresses, the line buffers and every other part of the state
(42_convert.md R156). -/
def Obligations.ConvertIsDeterministic : Prop :=
  ∀ (s₁ s₂ t₁ t₂ : State) (m : ColorMode) (src : List Byte),
    ConvertReady s₁ m src → ConvertReady s₂ m src →
    s₁.icSrcDim = s₂.icSrcDim → s₁.icSrcFmt.toNat % 4 = s₂.icSrcFmt.toNat % 4 →
    s₁.icDstDim = s₂.icDstDim → s₁.icMode.toNat % 128 = s₂.icMode.toNat % 128 →
    exec .icConvert s₁ = .next t₁ → exec .icConvert s₂ = .next t₂ →
    t₁.icOutLen = t₂.icOutLen
    ∧ ∀ k, k < t₁.icOutLen.toNat →
      Memory.read t₁.mem (s₁.icDstBase.toNat + k) = Memory.read t₂.mem (s₂.icDstBase.toNat + k)

/-- A CONVERT whose source pixels all have luma 255, with the panel's width, height and mode, writes the buffer
CLEAR sends, under every DITHER and FIT (42_convert.md R159). -/
def Obligations.AllWhiteSourceEqualsClear : Prop :=
  ∀ (s t : State) (m : ColorMode) (src : List Byte), ConvertReady s m src →
    m = s.cfg.panelMode → targetWidth s = s.cfg.panelW → targetHeight s = s.cfg.panelH →
    (∀ sx sy, sx < s.icSrcDim.toNat % 65536 → sy < s.icSrcDim.toNat / 65536 →
      sourceLuma s src sx sy = 255) →
    exec .icConvert s = .next t →
    readBytes t.mem s.icDstBase.toNat (expectedLen s.cfg)
        = .ok (List.replicate (expectedLen s.cfg) (0xFF : Byte))
      ∧ List.replicate (expectedLen s.cfg) (0xFF : Byte) = whiteBuffer s.cfg

/-! ### The stages of CONVERT -/

/-- Luma of a pixel: the formula on the bytes R, G, B at increasing addresses, or the L8 byte; gray is kept, and
the result is at most 255 (43_resize.md R171). -/
def Obligations.LumaOfPixel : Prop :=
  (∀ (src : List Byte) (sw sx sy : Nat) (r g b : Byte),
    src[3 * (sy * sw + sx)]? = some r → src[3 * (sy * sw + sx) + 1]? = some g →
    src[3 * (sy * sw + sx) + 2]? = some b →
    srcLuma 0 src sw sx sy = (77 * r.toNat + 150 * g.toNat + 29 * b.toNat) / 256)
  ∧ (∀ (src : List Byte) (sw sx sy : Nat) (v : Byte), src[sy * sw + sx]? = some v →
    srcLuma 1 src sw sx sy = v.toNat)
  ∧ (∀ v, lumaRgb v v v = v)
  ∧ (∀ r g b, r ≤ 255 → g ≤ 255 → b ≤ 255 → lumaRgb r g b ≤ 255)

/-- Every source index that STRETCH and LETTERBOX compute is in range, and the box lies inside the target
(43_resize.md R175, R176). -/
def Obligations.SampledIndicesInRange : Prop :=
  ∀ sw sh dw dh : Nat, 1 ≤ sw → 1 ≤ sh → 1 ≤ dw → 1 ≤ dh →
    (∀ x, x < dw → sampleIndex sw dw x < sw) ∧ (∀ y, y < dh → sampleIndex sh dh y < sh)
    ∧ 1 ≤ (letterboxBox sw sh dw dh).w ∧ 1 ≤ (letterboxBox sw sh dw dh).h
    ∧ (letterboxBox sw sh dw dh).ox + (letterboxBox sw sh dw dh).w ≤ dw
    ∧ (letterboxBox sw sh dw dh).oy + (letterboxBox sw sh dw dh).h ≤ dh
    ∧ ∀ x y, inBox (letterboxBox sw sh dw dh) x y = true →
      sampleIndex sw (letterboxBox sw sh dw dh).w (x - (letterboxBox sw sh dw dh).ox) < sw
      ∧ sampleIndex sh (letterboxBox sw sh dw dh).h (y - (letterboxBox sw sh dw dh).oy) < sh

/-- The resized plane has exactly DH rows of DW pixels (43_resize.md R178). -/
def Obligations.ResizedPlaneShape : Prop :=
  ∀ (fmt : BitVec 2) (src : List Byte) (sw sh dw dh : Nat) (fit : BitVec 1),
    (resize fmt src sw sh dw dh fit).length = dh
    ∧ ∀ row ∈ resize fmt src sw sh dw dh fit, row.length = dw

/-- The pixel STRETCH and LETTERBOX sample for each target pixel, in R173's and R175's numbers: the box's size and
place, the white fill, an odd margin after the image. When the aspect ratios are equal, LETTERBOX equals STRETCH; when
the sizes are equal, STRETCH is the source's own luma (43_resize.md R173, R174, R175). -/
def Obligations.ResizeFollowsFit : Prop :=
  ∀ (fmt : BitVec 2) (src : List Byte) (sw sh dw dh : Nat),
    1 ≤ sw → 1 ≤ sh → 1 ≤ dw → 1 ≤ dh →
    let w2 := if dw * sh ≤ dh * sw then dw else max 1 (sw * dh / sh)
    let h2 := if dw * sh ≤ dh * sw then max 1 (sh * dw / sw) else dh
    let ox := (dw - w2) / 2
    let oy := (dh - h2) / 2
    (∀ x y, x < dw → y < dh →
      ((resize fmt src sw sh dw dh 0).getD y []).getD x 0
          = srcLuma fmt src sw (x * sw / dw) (y * sh / dh)
      ∧ ((resize fmt src sw sh dw dh 1).getD y []).getD x 0
          = if ox ≤ x ∧ x < ox + w2 ∧ oy ≤ y ∧ y < oy + h2 then
              srcLuma fmt src sw ((x - ox) * sw / w2) ((y - oy) * sh / h2)
            else 255)
    ∧ (dw = ox + w2 + ox ∨ dw = ox + w2 + (ox + 1))
    ∧ (dh = oy + h2 + oy ∨ dh = oy + h2 + (oy + 1))
    ∧ (dw * sh = dh * sw → resize fmt src sw sh dw dh 1 = resize fmt src sw sh dw dh 0)
    ∧ (sw = dw → sh = dh → ∀ x y, x < dw → y < dh →
        ((resize fmt src sw sh dw dh 0).getD y []).getD x 0 = srcLuma fmt src sw x y)

/-- DITHER = NONE: the formula, the thresholds of both modes, the ends of the range, a minimum that never binds, and
the level nearest in luma with never a tie (44_color_reduce_dither.md R184). -/
def Obligations.NoneRoundsToNearestLevel : Prop :=
  (∀ n luma, levelNone n luma = min n ((n * luma + 127) / 255))
  ∧ (∀ luma, luma ≤ 255 → (levelNone 1 luma = 1 ↔ 128 ≤ luma))
  ∧ (∀ luma, luma ≤ 255 → levelNone 3 luma =
      if luma ≤ 42 then 0 else if luma ≤ 127 then 1 else if luma ≤ 212 then 2 else 3)
  ∧ (∀ m : ColorMode, levelNone (maxLevel m) 0 = 0 ∧ levelNone (maxLevel m) 255 = maxLevel m)
  ∧ (∀ (m : ColorMode) (luma : Nat), luma ≤ 255 →
      (maxLevel m * luma + 127) / 255 ≤ maxLevel m
      ∧ ∀ r, r ≤ maxLevel m → r ≠ levelNone (maxLevel m) luma →
        ((luma : Int) - (255 * levelNone (maxLevel m) luma / maxLevel m : Nat)).natAbs
          < ((luma : Int) - (255 * r / maxLevel m : Nat)).natAbs)

/-- DITHER = ORDERED: the formula with the printed matrix, the BlackWhite threshold, the ends of the range, the
period of 4, and the checkerboard a flat 128 gives (44_color_reduce_dither.md R185). -/
def Obligations.OrderedFollowsBayerMatrix : Prop :=
  ∀ x y luma : Nat, luma ≤ 255 →
    let m := (([[0, 8, 2, 10], [12, 4, 14, 6], [3, 11, 1, 9], [15, 7, 13, 5]] : List (List Nat)).getD
      (y % 4) []).getD (x % 4) 0
    (∀ n, levelOrdered n x y luma = min n ((n * luma + (16 * m + 8)) / 255))
    ∧ (levelOrdered 1 x y luma = 1 ↔ 247 - 16 * m ≤ luma)
    ∧ (∀ c : ColorMode, levelOrdered (maxLevel c) x y 0 = 0
        ∧ levelOrdered (maxLevel c) x y 255 = maxLevel c
        ∧ (maxLevel c * luma + (16 * m + 8)) / 255 ≤ maxLevel c)
    ∧ (∀ n, levelOrdered n (x + 4) y luma = levelOrdered n x y luma
        ∧ levelOrdered n x (y + 4) luma = levelOrdered n x y luma)
    ∧ (levelOrdered 1 x y 128 = 1 ↔ 8 ≤ m) ∧ (8 ≤ m ↔ (x + y) % 2 = 1)

/-- The ends of the range are fixed points under every DITHER (44_color_reduce_dither.md R189). -/
def Obligations.DitherKeepsBlackAndWhite : Prop :=
  ∀ (m : ColorMode) (dw dh : Nat) (dither : BitVec 2) (b : LineBuffers), dither ≠ 3 →
    (reduce (maxLevel m) dw dither (List.replicate dh (List.replicate dw 255)) b).1
        = List.replicate dh (List.replicate dw (maxLevel m))
    ∧ (reduce (maxLevel m) dw dither (List.replicate dh (List.replicate dw 0)) b).1
        = List.replicate dh (List.replicate dw 0)

/-- Floyd–Steinberg in 16-bit line buffers gives the levels of the scan over unbounded integers, whatever the
buffers held before, and leaves every entry of columns 0 .. DW-1 in -127 .. 127
(44_color_reduce_dither.md R188). -/
def Obligations.FloydSteinbergFitsSixteenBits : Prop :=
  ∀ (m : ColorMode) (dw : Nat) (p : List (List Nat)) (b : LineBuffers), p ≠ [] →
    (∀ row ∈ p, row.length = dw ∧ ∀ luma ∈ row, luma ≤ 255) →
    (floydSteinberg (maxLevel m) dw p b).1 = exactFloydSteinberg (maxLevel m) dw p
    ∧ ∀ x, x < dw →
      (-127 ≤ entryAt (floydSteinberg (maxLevel m) dw p b).2.cur x
        ∧ entryAt (floydSteinberg (maxLevel m) dw p b).2.cur x ≤ 127)
      ∧ (-127 ≤ entryAt (floydSteinberg (maxLevel m) dw p b).2.nxt x
        ∧ entryAt (floydSteinberg (maxLevel m) dw p b).2.nxt x ≤ 127)

/-- Unpacking a packed buffer gives back every level (45_bitpack.md R205). -/
def Obligations.UnpackInvertsPack : Prop :=
  ∀ (m : ColorMode) (dw : Nat) (q : List (List Nat)),
    (∀ row ∈ q, row.length = dw ∧ ∀ level ∈ row, level ≤ maxLevel m) →
    ∀ x y, x < dw → y < q.length →
      unpackPixel m dw (pack m dw q) x y = (q.getD y []).getD x 0

/-- Pad bits are 1: in the last byte of every packed row, the low-order bits that no pixel covers; and a byte whose
pixels are all white is 0xFF, whether or not it holds padding (45_bitpack.md R203). -/
def Obligations.PadBitsAreOne : Prop :=
  ∀ (m : ColorMode) (dw : Nat) (row : List Nat), 1 ≤ dw → row.length = dw →
    (∀ level ∈ row, level ≤ maxLevel m) →
    (∀ j, j < 8 * stride dw m - dw * bpp m →
      ∃ b, (packRow m dw row)[stride dw m - 1]? = some b ∧ b.getLsbD j = true)
    ∧ (∀ k, k < stride dw m →
      (∀ x, x < dw → x * bpp m / 8 = k → row.getD x 0 = maxLevel m) →
      (packRow m dw row)[k]? = some 0xFF)

/-! ### The panel commands -/

/-- INITIALIZE with every write answered OK and every busy poll ready within its bound: the whole next state
(41_panel_ops.md R125; 40_panel_primitives.md R103 to R109). `waits` and `last` count the reads that are not
ready in each poll. -/
def Obligations.InitializeCompletes : Prop :=
  ∀ (s : State) (waits : List Nat) (last : Nat) (acks : List Ack) (reads : List BusyAnswer),
    waits.length = pollCount (s.cfg.initSeq ++ s.cfg.lutSeq) →
    (∀ k ∈ waits ++ [last], k < s.cfg.busyMaxPolls) →
    s.acks = List.replicate (writeCount (initializeEvents s.cfg waits last)) .ok ++ acks →
    s.busyReads = busyAnswers s.cfg (waits ++ [last]) ++ reads →
    exec .psInitialize s = .next { s with
      psSt := .idle, psDone := true, psErr := .none, psStage := .none, psPend := .none,
      trace := s.trace ++ initializeEvents s.cfg waits last,
      rstOut := ~~~ s.cfg.rstActiveLevel,
      dcOut := ((lastPinWrite .dc (initializeEvents s.cfg waits last)).map (·.1)).getD s.dcOut,
      acks := acks, busyReads := reads }

/-- DISPLAY from IDLE of a written buffer of EXPECTED_LEN bytes inside MEM, every write answered OK and the panel
ready within the bound: the whole next state (41_panel_ops.md R126; 40_panel_primitives.md R110, R111). -/
def Obligations.DisplayCompletes : Prop :=
  ∀ (s : State) (bytes : List Byte) (wait : Nat) (acks : List Ack) (reads : List BusyAnswer),
    s.psSt = .idle → BufferIs s bytes →
    wait < s.cfg.busyMaxPolls →
    s.acks = List.replicate (writeCount (transferEvents s.cfg bytes wait)) .ok ++ acks →
    s.busyReads = busyAnswers s.cfg [wait] ++ reads →
    exec .psDisplay s = .next { s with
      psSt := .idle, psDone := true, psErr := .none, psStage := .none, psPend := .none,
      trace := s.trace ++ transferEvents s.cfg bytes wait,
      dcOut := ~~~ s.cfg.dcCmdLevel, acks := acks, busyReads := reads }

/-- CLEAR from IDLE, every write answered OK and the panel ready within the bound: EXPECTED_LEN bytes 0xFF are sent,
whatever MEM holds (41_panel_ops.md R122, R127). -/
def Obligations.ClearCompletes : Prop :=
  ∀ (s : State) (wait : Nat) (acks : List Ack) (reads : List BusyAnswer),
    s.psSt = .idle → wait < s.cfg.busyMaxPolls →
    s.acks = List.replicate (writeCount (transferEvents s.cfg
      (List.replicate (expectedLen s.cfg) 0xFF) wait)) .ok ++ acks →
    s.busyReads = busyAnswers s.cfg [wait] ++ reads →
    exec .psClear s = .next { s with
      psSt := .idle, psDone := true, psErr := .none, psStage := .none, psPend := .none,
      trace := s.trace ++ transferEvents s.cfg (List.replicate (expectedLen s.cfg) 0xFF) wait,
      dcOut := ~~~ s.cfg.dcCmdLevel, acks := acks, busyReads := reads }

/-- SLEEP from IDLE, every write answered OK (41_panel_ops.md R128; 40_panel_primitives.md R112). -/
def Obligations.SleepCompletes : Prop :=
  ∀ (s : State) (acks : List Ack), s.psSt = .idle →
    s.acks = List.replicate (writeCount (sleepEvents s.cfg)) .ok ++ acks →
    exec .psSleep s = .next { s with
      psSt := .asleep, psDone := true, psErr := .none, psStage := .none, psPend := .none,
      trace := s.trace ++ sleepEvents s.cfg, dcOut := ~~~ s.cfg.dcCmdLevel, acks := acks }

/-- TEARDOWN: from IDLE it sends sleep_seq, from every other state nothing; it always ends UNINITIALIZED, and its
only error is TRANSPORT_ERROR at stage SLEEP, only from IDLE (41_panel_ops.md R129). -/
def Obligations.TeardownCompletes : Prop :=
  encode .psTeardown = (.ps, 0x00000005)
  ∧ (∀ (s : State) (acks : List Ack), s.psSt = .idle →
    s.acks = List.replicate (writeCount (sleepEvents s.cfg)) .ok ++ acks →
    exec .psTeardown s = .next { s with
      psSt := .uninitialized, psDone := true, psErr := .none, psStage := .none, psPend := .none,
      trace := s.trace ++ sleepEvents s.cfg, dcOut := ~~~ s.cfg.dcCmdLevel, acks := acks })
  ∧ (∀ s : State, s.psSt ≠ .idle →
    exec .psTeardown s = .next { s with
      psSt := .uninitialized, psDone := true, psErr := .none, psStage := .none, psPend := .none })
  ∧ (∀ s t : State, exec .psTeardown s = .next t →
    t.psSt = .uninitialized ∧ t.psDone = true ∧ t.psPend = .none
    ∧ ((t.psErr = .none ∧ t.psStage = .none)
      ∨ (s.psSt = .idle ∧ t.psErr = .transportError ∧ t.psStage = .sleep)))

/-- CLEAR ends as a DISPLAY of a buffer of EXPECTED_LEN bytes 0xFF does, for every sequence of ENV's answers, good
or bad (41_panel_ops.md R127). -/
def Obligations.ClearEqualsDisplayOfWhite : Prop :=
  ∀ s : State, s.psSt = .idle → BufferIs s (List.replicate (expectedLen s.cfg) 0xFF) →
    exec .psClear s = exec .psDisplay s

/-- DISPLAY, CLEAR and SLEEP outside IDLE are refused with INVALID_STATE at stage VALIDATE, and only PS_STATUS and
PS_PEND change (41_panel_ops.md R123, R127, R128, R130, R132). -/
def Obligations.WrongStateIsRefused : Prop :=
  ∀ (s : State) (i : Instr), i ∈ [Instr.psDisplay, .psClear, .psSleep] → s.psSt ≠ .idle →
    exec i s = .next { s with
      psDone := true, psErr := .invalidState, psStage := .validate, psPend := .none }

/-- DISPLAY's checks in their order, each with no HAL event and no other change, whatever MEM holds
(41_panel_ops.md R123). -/
def Obligations.DisplayChecksInOrder : Prop :=
  ∀ s : State,
    (s.psSt ≠ .idle → exec .psDisplay s = .next { s with
      psDone := true, psErr := .invalidState, psStage := .validate, psPend := .none })
    ∧ (s.psSt = .idle → s.psBufLen.toNat ≠ expectedLen s.cfg → exec .psDisplay s = .next { s with
      psDone := true, psErr := .bufferSizeMismatch, psStage := .validate, psPend := .none })
    ∧ (s.psSt = .idle → s.psBufLen.toNat = expectedLen s.cfg →
      s.cfg.memSize < s.psBufBase.toNat + s.psBufLen.toNat → exec .psDisplay s = .next { s with
        psDone := true, psErr := .bufferSizeMismatch, psStage := .validate, psPend := .none })

/-- A DISPLAY that passes its checks but finds a buffer byte unwritten records the lowest such address and sets
PS_PEND to NONE, with no HAL event and no other change (20_memory.md R61, 41_panel_ops.md R124,
60_exceptions.md R217). -/
def Obligations.DisplayStopsAtUnwrittenByte : Prop :=
  ∀ (s : State) (a : Nat), s.psSt = .idle → s.psBufLen.toNat = expectedLen s.cfg →
    s.psBufBase.toNat + s.psBufLen.toNat ≤ s.cfg.memSize → InBufferRegion s a →
    Memory.read s.mem a = none →
    (∀ x, s.psBufBase.toNat ≤ x → x < a → Memory.read s.mem x ≠ none) →
    exec .psDisplay s = .next { s with
      faults := s.faults ++ [.unwrittenRead a], psPend := .none }

/-- A fault-free panel command, whatever its outcome, leaves every byte of MEM, every register of R22 the host can
write, IC_OUT_LEN and all of the image_converter's state as they were (41_panel_ops.md R124; 60_exceptions.md
R226). -/
def Obligations.PanelCommandFrame : Prop :=
  ∀ (s t : State) (i : Instr), i ∈ panelCommands → exec i s = .next t → t.faults = s.faults →
    PanelFrame s t ∧ ∀ a, Memory.read t.mem a = Memory.read s.mem a

/-- PS_ST and TRACE after every outcome of a panel command and of a reserved word: validation errors leave both,
HAL errors end FAULTED, or UNINITIALIZED under TEARDOWN, success ends in the command's state, and TRACE is never
cut (41_panel_ops.md R130, R132). -/
def Obligations.PanelStateAfterCommand : Prop :=
  (∀ (s t : State) (i : Instr), i ∈ panelCommands → exec i s = .next t → t.faults = s.faults →
    t.psDone = true ∧ t.psPend = .none
    ∧ (∃ es, t.trace = s.trace ++ es)
    ∧ (t.psErr = .none → t.psSt =
        if i = .psSleep then .asleep else if i = .psTeardown then .uninitialized else .idle)
    ∧ (t.psErr ∈ [Err.illegalCommand, .invalidState, .bufferSizeMismatch] →
        t.psSt = s.psSt ∧ t.trace = s.trace)
    ∧ (t.psErr ∈ [Err.transportError, .initTimeout, .busyTimeout] →
        t.psSt = if i = .psTeardown then .uninitialized else .faulted)
    ∧ t.psErr ∈ [Err.none, .invalidState, .bufferSizeMismatch, .transportError, .initTimeout,
        .busyTimeout])
  ∧ (∀ (s t : State) (x : Illegal), decode .ps s.psCmdl = .error x → completePs s = .next t →
    t.psErr = .illegalCommand ∧ t.psSt = s.psSt ∧ t.trace = s.trace)

/-- The number of HAL events a completion emits is at most the bound of R131; a reserved word emits none
(41_panel_ops.md R131). -/
def Obligations.PanelEventsAreBounded : Prop :=
  (∀ (s t : State) (i : Instr), s.cfg.wf = true → i ∈ panelCommands → exec i s = .next t →
    t.trace.length ≤ s.trace.length + eventBound s.cfg i)
  ∧ (∀ (s t : State) (x : Illegal), decode .ps s.psCmdl = .error x → completePs s = .next t →
    t.trace.length = s.trace.length)

/-- In the events a panel command emits, a FAIL answer is the last event and gives TRANSPORT_ERROR, and a fault-free
command that ends in TRANSPORT_ERROR has a FAIL answer as its last event. When the call that fails is event k of the
command, every answer before it being good, the command ends there with the k events before it, at the stage that
event belongs to, FAULTED or, under TEARDOWN, UNINITIALIZED (40_panel_primitives.md R100, R102 to R112;
41_panel_ops.md R132; 60_exceptions.md R218). -/
def Obligations.FailedAnswerEndsCommand : Prop :=
  (∀ (s t : State) (i : Instr) (es : List HalEvent), i ∈ panelCommands → exec i s = .next t →
    t.trace = s.trace ++ es → t.faults = s.faults →
    (∀ k e, es[k]? = some e → failed e = true → k + 1 = es.length ∧ t.psErr = .transportError)
    ∧ (t.psErr = .transportError → ∃ e, es[es.length - 1]? = some e ∧ failed e = true))
  ∧ (∀ (s : State) (i : Instr) (bytes : List Byte) (initWaits lutWaits : List Nat) (last k : Nat)
      (stage : Stage) (e : HalEvent) (acks : List Ack) (reads : List BusyAnswer),
    ReachesHal s bytes i → WaitsFit s.cfg initWaits lutWaits last →
    (stagedEvents s.cfg bytes initWaits lutWaits last i)[k]? = some (stage, e) →
    isAnswered e = true →
    let before := ((stagedEvents s.cfg bytes initWaits lutWaits last i).take k).map (·.2)
    FailsAfter s before e acks reads →
    ∃ t : State, exec i s = .next t ∧ PanelFrame s t
      ∧ t.trace = s.trace ++ before ++ [withFail e] ∧ t.acks = acks ∧ t.busyReads = reads
      ∧ t.psErr = .transportError ∧ t.psStage = stage
      ∧ t.psSt = (if i = .psTeardown then .uninitialized else .faulted)
      ∧ t.psDone = true ∧ t.psPend = .none)

/-- busy_poll: the ready level at read k + 1, BUSY_MAX_POLLS reads that are not ready, and a FAIL at read j + 1
(40_panel_primitives.md R105). -/
def Obligations.BusyPollIsBounded : Prop :=
  ∀ (s : State) (e : Err) (stage : Stage) (reads : List BusyAnswer),
    (∀ k, k < s.cfg.busyMaxPolls →
      s.busyReads = busyAnswers s.cfg [k] ++ reads →
      busyPoll e stage s
        = .done { s with trace := s.trace ++ pollEvents s.cfg k, busyReads := reads })
    ∧ (1 ≤ s.cfg.busyMaxPolls →
      s.busyReads
        = List.replicate s.cfg.busyMaxPolls (.level (~~~ s.cfg.busyReadyLevel)) ++ reads →
      busyPoll e stage s
        = .raised e stage { s with
            trace := s.trace ++ timeoutEvents s.cfg, busyReads := reads })
    ∧ (∀ j, j < s.cfg.busyMaxPolls →
      s.busyReads
        = List.replicate j (.level (~~~ s.cfg.busyReadyLevel)) ++ .fail :: reads →
      busyPoll e stage s
        = .raised .transportError stage { s with
            trace := s.trace ++ waitEvents s.cfg j ++ [.pinRead .fail], busyReads := reads })

/-- A panel that never gets ready. CLEAR and DISPLAY end in BUSY_TIMEOUT at stage BUSY_POLL. INITIALIZE ends in
INIT_TIMEOUT at the poll that times out: at stage INIT or LUT_LOAD in a WAIT_BUSY of INIT_SEQ or LUT_SEQ, the steps
before it done, and at BUSY_POLL in its last poll. Every time the poll makes exactly BUSY_MAX_POLLS reads and PS_ST is
FAULTED (40_panel_primitives.md R105 to R109, R111; 41_panel_ops.md R132; 90_conflicts.md C3). -/
def Obligations.NeverReadyPanelTimesOut : Prop :=
  ∀ (s : State) (acks : List Ack) (reads : List BusyAnswer), 1 ≤ s.cfg.busyMaxPolls →
    let never := List.replicate s.cfg.busyMaxPolls (.level (~~~ s.cfg.busyReadyLevel)) ++ reads
    let timedOut := fun (stage : Stage) (es : List HalEvent) =>
      ∃ t : State, exec .psInitialize s = .next t ∧ PanelFrame s t
        ∧ t.trace = s.trace ++ (es ++ timeoutEvents s.cfg) ∧ t.acks = acks ∧ t.busyReads = reads
        ∧ t.psSt = .faulted ∧ t.psDone = true ∧ t.psErr = .initTimeout ∧ t.psStage = stage
        ∧ t.psPend = .none
    let notReady := fun bytes : List Byte => { s with
      psSt := .faulted, psDone := true, psErr := .busyTimeout, psStage := .busyPoll,
      psPend := .none,
      trace := s.trace ++ sendCommandEvents s.cfg s.cfg.opcData bytes
        ++ sendCommandEvents s.cfg s.cfg.opcRefresh [] ++ timeoutEvents s.cfg,
      dcOut := ~~~ s.cfg.dcCmdLevel, acks := acks, busyReads := reads }
    (s.psSt = .idle → s.acks = List.replicate (3 + expectedLen s.cfg + 3) .ok ++ acks →
      s.busyReads = never →
      exec .psClear s = .next (notReady (List.replicate (expectedLen s.cfg) 0xFF))
      ∧ ∀ bytes, BufferIs s bytes → exec .psDisplay s = .next (notReady bytes))
    ∧ (∀ (ps rest : List PanelStep) (waits : List Nat), s.cfg.initSeq = ps ++ .waitBusy :: rest →
      waits.length = pollCount ps → (∀ k ∈ waits, k < s.cfg.busyMaxPolls) →
      let es := resetEvents s.cfg ++ stepsEvents s.cfg ps waits
      s.acks = List.replicate (writeCount es) .ok ++ acks →
      s.busyReads = busyAnswers s.cfg waits ++ never →
      timedOut .init es)
    ∧ (∀ (ps rest : List PanelStep) (waits : List Nat), s.cfg.lutSeq = ps ++ .waitBusy :: rest →
      waits.length = pollCount (s.cfg.initSeq ++ ps) → (∀ k ∈ waits, k < s.cfg.busyMaxPolls) →
      let es := resetEvents s.cfg ++ stepsEvents s.cfg (s.cfg.initSeq ++ ps) waits
      s.acks = List.replicate (writeCount es) .ok ++ acks →
      s.busyReads = busyAnswers s.cfg waits ++ never →
      timedOut .lutLoad es)
    ∧ (∀ waits : List Nat, waits.length = pollCount (s.cfg.initSeq ++ s.cfg.lutSeq) →
      (∀ k ∈ waits, k < s.cfg.busyMaxPolls) →
      let es := resetEvents s.cfg ++ stepsEvents s.cfg (s.cfg.initSeq ++ s.cfg.lutSeq) waits
      s.acks = List.replicate (writeCount es) .ok ++ acks →
      s.busyReads = busyAnswers s.cfg waits ++ never →
      timedOut .busyPoll es)

/-- A FAIL answer to a command's first HAL call ends it there, with that one event and TRANSPORT_ERROR at its first
stage (40_panel_primitives.md R100, R104, R112; 41_panel_ops.md R132). The pin's latch is unspecified afterwards
and nothing is said of it (log 10). -/
def Obligations.FirstCallFailureIsReported : Prop :=
  ∀ (s : State) (acks : List Ack), s.acks = .fail :: acks →
    (∃ t : State, exec .psInitialize s = .next t ∧ PanelFrame s t
      ∧ t.trace = s.trace ++ [.pinWrite .rst s.cfg.rstActiveLevel .fail] ∧ t.acks = acks
      ∧ t.psErr = .transportError ∧ t.psStage = .reset ∧ t.psSt = .faulted
      ∧ t.psDone = true ∧ t.psPend = .none)
    ∧ (s.psSt = .idle → ∀ i ∈ [Instr.psClear, .psSleep, .psTeardown],
      ∃ t : State, exec i s = .next t ∧ PanelFrame s t
        ∧ t.trace = s.trace ++ [.pinWrite .dc s.cfg.dcCmdLevel .fail] ∧ t.acks = acks
        ∧ t.psErr = .transportError
        ∧ t.psStage = (if i = .psClear then .dataXfer else .sleep)
        ∧ t.psSt = (if i = .psTeardown then .uninitialized else .faulted)
        ∧ t.psDone = true ∧ t.psPend = .none)
    ∧ (∀ bytes, s.psSt = .idle → BufferIs s bytes →
      ∃ t : State, exec .psDisplay s = .next t ∧ PanelFrame s t
        ∧ t.trace = s.trace ++ [.pinWrite .dc s.cfg.dcCmdLevel .fail] ∧ t.acks = acks
        ∧ t.psErr = .transportError ∧ t.psStage = .dataXfer ∧ t.psSt = .faulted
        ∧ t.psDone = true ∧ t.psPend = .none)

/-- RST_OUT and DC_OUT hold the level of the last PinWrite a command made to the pin, if ENV answered it OK, and keep
their level if the command made none; after a FAIL nothing is said (10_state.md R45, 40_panel_primitives.md R101;
log 10). -/
def Obligations.PinLatchesFollowTrace : Prop :=
  ∀ (s t : State) (i : Instr) (es : List HalEvent) (p : OutPin), exec i s = .next t →
    t.trace = s.trace ++ es →
    (lastPinWrite p es = none → pinLatch p t = pinLatch p s)
    ∧ ∀ l, lastPinWrite p es = some (l, .ok) → pinLatch p t = l

/-! ### Status words -/

/-- IC_STATUS and PS_STATUS as numbers: where BUSY, DONE, ERR, CAUSE, STATE and STAGE stand, every reserved bit
being 0 (10_state.md R25, R35). -/
def Obligations.StatusWordLayout : Prop :=
  ∀ s : State,
    (icStatusWord s).toNat =
      (if s.icPend = .pending then 1 else 0) + (if s.icDone = true then 2 else 0)
        + 2 ^ 8 * (errCode s.icErr).toNat + 2 ^ 20 * s.icCause.toNat
    ∧ (psStatusWord s).toNat =
      (if s.psPend = .pending then 1 else 0) + (if s.psDone = true then 2 else 0)
        + 2 ^ 8 * (errCode s.psErr).toNat + 2 ^ 16 * (visibleCode s).toNat
        + 2 ^ 20 * (stageCode s.psStage).toNat

/-- The codes of the ten errors and the nine stages (60_exceptions.md R212, R214). -/
def Obligations.ErrorAndStageCodes : Prop :=
  ([Err.none, .decodeError, .dimensionMismatch, .unsupportedColorMode, .illegalCommand,
    .transportError, .initTimeout, .busyTimeout, .bufferSizeMismatch, .invalidState].map
      fun e => (errCode e).toNat) = List.range 10
  ∧ ([Stage.none, .validate, .reset, .init, .lutLoad, .busyPoll, .dataXfer, .refresh, .sleep].map
      fun g => (stageCode g).toNat) = List.range 9

/-- The STATE field: DISPLAYING (2) exactly while a DISPLAY or CLEAR word is pending from IDLE, else the stored
state's code; 5, 6 and 7 are never read (10_state.md R42, R43). -/
def Obligations.VisibleStateCodes : Prop :=
  ∀ s : State,
    (visibleCode s).toNat =
      (if s.psPend = .pending ∧ (s.psCmdl.toNat = 2 ∨ s.psCmdl.toNat = 3) ∧ s.psSt = .idle then 2
       else match s.psSt with
        | .uninitialized => 0
        | .idle => 1
        | .asleep => 3
        | .faulted => 4)
    ∧ (visibleCode s).toNat < 5

/-! ### The host's transactions -/

/-- A write to IC_CMD or PS_CMD of an engine with nothing pending latches the word and clears the engine's DONE, ERR
and CAUSE or STAGE, and changes nothing else; while the engine is pending it is a hazard
(42_convert.md R150, 41_panel_ops.md R120). The first two clauses leave out the issues R242 forbids. -/
def Obligations.IssueLatchesWord : Prop :=
  ∀ (s : State) (w : Word),
    (s.icPend = .none →
      ¬ (w.toNat = 1 ∧ s.psPend = .pending ∧ s.psCmdl.toNat = 2 ∧ TargetMeetsBuffer s) →
      hostStep (.regWrite 0x00 w) s = { s with
        icCmdl := w, icPend := .pending, icDone := false, icErr := .none, icCause := 0 })
    ∧ (s.psPend = .none →
      ¬ (w.toNat = 2 ∧ s.icPend = .pending ∧ s.icCmdl.toNat = 1 ∧ TargetMeetsBuffer s) →
      hostStep (.regWrite 0x40 w) s = { s with
        psCmdl := w, psPend := .pending, psDone := false, psErr := .none, psStage := .none })
    ∧ (s.icPend = .pending → hostStep (.regWrite 0x00 w) s = { s with
        faults := s.faults ++ [.hazard .regWritePending 0x00] })
    ∧ (s.psPend = .pending → hostStep (.regWrite 0x40 w) s = { s with
        faults := s.faults ++ [.hazard .regWritePending 0x40] })

/-- Which register writes are hazards while an engine is pending, that they change nothing but FAULTS, that a
read-only register ignores writes, and that the other engine's operand registers stay writable
(70_reset_and_hazards.md R240). -/
def Obligations.WriteToPendingEngineIsHazard : Prop :=
  ∀ (s : State) (off : Offset) (w : Word),
    (s.icPend = .pending →
      off.toNat ∈ [0x00, 0x08, 0x0C, 0x10, 0x14, 0x18, 0x1C, 0x20] →
      hostStep (.regWrite off w) s = { s with
        faults := s.faults ++ [.hazard .regWritePending off.toNat] })
    ∧ (s.psPend = .pending → off.toNat ∈ [0x40, 0x48, 0x4C] →
      hostStep (.regWrite off w) s = { s with
        faults := s.faults ++ [.hazard .regWritePending off.toNat] })
    ∧ (off.toNat ∈ [0x04, 0x24, 0x44, 0x50, 0x54, 0x58] → hostStep (.regWrite off w) s = s)
    ∧ (s.icPend = .none → off.toNat ∈ [0x08, 0x0C, 0x10, 0x14, 0x18, 0x1C, 0x20] →
      (hostStep (.regWrite off w) s).faults = s.faults)
    ∧ (s.psPend = .none → off.toNat ∈ [0x48, 0x4C] →
      (hostStep (.regWrite off w) s).faults = s.faults)

/-- Host MEM accesses inside MEM while commands are pending: a write is a hazard in the read or write region of a
pending CONVERT and in the buffer of a pending DISPLAY, a read only in CONVERT's write region; outside them the
access takes place, a read of an unwritten byte recording UnwrittenRead (70_reset_and_hazards.md R241; 20_memory.md
R61; an address outside MEM is a bus error first, log 12; such a read replies with no value, log 13). -/
def Obligations.MemAccessInFlightIsHazard : Prop :=
  ∀ (s : State) (a : Nat) (b : Byte), a < s.cfg.memSize →
    let converting := s.icPend = .pending ∧ s.icCmdl.toNat = 1
    let showing := s.psPend = .pending ∧ s.psCmdl.toNat = 2
    let inSrc := InSourceRegion s a
    let inDst := InTargetRegion s a
    let inBuf := InBufferRegion s a
    ((converting ∧ (inSrc ∨ inDst)) ∨ (showing ∧ inBuf) →
      hostStep (.memWrite a b) s = { s with
        faults := s.faults ++ [.hazard .memInFlight a] })
    ∧ (¬ ((converting ∧ (inSrc ∨ inDst)) ∨ (showing ∧ inBuf)) →
      hostStep (.memWrite a b) s = { s with mem := Memory.write s.mem a b })
    ∧ (converting ∧ inDst →
      hostStep (.memRead a) s = { s with
        faults := s.faults ++ [.hazard .memInFlight a], replies := s.replies ++ [.byte 0] })
    ∧ (¬ (converting ∧ inDst) →
      (∀ v, Memory.read s.mem a = some v →
        hostStep (.memRead a) s = { s with replies := s.replies ++ [.byte v] })
      ∧ (Memory.read s.mem a = none → hostStep (.memRead a) s = { s with
          faults := s.faults ++ [.unwrittenRead a], replies := s.replies ++ [.noValue] }))

/-- Issuing a CONVERT whose DST_REGION overlaps a pending DISPLAY's buffer, or a DISPLAY whose buffer overlaps a
pending CONVERT's DST_REGION, has no effect but the fault; without that overlap the issue takes place, though the
CONVERT's source may overlap the buffer (70_reset_and_hazards.md R242). -/
def Obligations.CrossEngineIssueIsHazard : Prop :=
  ∀ s : State,
    (s.icPend = .none → s.psPend = .pending → s.psCmdl.toNat = 2 →
      (TargetMeetsBuffer s →
        hostStep (.regWrite 0x00 0x00000001) s = { s with
          faults := s.faults ++ [.hazard .crossEngine 0x00] })
      ∧ (¬ TargetMeetsBuffer s →
        hostStep (.regWrite 0x00 0x00000001) s = { s with
          icCmdl := 1, icPend := .pending, icDone := false, icErr := .none, icCause := 0 }))
    ∧ (s.psPend = .none → s.icPend = .pending → s.icCmdl.toNat = 1 →
      (TargetMeetsBuffer s →
        hostStep (.regWrite 0x40 0x00000002) s = { s with
          faults := s.faults ++ [.hazard .crossEngine 0x40] })
      ∧ (¬ TargetMeetsBuffer s →
        hostStep (.regWrite 0x40 0x00000002) s = { s with
          psCmdl := 2, psPend := .pending, psDone := false, psErr := .none, psStage := .none }))

/-- Register accesses: an unmapped or misaligned offset and an access of another width get a bus error, a read then
returning 0; a read of a mapped register returns its value and has no other effect. The value of each of the 17 is given
as a number: the status words by their fields, the constants by the parameters, write-only registers 0
(10_state.md R22 to R40; log 14). -/
def Obligations.RegisterAccessRules : Prop :=
  ∀ (s : State) (off : Offset) (w : Word),
    let mapped := off.toNat % 4 = 0 ∧
      (off.toNat ≤ 0x24 ∨ (0x40 ≤ off.toNat ∧ off.toNat ≤ 0x58))
    (¬ mapped →
      hostStep (.regWrite off w) s = { s with faults := s.faults ++ [.busErrorReg off] }
      ∧ hostStep (.regRead off) s = { s with
          faults := s.faults ++ [.busErrorReg off], replies := s.replies ++ [.word 0] })
    ∧ (mapped → ∃ r, regOffset r = off
      ∧ hostStep (.regRead off) s = { s with replies := s.replies ++ [.word (regValue r s)] })
    ∧ hostStep (.regOtherWidth off true) s = { s with
        faults := s.faults ++ [.busErrorReg off], replies := s.replies ++ [.word 0] }
    ∧ hostStep (.regOtherWidth off false) s = { s with
        faults := s.faults ++ [.busErrorReg off] }
    ∧ let reads := fun (o : Offset) (n : Nat) => hostStep (.regRead o) s = { s with
        replies := s.replies ++ [.word (BitVec.ofNat 32 n)] }
      let mode := match s.cfg.panelMode with
        | .blackWhite => 0
        | .grayscale4 => 1
      reads 0x00 0
      ∧ reads 0x04 ((if s.icPend = .pending then 1 else 0) + (if s.icDone = true then 2 else 0)
          + 2 ^ 8 * (errCode s.icErr).toNat + 2 ^ 20 * s.icCause.toNat)
      ∧ reads 0x08 s.icSrcDim.toNat ∧ reads 0x0C (s.icSrcFmt.toNat % 4)
      ∧ reads 0x10 s.icSrcBase.toNat ∧ reads 0x14 s.icDstDim.toNat
      ∧ reads 0x18 (s.icMode.toNat % 128) ∧ reads 0x1C s.icDstBase.toNat
      ∧ reads 0x20 s.icDstCap.toNat ∧ reads 0x24 s.icOutLen.toNat
      ∧ reads 0x40 0
      ∧ reads 0x44 ((if s.psPend = .pending then 1 else 0) + (if s.psDone = true then 2 else 0)
          + 2 ^ 8 * (errCode s.psErr).toNat + 2 ^ 16 * (visibleCode s).toNat
          + 2 ^ 20 * (stageCode s.psStage).toNat)
      ∧ reads 0x48 s.psBufBase.toNat ∧ reads 0x4C s.psBufLen.toNat
      ∧ reads 0x50 ((s.cfg.panelW * (mode + 1) + 7) / 8 * s.cfg.panelH)
      ∧ (s.cfg.wf = true → reads 0x54 (2 ^ 16 * s.cfg.panelH + s.cfg.panelW))
      ∧ reads 0x58 mode

/-- A write to an operand register of an engine that is not pending stores the word, reserved fields as 0, and changes
nothing else; the register reads back what it stores, and a write-only register reads 0 (10_state.md R23, R26 to R32,
R36, R37; 20_memory.md R67). -/
def Obligations.WrittenRegisterReadsBack : Prop :=
  ∀ (s : State) (w : Word),
    (s.icPend = .none →
      ∀ r ∈ [Reg.icSrcDim, .icSrcBase, .icDstDim, .icDstBase, .icDstCap],
        regValue r (hostStep (.regWrite (regOffset r) w) s) = w)
    ∧ (s.icPend = .none →
      (regValue .icSrcFmt (hostStep (.regWrite 0x0C w) s)).toNat = w.toNat % 4
      ∧ (regValue .icMode (hostStep (.regWrite 0x18 w) s)).toNat = w.toNat % 128)
    ∧ (s.psPend = .none →
      ∀ r ∈ [Reg.psBufBase, .psBufLen],
        regValue r (hostStep (.regWrite (regOffset r) w) s) = w)
    ∧ regValue .icCmd s = 0 ∧ regValue .psCmd s = 0
    ∧ (s.icPend = .none →
      hostStep (.regWrite 0x08 w) s = { s with icSrcDim := w }
      ∧ hostStep (.regWrite 0x0C w) s = { s with icSrcFmt := BitVec.ofNat 32 (w.toNat % 4) }
      ∧ hostStep (.regWrite 0x10 w) s = { s with icSrcBase := w }
      ∧ hostStep (.regWrite 0x14 w) s = { s with icDstDim := w }
      ∧ hostStep (.regWrite 0x18 w) s = { s with icMode := BitVec.ofNat 32 (w.toNat % 128) }
      ∧ hostStep (.regWrite 0x1C w) s = { s with icDstBase := w }
      ∧ hostStep (.regWrite 0x20 w) s = { s with icDstCap := w })
    ∧ (s.psPend = .none →
      hostStep (.regWrite 0x48 w) s = { s with psBufBase := w }
      ∧ hostStep (.regWrite 0x4C w) s = { s with psBufLen := w })

/-- The MEM port with nothing pending: a byte written is the byte read, every other address is as before, a byte
never written has no value, and an address outside MEM or an access of more than one byte is a bus error
(20_memory.md R61, R62, R64; logs 13, 14). -/
def Obligations.MemoryPort : Prop :=
  ∀ (s : State) (a : Nat) (b : Byte), s.icPend = .none → s.psPend = .none →
    (a < s.cfg.memSize →
      (∀ x, Memory.read (hostStep (.memWrite a b) s).mem x
          = if x = a then some b else Memory.read s.mem x)
      ∧ (hostStep (.memRead a) (hostStep (.memWrite a b) s)).replies
          = s.replies ++ [.byte b]
      ∧ (Memory.read s.mem a = none → hostStep (.memRead a) s = { s with
          faults := s.faults ++ [.unwrittenRead a], replies := s.replies ++ [.noValue] }))
    ∧ (s.cfg.memSize ≤ a →
      hostStep (.memWrite a b) s = { s with faults := s.faults ++ [.busErrorMem a] }
      ∧ hostStep (.memRead a) s = { s with
          faults := s.faults ++ [.busErrorMem a], replies := s.replies ++ [.byte 0] })
    ∧ hostStep (.memManyBytes a true) s = { s with
        faults := s.faults ++ [.busErrorMem a], replies := s.replies ++ [.byte 0] }
    ∧ hostStep (.memManyBytes a false) s = { s with faults := s.faults ++ [.busErrorMem a] }

/-- With no engine pending, no host transaction is a hazard (70_reset_and_hazards.md R246). -/
def Obligations.NoHazardWithNothingPending : Prop :=
  ∀ (s : State) (t : Transaction), s.icPend = .none → s.psPend = .none →
    ∀ (kind : HazardKind) (detail : Nat),
      Fault.hazard kind detail ∈ (hostStep t s).faults → Fault.hazard kind detail ∈ s.faults

/-- A host access that records a fault changes nothing else, but for the reply of a read
(70_reset_and_hazards.md R244, 60_exceptions.md R217). -/
def Obligations.FaultingAccessChangesOnlyFaults : Prop :=
  ∀ (s : State) (t : Transaction), (hostStep t s).faults ≠ s.faults →
    (∃ f, (hostStep t s).faults = s.faults ++ [f])
    ∧ hostStep t s = { s with
        faults := (hostStep t s).faults, replies := (hostStep t s).replies }

/-! ### Two engines -/

/-- A CONVERT and a panel command other than DISPLAY complete in either order with the same end state
(60_exceptions.md R226; 95_test_vectors.md V-HZ-15 and P6). -/
def Obligations.EnginesCompleteInEitherOrder : Prop :=
  ∀ (s : State) (i : Instr), i ∈ [Instr.psInitialize, .psClear, .psSleep, .psTeardown] →
    ∃ a b t : State, exec .icConvert s = .next a ∧ exec i s = .next b
      ∧ exec i a = .next t ∧ exec .icConvert b = .next t

/-- A fault-free CONVERT and a DISPLAY whose buffer lies outside CONVERT's DST_REGION complete in either order with
the same end state: R242 forbids the overlap that could tell the orders apart (70_reset_and_hazards.md R242;
20_memory.md R69). -/
def Obligations.DisplayIgnoresDisjointConvert : Prop :=
  ∀ (s a : State), ¬ TargetMeetsBuffer s →
    exec .icConvert s = .next a → a.faults = s.faults →
    ∃ b t : State, exec .psDisplay s = .next b ∧ exec .psDisplay a = .next t
      ∧ exec .icConvert b = .next t
end

