-- ==== Sys2Proof/Laws/State.lean ====
section
/-! SUPPORT. One lemma for each field of State and each named update of it: what the field holds afterwards. -/

namespace Sys2Proof.Machine

variable (s : State)

/-! ### recordFault -/

@[simp] theorem recordFault_cfg (f : Fault) : (recordFault f s).cfg = s.cfg := rfl
@[simp] theorem recordFault_icDone (f : Fault) : (recordFault f s).icDone = s.icDone := rfl
@[simp] theorem recordFault_icErr (f : Fault) : (recordFault f s).icErr = s.icErr := rfl
@[simp] theorem recordFault_icCause (f : Fault) : (recordFault f s).icCause = s.icCause := rfl
@[simp] theorem recordFault_icSrcDim (f : Fault) : (recordFault f s).icSrcDim = s.icSrcDim := rfl
@[simp] theorem recordFault_icSrcFmt (f : Fault) : (recordFault f s).icSrcFmt = s.icSrcFmt := rfl
@[simp] theorem recordFault_icSrcBase (f : Fault) : (recordFault f s).icSrcBase = s.icSrcBase := rfl
@[simp] theorem recordFault_icDstDim (f : Fault) : (recordFault f s).icDstDim = s.icDstDim := rfl
@[simp] theorem recordFault_icMode (f : Fault) : (recordFault f s).icMode = s.icMode := rfl
@[simp] theorem recordFault_icDstBase (f : Fault) : (recordFault f s).icDstBase = s.icDstBase := rfl
@[simp] theorem recordFault_icDstCap (f : Fault) : (recordFault f s).icDstCap = s.icDstCap := rfl
@[simp] theorem recordFault_icOutLen (f : Fault) : (recordFault f s).icOutLen = s.icOutLen := rfl
@[simp] theorem recordFault_psDone (f : Fault) : (recordFault f s).psDone = s.psDone := rfl
@[simp] theorem recordFault_psErr (f : Fault) : (recordFault f s).psErr = s.psErr := rfl
@[simp] theorem recordFault_psStage (f : Fault) : (recordFault f s).psStage = s.psStage := rfl
@[simp] theorem recordFault_psBufBase (f : Fault) : (recordFault f s).psBufBase = s.psBufBase := rfl
@[simp] theorem recordFault_psBufLen (f : Fault) : (recordFault f s).psBufLen = s.psBufLen := rfl
@[simp] theorem recordFault_icPend (f : Fault) : (recordFault f s).icPend = s.icPend := rfl
@[simp] theorem recordFault_icCmdl (f : Fault) : (recordFault f s).icCmdl = s.icCmdl := rfl
@[simp] theorem recordFault_psPend (f : Fault) : (recordFault f s).psPend = s.psPend := rfl
@[simp] theorem recordFault_psCmdl (f : Fault) : (recordFault f s).psCmdl = s.psCmdl := rfl
@[simp] theorem recordFault_psSt (f : Fault) : (recordFault f s).psSt = s.psSt := rfl
@[simp] theorem recordFault_fsCur (f : Fault) : (recordFault f s).fsCur = s.fsCur := rfl
@[simp] theorem recordFault_fsNxt (f : Fault) : (recordFault f s).fsNxt = s.fsNxt := rfl
@[simp] theorem recordFault_rstOut (f : Fault) : (recordFault f s).rstOut = s.rstOut := rfl
@[simp] theorem recordFault_dcOut (f : Fault) : (recordFault f s).dcOut = s.dcOut := rfl
@[simp] theorem recordFault_trace (f : Fault) : (recordFault f s).trace = s.trace := rfl
@[simp] theorem recordFault_faults (f : Fault) : (recordFault f s).faults = s.faults ++ [f] := rfl
@[simp] theorem recordFault_mem (f : Fault) : (recordFault f s).mem = s.mem := rfl
@[simp] theorem recordFault_agenda (f : Fault) : (recordFault f s).agenda = s.agenda := rfl
@[simp] theorem recordFault_acks (f : Fault) : (recordFault f s).acks = s.acks := rfl
@[simp] theorem recordFault_busyReads (f : Fault) : (recordFault f s).busyReads = s.busyReads := rfl
@[simp] theorem recordFault_draws (f : Fault) : (recordFault f s).draws = s.draws := rfl
@[simp] theorem recordFault_replies (f : Fault) : (recordFault f s).replies = s.replies := rfl

/-! ### icIssue -/

@[simp] theorem icIssue_cfg (w : Word) : (icIssue w s).cfg = s.cfg := rfl
@[simp] theorem icIssue_icDone (w : Word) : (icIssue w s).icDone = false := rfl
@[simp] theorem icIssue_icErr (w : Word) : (icIssue w s).icErr = .none := rfl
@[simp] theorem icIssue_icCause (w : Word) : (icIssue w s).icCause = 0 := rfl
@[simp] theorem icIssue_icSrcDim (w : Word) : (icIssue w s).icSrcDim = s.icSrcDim := rfl
@[simp] theorem icIssue_icSrcFmt (w : Word) : (icIssue w s).icSrcFmt = s.icSrcFmt := rfl
@[simp] theorem icIssue_icSrcBase (w : Word) : (icIssue w s).icSrcBase = s.icSrcBase := rfl
@[simp] theorem icIssue_icDstDim (w : Word) : (icIssue w s).icDstDim = s.icDstDim := rfl
@[simp] theorem icIssue_icMode (w : Word) : (icIssue w s).icMode = s.icMode := rfl
@[simp] theorem icIssue_icDstBase (w : Word) : (icIssue w s).icDstBase = s.icDstBase := rfl
@[simp] theorem icIssue_icDstCap (w : Word) : (icIssue w s).icDstCap = s.icDstCap := rfl
@[simp] theorem icIssue_icOutLen (w : Word) : (icIssue w s).icOutLen = s.icOutLen := rfl
@[simp] theorem icIssue_psDone (w : Word) : (icIssue w s).psDone = s.psDone := rfl
@[simp] theorem icIssue_psErr (w : Word) : (icIssue w s).psErr = s.psErr := rfl
@[simp] theorem icIssue_psStage (w : Word) : (icIssue w s).psStage = s.psStage := rfl
@[simp] theorem icIssue_psBufBase (w : Word) : (icIssue w s).psBufBase = s.psBufBase := rfl
@[simp] theorem icIssue_psBufLen (w : Word) : (icIssue w s).psBufLen = s.psBufLen := rfl
@[simp] theorem icIssue_icPend (w : Word) : (icIssue w s).icPend = .pending := rfl
@[simp] theorem icIssue_icCmdl (w : Word) : (icIssue w s).icCmdl = w := rfl
@[simp] theorem icIssue_psPend (w : Word) : (icIssue w s).psPend = s.psPend := rfl
@[simp] theorem icIssue_psCmdl (w : Word) : (icIssue w s).psCmdl = s.psCmdl := rfl
@[simp] theorem icIssue_psSt (w : Word) : (icIssue w s).psSt = s.psSt := rfl
@[simp] theorem icIssue_fsCur (w : Word) : (icIssue w s).fsCur = s.fsCur := rfl
@[simp] theorem icIssue_fsNxt (w : Word) : (icIssue w s).fsNxt = s.fsNxt := rfl
@[simp] theorem icIssue_rstOut (w : Word) : (icIssue w s).rstOut = s.rstOut := rfl
@[simp] theorem icIssue_dcOut (w : Word) : (icIssue w s).dcOut = s.dcOut := rfl
@[simp] theorem icIssue_trace (w : Word) : (icIssue w s).trace = s.trace := rfl
@[simp] theorem icIssue_faults (w : Word) : (icIssue w s).faults = s.faults := rfl
@[simp] theorem icIssue_mem (w : Word) : (icIssue w s).mem = s.mem := rfl
@[simp] theorem icIssue_agenda (w : Word) : (icIssue w s).agenda = s.agenda := rfl
@[simp] theorem icIssue_acks (w : Word) : (icIssue w s).acks = s.acks := rfl
@[simp] theorem icIssue_busyReads (w : Word) : (icIssue w s).busyReads = s.busyReads := rfl
@[simp] theorem icIssue_draws (w : Word) : (icIssue w s).draws = s.draws := rfl
@[simp] theorem icIssue_replies (w : Word) : (icIssue w s).replies = s.replies := rfl

/-! ### icCompleteOk -/

@[simp] theorem icCompleteOk_cfg : (icCompleteOk s).cfg = s.cfg := rfl
@[simp] theorem icCompleteOk_icDone : (icCompleteOk s).icDone = true := rfl
@[simp] theorem icCompleteOk_icErr : (icCompleteOk s).icErr = .none := rfl
@[simp] theorem icCompleteOk_icCause : (icCompleteOk s).icCause = 0 := rfl
@[simp] theorem icCompleteOk_icSrcDim : (icCompleteOk s).icSrcDim = s.icSrcDim := rfl
@[simp] theorem icCompleteOk_icSrcFmt : (icCompleteOk s).icSrcFmt = s.icSrcFmt := rfl
@[simp] theorem icCompleteOk_icSrcBase : (icCompleteOk s).icSrcBase = s.icSrcBase := rfl
@[simp] theorem icCompleteOk_icDstDim : (icCompleteOk s).icDstDim = s.icDstDim := rfl
@[simp] theorem icCompleteOk_icMode : (icCompleteOk s).icMode = s.icMode := rfl
@[simp] theorem icCompleteOk_icDstBase : (icCompleteOk s).icDstBase = s.icDstBase := rfl
@[simp] theorem icCompleteOk_icDstCap : (icCompleteOk s).icDstCap = s.icDstCap := rfl
@[simp] theorem icCompleteOk_icOutLen : (icCompleteOk s).icOutLen = s.icOutLen := rfl
@[simp] theorem icCompleteOk_psDone : (icCompleteOk s).psDone = s.psDone := rfl
@[simp] theorem icCompleteOk_psErr : (icCompleteOk s).psErr = s.psErr := rfl
@[simp] theorem icCompleteOk_psStage : (icCompleteOk s).psStage = s.psStage := rfl
@[simp] theorem icCompleteOk_psBufBase : (icCompleteOk s).psBufBase = s.psBufBase := rfl
@[simp] theorem icCompleteOk_psBufLen : (icCompleteOk s).psBufLen = s.psBufLen := rfl
@[simp] theorem icCompleteOk_icPend : (icCompleteOk s).icPend = .none := rfl
@[simp] theorem icCompleteOk_icCmdl : (icCompleteOk s).icCmdl = s.icCmdl := rfl
@[simp] theorem icCompleteOk_psPend : (icCompleteOk s).psPend = s.psPend := rfl
@[simp] theorem icCompleteOk_psCmdl : (icCompleteOk s).psCmdl = s.psCmdl := rfl
@[simp] theorem icCompleteOk_psSt : (icCompleteOk s).psSt = s.psSt := rfl
@[simp] theorem icCompleteOk_fsCur : (icCompleteOk s).fsCur = s.fsCur := rfl
@[simp] theorem icCompleteOk_fsNxt : (icCompleteOk s).fsNxt = s.fsNxt := rfl
@[simp] theorem icCompleteOk_rstOut : (icCompleteOk s).rstOut = s.rstOut := rfl
@[simp] theorem icCompleteOk_dcOut : (icCompleteOk s).dcOut = s.dcOut := rfl
@[simp] theorem icCompleteOk_trace : (icCompleteOk s).trace = s.trace := rfl
@[simp] theorem icCompleteOk_faults : (icCompleteOk s).faults = s.faults := rfl
@[simp] theorem icCompleteOk_mem : (icCompleteOk s).mem = s.mem := rfl
@[simp] theorem icCompleteOk_agenda : (icCompleteOk s).agenda = s.agenda := rfl
@[simp] theorem icCompleteOk_acks : (icCompleteOk s).acks = s.acks := rfl
@[simp] theorem icCompleteOk_busyReads : (icCompleteOk s).busyReads = s.busyReads := rfl
@[simp] theorem icCompleteOk_draws : (icCompleteOk s).draws = s.draws := rfl
@[simp] theorem icCompleteOk_replies : (icCompleteOk s).replies = s.replies := rfl

/-! ### icRaiseConvert -/

@[simp] theorem icRaiseConvert_cfg (e : Err) (c : BitVec 4) :
    (icRaiseConvert e c s).cfg = s.cfg := rfl
@[simp] theorem icRaiseConvert_icDone (e : Err) (c : BitVec 4) :
    (icRaiseConvert e c s).icDone = true := rfl
@[simp] theorem icRaiseConvert_icErr (e : Err) (c : BitVec 4) :
    (icRaiseConvert e c s).icErr = e := rfl
@[simp] theorem icRaiseConvert_icCause (e : Err) (c : BitVec 4) :
    (icRaiseConvert e c s).icCause = c := rfl
@[simp] theorem icRaiseConvert_icSrcDim (e : Err) (c : BitVec 4) :
    (icRaiseConvert e c s).icSrcDim = s.icSrcDim := rfl
@[simp] theorem icRaiseConvert_icSrcFmt (e : Err) (c : BitVec 4) :
    (icRaiseConvert e c s).icSrcFmt = s.icSrcFmt := rfl
@[simp] theorem icRaiseConvert_icSrcBase (e : Err) (c : BitVec 4) :
    (icRaiseConvert e c s).icSrcBase = s.icSrcBase := rfl
@[simp] theorem icRaiseConvert_icDstDim (e : Err) (c : BitVec 4) :
    (icRaiseConvert e c s).icDstDim = s.icDstDim := rfl
@[simp] theorem icRaiseConvert_icMode (e : Err) (c : BitVec 4) :
    (icRaiseConvert e c s).icMode = s.icMode := rfl
@[simp] theorem icRaiseConvert_icDstBase (e : Err) (c : BitVec 4) :
    (icRaiseConvert e c s).icDstBase = s.icDstBase := rfl
@[simp] theorem icRaiseConvert_icDstCap (e : Err) (c : BitVec 4) :
    (icRaiseConvert e c s).icDstCap = s.icDstCap := rfl
@[simp] theorem icRaiseConvert_icOutLen (e : Err) (c : BitVec 4) :
    (icRaiseConvert e c s).icOutLen = 0 := rfl
@[simp] theorem icRaiseConvert_psDone (e : Err) (c : BitVec 4) :
    (icRaiseConvert e c s).psDone = s.psDone := rfl
@[simp] theorem icRaiseConvert_psErr (e : Err) (c : BitVec 4) :
    (icRaiseConvert e c s).psErr = s.psErr := rfl
@[simp] theorem icRaiseConvert_psStage (e : Err) (c : BitVec 4) :
    (icRaiseConvert e c s).psStage = s.psStage := rfl
@[simp] theorem icRaiseConvert_psBufBase (e : Err) (c : BitVec 4) :
    (icRaiseConvert e c s).psBufBase = s.psBufBase := rfl
@[simp] theorem icRaiseConvert_psBufLen (e : Err) (c : BitVec 4) :
    (icRaiseConvert e c s).psBufLen = s.psBufLen := rfl
@[simp] theorem icRaiseConvert_icPend (e : Err) (c : BitVec 4) :
    (icRaiseConvert e c s).icPend = .none := rfl
@[simp] theorem icRaiseConvert_icCmdl (e : Err) (c : BitVec 4) :
    (icRaiseConvert e c s).icCmdl = s.icCmdl := rfl
@[simp] theorem icRaiseConvert_psPend (e : Err) (c : BitVec 4) :
    (icRaiseConvert e c s).psPend = s.psPend := rfl
@[simp] theorem icRaiseConvert_psCmdl (e : Err) (c : BitVec 4) :
    (icRaiseConvert e c s).psCmdl = s.psCmdl := rfl
@[simp] theorem icRaiseConvert_psSt (e : Err) (c : BitVec 4) :
    (icRaiseConvert e c s).psSt = s.psSt := rfl
@[simp] theorem icRaiseConvert_fsCur (e : Err) (c : BitVec 4) :
    (icRaiseConvert e c s).fsCur = s.fsCur := rfl
@[simp] theorem icRaiseConvert_fsNxt (e : Err) (c : BitVec 4) :
    (icRaiseConvert e c s).fsNxt = s.fsNxt := rfl
@[simp] theorem icRaiseConvert_rstOut (e : Err) (c : BitVec 4) :
    (icRaiseConvert e c s).rstOut = s.rstOut := rfl
@[simp] theorem icRaiseConvert_dcOut (e : Err) (c : BitVec 4) :
    (icRaiseConvert e c s).dcOut = s.dcOut := rfl
@[simp] theorem icRaiseConvert_trace (e : Err) (c : BitVec 4) :
    (icRaiseConvert e c s).trace = s.trace := rfl
@[simp] theorem icRaiseConvert_faults (e : Err) (c : BitVec 4) :
    (icRaiseConvert e c s).faults = s.faults := rfl
@[simp] theorem icRaiseConvert_mem (e : Err) (c : BitVec 4) :
    (icRaiseConvert e c s).mem = s.mem := rfl
@[simp] theorem icRaiseConvert_agenda (e : Err) (c : BitVec 4) :
    (icRaiseConvert e c s).agenda = s.agenda := rfl
@[simp] theorem icRaiseConvert_acks (e : Err) (c : BitVec 4) :
    (icRaiseConvert e c s).acks = s.acks := rfl
@[simp] theorem icRaiseConvert_busyReads (e : Err) (c : BitVec 4) :
    (icRaiseConvert e c s).busyReads = s.busyReads := rfl
@[simp] theorem icRaiseConvert_draws (e : Err) (c : BitVec 4) :
    (icRaiseConvert e c s).draws = s.draws := rfl
@[simp] theorem icRaiseConvert_replies (e : Err) (c : BitVec 4) :
    (icRaiseConvert e c s).replies = s.replies := rfl

/-! ### icRaiseIllegal -/

@[simp] theorem icRaiseIllegal_cfg : (icRaiseIllegal s).cfg = s.cfg := rfl
@[simp] theorem icRaiseIllegal_icDone : (icRaiseIllegal s).icDone = true := rfl
@[simp] theorem icRaiseIllegal_icErr : (icRaiseIllegal s).icErr = .illegalCommand := rfl
@[simp] theorem icRaiseIllegal_icCause : (icRaiseIllegal s).icCause = 1 := rfl
@[simp] theorem icRaiseIllegal_icSrcDim : (icRaiseIllegal s).icSrcDim = s.icSrcDim := rfl
@[simp] theorem icRaiseIllegal_icSrcFmt : (icRaiseIllegal s).icSrcFmt = s.icSrcFmt := rfl
@[simp] theorem icRaiseIllegal_icSrcBase : (icRaiseIllegal s).icSrcBase = s.icSrcBase := rfl
@[simp] theorem icRaiseIllegal_icDstDim : (icRaiseIllegal s).icDstDim = s.icDstDim := rfl
@[simp] theorem icRaiseIllegal_icMode : (icRaiseIllegal s).icMode = s.icMode := rfl
@[simp] theorem icRaiseIllegal_icDstBase : (icRaiseIllegal s).icDstBase = s.icDstBase := rfl
@[simp] theorem icRaiseIllegal_icDstCap : (icRaiseIllegal s).icDstCap = s.icDstCap := rfl
@[simp] theorem icRaiseIllegal_icOutLen : (icRaiseIllegal s).icOutLen = s.icOutLen := rfl
@[simp] theorem icRaiseIllegal_psDone : (icRaiseIllegal s).psDone = s.psDone := rfl
@[simp] theorem icRaiseIllegal_psErr : (icRaiseIllegal s).psErr = s.psErr := rfl
@[simp] theorem icRaiseIllegal_psStage : (icRaiseIllegal s).psStage = s.psStage := rfl
@[simp] theorem icRaiseIllegal_psBufBase : (icRaiseIllegal s).psBufBase = s.psBufBase := rfl
@[simp] theorem icRaiseIllegal_psBufLen : (icRaiseIllegal s).psBufLen = s.psBufLen := rfl
@[simp] theorem icRaiseIllegal_icPend : (icRaiseIllegal s).icPend = .none := rfl
@[simp] theorem icRaiseIllegal_icCmdl : (icRaiseIllegal s).icCmdl = s.icCmdl := rfl
@[simp] theorem icRaiseIllegal_psPend : (icRaiseIllegal s).psPend = s.psPend := rfl
@[simp] theorem icRaiseIllegal_psCmdl : (icRaiseIllegal s).psCmdl = s.psCmdl := rfl
@[simp] theorem icRaiseIllegal_psSt : (icRaiseIllegal s).psSt = s.psSt := rfl
@[simp] theorem icRaiseIllegal_fsCur : (icRaiseIllegal s).fsCur = s.fsCur := rfl
@[simp] theorem icRaiseIllegal_fsNxt : (icRaiseIllegal s).fsNxt = s.fsNxt := rfl
@[simp] theorem icRaiseIllegal_rstOut : (icRaiseIllegal s).rstOut = s.rstOut := rfl
@[simp] theorem icRaiseIllegal_dcOut : (icRaiseIllegal s).dcOut = s.dcOut := rfl
@[simp] theorem icRaiseIllegal_trace : (icRaiseIllegal s).trace = s.trace := rfl
@[simp] theorem icRaiseIllegal_faults : (icRaiseIllegal s).faults = s.faults := rfl
@[simp] theorem icRaiseIllegal_mem : (icRaiseIllegal s).mem = s.mem := rfl
@[simp] theorem icRaiseIllegal_agenda : (icRaiseIllegal s).agenda = s.agenda := rfl
@[simp] theorem icRaiseIllegal_acks : (icRaiseIllegal s).acks = s.acks := rfl
@[simp] theorem icRaiseIllegal_busyReads : (icRaiseIllegal s).busyReads = s.busyReads := rfl
@[simp] theorem icRaiseIllegal_draws : (icRaiseIllegal s).draws = s.draws := rfl
@[simp] theorem icRaiseIllegal_replies : (icRaiseIllegal s).replies = s.replies := rfl

/-! ### icUnwritten -/

@[simp] theorem icUnwritten_cfg (a : Nat) : (icUnwritten a s).cfg = s.cfg := rfl
@[simp] theorem icUnwritten_icDone (a : Nat) : (icUnwritten a s).icDone = s.icDone := rfl
@[simp] theorem icUnwritten_icErr (a : Nat) : (icUnwritten a s).icErr = s.icErr := rfl
@[simp] theorem icUnwritten_icCause (a : Nat) : (icUnwritten a s).icCause = s.icCause := rfl
@[simp] theorem icUnwritten_icSrcDim (a : Nat) : (icUnwritten a s).icSrcDim = s.icSrcDim := rfl
@[simp] theorem icUnwritten_icSrcFmt (a : Nat) : (icUnwritten a s).icSrcFmt = s.icSrcFmt := rfl
@[simp] theorem icUnwritten_icSrcBase (a : Nat) : (icUnwritten a s).icSrcBase = s.icSrcBase := rfl
@[simp] theorem icUnwritten_icDstDim (a : Nat) : (icUnwritten a s).icDstDim = s.icDstDim := rfl
@[simp] theorem icUnwritten_icMode (a : Nat) : (icUnwritten a s).icMode = s.icMode := rfl
@[simp] theorem icUnwritten_icDstBase (a : Nat) : (icUnwritten a s).icDstBase = s.icDstBase := rfl
@[simp] theorem icUnwritten_icDstCap (a : Nat) : (icUnwritten a s).icDstCap = s.icDstCap := rfl
@[simp] theorem icUnwritten_icOutLen (a : Nat) : (icUnwritten a s).icOutLen = s.icOutLen := rfl
@[simp] theorem icUnwritten_psDone (a : Nat) : (icUnwritten a s).psDone = s.psDone := rfl
@[simp] theorem icUnwritten_psErr (a : Nat) : (icUnwritten a s).psErr = s.psErr := rfl
@[simp] theorem icUnwritten_psStage (a : Nat) : (icUnwritten a s).psStage = s.psStage := rfl
@[simp] theorem icUnwritten_psBufBase (a : Nat) : (icUnwritten a s).psBufBase = s.psBufBase := rfl
@[simp] theorem icUnwritten_psBufLen (a : Nat) : (icUnwritten a s).psBufLen = s.psBufLen := rfl
@[simp] theorem icUnwritten_icPend (a : Nat) : (icUnwritten a s).icPend = .none := rfl
@[simp] theorem icUnwritten_icCmdl (a : Nat) : (icUnwritten a s).icCmdl = s.icCmdl := rfl
@[simp] theorem icUnwritten_psPend (a : Nat) : (icUnwritten a s).psPend = s.psPend := rfl
@[simp] theorem icUnwritten_psCmdl (a : Nat) : (icUnwritten a s).psCmdl = s.psCmdl := rfl
@[simp] theorem icUnwritten_psSt (a : Nat) : (icUnwritten a s).psSt = s.psSt := rfl
@[simp] theorem icUnwritten_fsCur (a : Nat) : (icUnwritten a s).fsCur = s.fsCur := rfl
@[simp] theorem icUnwritten_fsNxt (a : Nat) : (icUnwritten a s).fsNxt = s.fsNxt := rfl
@[simp] theorem icUnwritten_rstOut (a : Nat) : (icUnwritten a s).rstOut = s.rstOut := rfl
@[simp] theorem icUnwritten_dcOut (a : Nat) : (icUnwritten a s).dcOut = s.dcOut := rfl
@[simp] theorem icUnwritten_trace (a : Nat) : (icUnwritten a s).trace = s.trace := rfl
@[simp] theorem icUnwritten_faults (a : Nat) :
    (icUnwritten a s).faults = s.faults ++ [.unwrittenRead a] := rfl
@[simp] theorem icUnwritten_mem (a : Nat) : (icUnwritten a s).mem = s.mem := rfl
@[simp] theorem icUnwritten_agenda (a : Nat) : (icUnwritten a s).agenda = s.agenda := rfl
@[simp] theorem icUnwritten_acks (a : Nat) : (icUnwritten a s).acks = s.acks := rfl
@[simp] theorem icUnwritten_busyReads (a : Nat) : (icUnwritten a s).busyReads = s.busyReads := rfl
@[simp] theorem icUnwritten_draws (a : Nat) : (icUnwritten a s).draws = s.draws := rfl
@[simp] theorem icUnwritten_replies (a : Nat) : (icUnwritten a s).replies = s.replies := rfl

/-! ### psIssue -/

@[simp] theorem psIssue_cfg (w : Word) : (psIssue w s).cfg = s.cfg := rfl
@[simp] theorem psIssue_icDone (w : Word) : (psIssue w s).icDone = s.icDone := rfl
@[simp] theorem psIssue_icErr (w : Word) : (psIssue w s).icErr = s.icErr := rfl
@[simp] theorem psIssue_icCause (w : Word) : (psIssue w s).icCause = s.icCause := rfl
@[simp] theorem psIssue_icSrcDim (w : Word) : (psIssue w s).icSrcDim = s.icSrcDim := rfl
@[simp] theorem psIssue_icSrcFmt (w : Word) : (psIssue w s).icSrcFmt = s.icSrcFmt := rfl
@[simp] theorem psIssue_icSrcBase (w : Word) : (psIssue w s).icSrcBase = s.icSrcBase := rfl
@[simp] theorem psIssue_icDstDim (w : Word) : (psIssue w s).icDstDim = s.icDstDim := rfl
@[simp] theorem psIssue_icMode (w : Word) : (psIssue w s).icMode = s.icMode := rfl
@[simp] theorem psIssue_icDstBase (w : Word) : (psIssue w s).icDstBase = s.icDstBase := rfl
@[simp] theorem psIssue_icDstCap (w : Word) : (psIssue w s).icDstCap = s.icDstCap := rfl
@[simp] theorem psIssue_icOutLen (w : Word) : (psIssue w s).icOutLen = s.icOutLen := rfl
@[simp] theorem psIssue_psDone (w : Word) : (psIssue w s).psDone = false := rfl
@[simp] theorem psIssue_psErr (w : Word) : (psIssue w s).psErr = .none := rfl
@[simp] theorem psIssue_psStage (w : Word) : (psIssue w s).psStage = .none := rfl
@[simp] theorem psIssue_psBufBase (w : Word) : (psIssue w s).psBufBase = s.psBufBase := rfl
@[simp] theorem psIssue_psBufLen (w : Word) : (psIssue w s).psBufLen = s.psBufLen := rfl
@[simp] theorem psIssue_icPend (w : Word) : (psIssue w s).icPend = s.icPend := rfl
@[simp] theorem psIssue_icCmdl (w : Word) : (psIssue w s).icCmdl = s.icCmdl := rfl
@[simp] theorem psIssue_psPend (w : Word) : (psIssue w s).psPend = .pending := rfl
@[simp] theorem psIssue_psCmdl (w : Word) : (psIssue w s).psCmdl = w := rfl
@[simp] theorem psIssue_psSt (w : Word) : (psIssue w s).psSt = s.psSt := rfl
@[simp] theorem psIssue_fsCur (w : Word) : (psIssue w s).fsCur = s.fsCur := rfl
@[simp] theorem psIssue_fsNxt (w : Word) : (psIssue w s).fsNxt = s.fsNxt := rfl
@[simp] theorem psIssue_rstOut (w : Word) : (psIssue w s).rstOut = s.rstOut := rfl
@[simp] theorem psIssue_dcOut (w : Word) : (psIssue w s).dcOut = s.dcOut := rfl
@[simp] theorem psIssue_trace (w : Word) : (psIssue w s).trace = s.trace := rfl
@[simp] theorem psIssue_faults (w : Word) : (psIssue w s).faults = s.faults := rfl
@[simp] theorem psIssue_mem (w : Word) : (psIssue w s).mem = s.mem := rfl
@[simp] theorem psIssue_agenda (w : Word) : (psIssue w s).agenda = s.agenda := rfl
@[simp] theorem psIssue_acks (w : Word) : (psIssue w s).acks = s.acks := rfl
@[simp] theorem psIssue_busyReads (w : Word) : (psIssue w s).busyReads = s.busyReads := rfl
@[simp] theorem psIssue_draws (w : Word) : (psIssue w s).draws = s.draws := rfl
@[simp] theorem psIssue_replies (w : Word) : (psIssue w s).replies = s.replies := rfl

/-! ### psCompleteOk -/

@[simp] theorem psCompleteOk_cfg (h : HandleState) : (psCompleteOk h s).cfg = s.cfg := rfl
@[simp] theorem psCompleteOk_icDone (h : HandleState) : (psCompleteOk h s).icDone = s.icDone := rfl
@[simp] theorem psCompleteOk_icErr (h : HandleState) : (psCompleteOk h s).icErr = s.icErr := rfl
@[simp] theorem psCompleteOk_icCause (h : HandleState) :
    (psCompleteOk h s).icCause = s.icCause := rfl
@[simp] theorem psCompleteOk_icSrcDim (h : HandleState) :
    (psCompleteOk h s).icSrcDim = s.icSrcDim := rfl
@[simp] theorem psCompleteOk_icSrcFmt (h : HandleState) :
    (psCompleteOk h s).icSrcFmt = s.icSrcFmt := rfl
@[simp] theorem psCompleteOk_icSrcBase (h : HandleState) :
    (psCompleteOk h s).icSrcBase = s.icSrcBase := rfl
@[simp] theorem psCompleteOk_icDstDim (h : HandleState) :
    (psCompleteOk h s).icDstDim = s.icDstDim := rfl
@[simp] theorem psCompleteOk_icMode (h : HandleState) : (psCompleteOk h s).icMode = s.icMode := rfl
@[simp] theorem psCompleteOk_icDstBase (h : HandleState) :
    (psCompleteOk h s).icDstBase = s.icDstBase := rfl
@[simp] theorem psCompleteOk_icDstCap (h : HandleState) :
    (psCompleteOk h s).icDstCap = s.icDstCap := rfl
@[simp] theorem psCompleteOk_icOutLen (h : HandleState) :
    (psCompleteOk h s).icOutLen = s.icOutLen := rfl
@[simp] theorem psCompleteOk_psDone (h : HandleState) : (psCompleteOk h s).psDone = true := rfl
@[simp] theorem psCompleteOk_psErr (h : HandleState) : (psCompleteOk h s).psErr = .none := rfl
@[simp] theorem psCompleteOk_psStage (h : HandleState) : (psCompleteOk h s).psStage = .none := rfl
@[simp] theorem psCompleteOk_psBufBase (h : HandleState) :
    (psCompleteOk h s).psBufBase = s.psBufBase := rfl
@[simp] theorem psCompleteOk_psBufLen (h : HandleState) :
    (psCompleteOk h s).psBufLen = s.psBufLen := rfl
@[simp] theorem psCompleteOk_icPend (h : HandleState) : (psCompleteOk h s).icPend = s.icPend := rfl
@[simp] theorem psCompleteOk_icCmdl (h : HandleState) : (psCompleteOk h s).icCmdl = s.icCmdl := rfl
@[simp] theorem psCompleteOk_psPend (h : HandleState) : (psCompleteOk h s).psPend = .none := rfl
@[simp] theorem psCompleteOk_psCmdl (h : HandleState) : (psCompleteOk h s).psCmdl = s.psCmdl := rfl
@[simp] theorem psCompleteOk_psSt (h : HandleState) : (psCompleteOk h s).psSt = h := rfl
@[simp] theorem psCompleteOk_fsCur (h : HandleState) : (psCompleteOk h s).fsCur = s.fsCur := rfl
@[simp] theorem psCompleteOk_fsNxt (h : HandleState) : (psCompleteOk h s).fsNxt = s.fsNxt := rfl
@[simp] theorem psCompleteOk_rstOut (h : HandleState) : (psCompleteOk h s).rstOut = s.rstOut := rfl
@[simp] theorem psCompleteOk_dcOut (h : HandleState) : (psCompleteOk h s).dcOut = s.dcOut := rfl
@[simp] theorem psCompleteOk_trace (h : HandleState) : (psCompleteOk h s).trace = s.trace := rfl
@[simp] theorem psCompleteOk_faults (h : HandleState) : (psCompleteOk h s).faults = s.faults := rfl
@[simp] theorem psCompleteOk_mem (h : HandleState) : (psCompleteOk h s).mem = s.mem := rfl
@[simp] theorem psCompleteOk_agenda (h : HandleState) : (psCompleteOk h s).agenda = s.agenda := rfl
@[simp] theorem psCompleteOk_acks (h : HandleState) : (psCompleteOk h s).acks = s.acks := rfl
@[simp] theorem psCompleteOk_busyReads (h : HandleState) :
    (psCompleteOk h s).busyReads = s.busyReads := rfl
@[simp] theorem psCompleteOk_draws (h : HandleState) : (psCompleteOk h s).draws = s.draws := rfl
@[simp] theorem psCompleteOk_replies (h : HandleState) :
    (psCompleteOk h s).replies = s.replies := rfl

/-! ### psRaise -/

@[simp] theorem psRaise_cfg (i : Instr) (e : Err) (g : Stage) : (psRaise i e g s).cfg = s.cfg := rfl
@[simp] theorem psRaise_icDone (i : Instr) (e : Err) (g : Stage) :
    (psRaise i e g s).icDone = s.icDone := rfl
@[simp] theorem psRaise_icErr (i : Instr) (e : Err) (g : Stage) :
    (psRaise i e g s).icErr = s.icErr := rfl
@[simp] theorem psRaise_icCause (i : Instr) (e : Err) (g : Stage) :
    (psRaise i e g s).icCause = s.icCause := rfl
@[simp] theorem psRaise_icSrcDim (i : Instr) (e : Err) (g : Stage) :
    (psRaise i e g s).icSrcDim = s.icSrcDim := rfl
@[simp] theorem psRaise_icSrcFmt (i : Instr) (e : Err) (g : Stage) :
    (psRaise i e g s).icSrcFmt = s.icSrcFmt := rfl
@[simp] theorem psRaise_icSrcBase (i : Instr) (e : Err) (g : Stage) :
    (psRaise i e g s).icSrcBase = s.icSrcBase := rfl
@[simp] theorem psRaise_icDstDim (i : Instr) (e : Err) (g : Stage) :
    (psRaise i e g s).icDstDim = s.icDstDim := rfl
@[simp] theorem psRaise_icMode (i : Instr) (e : Err) (g : Stage) :
    (psRaise i e g s).icMode = s.icMode := rfl
@[simp] theorem psRaise_icDstBase (i : Instr) (e : Err) (g : Stage) :
    (psRaise i e g s).icDstBase = s.icDstBase := rfl
@[simp] theorem psRaise_icDstCap (i : Instr) (e : Err) (g : Stage) :
    (psRaise i e g s).icDstCap = s.icDstCap := rfl
@[simp] theorem psRaise_icOutLen (i : Instr) (e : Err) (g : Stage) :
    (psRaise i e g s).icOutLen = s.icOutLen := rfl
@[simp] theorem psRaise_psDone (i : Instr) (e : Err) (g : Stage) :
    (psRaise i e g s).psDone = true := rfl
@[simp] theorem psRaise_psErr (i : Instr) (e : Err) (g : Stage) : (psRaise i e g s).psErr = e := rfl
@[simp] theorem psRaise_psStage (i : Instr) (e : Err) (g : Stage) :
    (psRaise i e g s).psStage = g := rfl
@[simp] theorem psRaise_psBufBase (i : Instr) (e : Err) (g : Stage) :
    (psRaise i e g s).psBufBase = s.psBufBase := rfl
@[simp] theorem psRaise_psBufLen (i : Instr) (e : Err) (g : Stage) :
    (psRaise i e g s).psBufLen = s.psBufLen := rfl
@[simp] theorem psRaise_icPend (i : Instr) (e : Err) (g : Stage) :
    (psRaise i e g s).icPend = s.icPend := rfl
@[simp] theorem psRaise_icCmdl (i : Instr) (e : Err) (g : Stage) :
    (psRaise i e g s).icCmdl = s.icCmdl := rfl
@[simp] theorem psRaise_psPend (i : Instr) (e : Err) (g : Stage) :
    (psRaise i e g s).psPend = .none := rfl
@[simp] theorem psRaise_psCmdl (i : Instr) (e : Err) (g : Stage) :
    (psRaise i e g s).psCmdl = s.psCmdl := rfl
@[simp] theorem psRaise_psSt (i : Instr) (e : Err) (g : Stage) :
    (psRaise i e g s).psSt = psStateAfterError i e s.psSt := rfl
@[simp] theorem psRaise_fsCur (i : Instr) (e : Err) (g : Stage) :
    (psRaise i e g s).fsCur = s.fsCur := rfl
@[simp] theorem psRaise_fsNxt (i : Instr) (e : Err) (g : Stage) :
    (psRaise i e g s).fsNxt = s.fsNxt := rfl
@[simp] theorem psRaise_rstOut (i : Instr) (e : Err) (g : Stage) :
    (psRaise i e g s).rstOut = s.rstOut := rfl
@[simp] theorem psRaise_dcOut (i : Instr) (e : Err) (g : Stage) :
    (psRaise i e g s).dcOut = s.dcOut := rfl
@[simp] theorem psRaise_trace (i : Instr) (e : Err) (g : Stage) :
    (psRaise i e g s).trace = s.trace := rfl
@[simp] theorem psRaise_faults (i : Instr) (e : Err) (g : Stage) :
    (psRaise i e g s).faults = s.faults := rfl
@[simp] theorem psRaise_mem (i : Instr) (e : Err) (g : Stage) : (psRaise i e g s).mem = s.mem := rfl
@[simp] theorem psRaise_agenda (i : Instr) (e : Err) (g : Stage) :
    (psRaise i e g s).agenda = s.agenda := rfl
@[simp] theorem psRaise_acks (i : Instr) (e : Err) (g : Stage) :
    (psRaise i e g s).acks = s.acks := rfl
@[simp] theorem psRaise_busyReads (i : Instr) (e : Err) (g : Stage) :
    (psRaise i e g s).busyReads = s.busyReads := rfl
@[simp] theorem psRaise_draws (i : Instr) (e : Err) (g : Stage) :
    (psRaise i e g s).draws = s.draws := rfl
@[simp] theorem psRaise_replies (i : Instr) (e : Err) (g : Stage) :
    (psRaise i e g s).replies = s.replies := rfl

/-! ### psRaiseIllegal -/

@[simp] theorem psRaiseIllegal_cfg : (psRaiseIllegal s).cfg = s.cfg := rfl
@[simp] theorem psRaiseIllegal_icDone : (psRaiseIllegal s).icDone = s.icDone := rfl
@[simp] theorem psRaiseIllegal_icErr : (psRaiseIllegal s).icErr = s.icErr := rfl
@[simp] theorem psRaiseIllegal_icCause : (psRaiseIllegal s).icCause = s.icCause := rfl
@[simp] theorem psRaiseIllegal_icSrcDim : (psRaiseIllegal s).icSrcDim = s.icSrcDim := rfl
@[simp] theorem psRaiseIllegal_icSrcFmt : (psRaiseIllegal s).icSrcFmt = s.icSrcFmt := rfl
@[simp] theorem psRaiseIllegal_icSrcBase : (psRaiseIllegal s).icSrcBase = s.icSrcBase := rfl
@[simp] theorem psRaiseIllegal_icDstDim : (psRaiseIllegal s).icDstDim = s.icDstDim := rfl
@[simp] theorem psRaiseIllegal_icMode : (psRaiseIllegal s).icMode = s.icMode := rfl
@[simp] theorem psRaiseIllegal_icDstBase : (psRaiseIllegal s).icDstBase = s.icDstBase := rfl
@[simp] theorem psRaiseIllegal_icDstCap : (psRaiseIllegal s).icDstCap = s.icDstCap := rfl
@[simp] theorem psRaiseIllegal_icOutLen : (psRaiseIllegal s).icOutLen = s.icOutLen := rfl
@[simp] theorem psRaiseIllegal_psDone : (psRaiseIllegal s).psDone = true := rfl
@[simp] theorem psRaiseIllegal_psErr : (psRaiseIllegal s).psErr = .illegalCommand := rfl
@[simp] theorem psRaiseIllegal_psStage : (psRaiseIllegal s).psStage = .validate := rfl
@[simp] theorem psRaiseIllegal_psBufBase : (psRaiseIllegal s).psBufBase = s.psBufBase := rfl
@[simp] theorem psRaiseIllegal_psBufLen : (psRaiseIllegal s).psBufLen = s.psBufLen := rfl
@[simp] theorem psRaiseIllegal_icPend : (psRaiseIllegal s).icPend = s.icPend := rfl
@[simp] theorem psRaiseIllegal_icCmdl : (psRaiseIllegal s).icCmdl = s.icCmdl := rfl
@[simp] theorem psRaiseIllegal_psPend : (psRaiseIllegal s).psPend = .none := rfl
@[simp] theorem psRaiseIllegal_psCmdl : (psRaiseIllegal s).psCmdl = s.psCmdl := rfl
@[simp] theorem psRaiseIllegal_psSt : (psRaiseIllegal s).psSt = s.psSt := rfl
@[simp] theorem psRaiseIllegal_fsCur : (psRaiseIllegal s).fsCur = s.fsCur := rfl
@[simp] theorem psRaiseIllegal_fsNxt : (psRaiseIllegal s).fsNxt = s.fsNxt := rfl
@[simp] theorem psRaiseIllegal_rstOut : (psRaiseIllegal s).rstOut = s.rstOut := rfl
@[simp] theorem psRaiseIllegal_dcOut : (psRaiseIllegal s).dcOut = s.dcOut := rfl
@[simp] theorem psRaiseIllegal_trace : (psRaiseIllegal s).trace = s.trace := rfl
@[simp] theorem psRaiseIllegal_faults : (psRaiseIllegal s).faults = s.faults := rfl
@[simp] theorem psRaiseIllegal_mem : (psRaiseIllegal s).mem = s.mem := rfl
@[simp] theorem psRaiseIllegal_agenda : (psRaiseIllegal s).agenda = s.agenda := rfl
@[simp] theorem psRaiseIllegal_acks : (psRaiseIllegal s).acks = s.acks := rfl
@[simp] theorem psRaiseIllegal_busyReads : (psRaiseIllegal s).busyReads = s.busyReads := rfl
@[simp] theorem psRaiseIllegal_draws : (psRaiseIllegal s).draws = s.draws := rfl
@[simp] theorem psRaiseIllegal_replies : (psRaiseIllegal s).replies = s.replies := rfl

/-! ### psUnwritten -/

@[simp] theorem psUnwritten_cfg (a : Nat) : (psUnwritten a s).cfg = s.cfg := rfl
@[simp] theorem psUnwritten_icDone (a : Nat) : (psUnwritten a s).icDone = s.icDone := rfl
@[simp] theorem psUnwritten_icErr (a : Nat) : (psUnwritten a s).icErr = s.icErr := rfl
@[simp] theorem psUnwritten_icCause (a : Nat) : (psUnwritten a s).icCause = s.icCause := rfl
@[simp] theorem psUnwritten_icSrcDim (a : Nat) : (psUnwritten a s).icSrcDim = s.icSrcDim := rfl
@[simp] theorem psUnwritten_icSrcFmt (a : Nat) : (psUnwritten a s).icSrcFmt = s.icSrcFmt := rfl
@[simp] theorem psUnwritten_icSrcBase (a : Nat) : (psUnwritten a s).icSrcBase = s.icSrcBase := rfl
@[simp] theorem psUnwritten_icDstDim (a : Nat) : (psUnwritten a s).icDstDim = s.icDstDim := rfl
@[simp] theorem psUnwritten_icMode (a : Nat) : (psUnwritten a s).icMode = s.icMode := rfl
@[simp] theorem psUnwritten_icDstBase (a : Nat) : (psUnwritten a s).icDstBase = s.icDstBase := rfl
@[simp] theorem psUnwritten_icDstCap (a : Nat) : (psUnwritten a s).icDstCap = s.icDstCap := rfl
@[simp] theorem psUnwritten_icOutLen (a : Nat) : (psUnwritten a s).icOutLen = s.icOutLen := rfl
@[simp] theorem psUnwritten_psDone (a : Nat) : (psUnwritten a s).psDone = s.psDone := rfl
@[simp] theorem psUnwritten_psErr (a : Nat) : (psUnwritten a s).psErr = s.psErr := rfl
@[simp] theorem psUnwritten_psStage (a : Nat) : (psUnwritten a s).psStage = s.psStage := rfl
@[simp] theorem psUnwritten_psBufBase (a : Nat) : (psUnwritten a s).psBufBase = s.psBufBase := rfl
@[simp] theorem psUnwritten_psBufLen (a : Nat) : (psUnwritten a s).psBufLen = s.psBufLen := rfl
@[simp] theorem psUnwritten_icPend (a : Nat) : (psUnwritten a s).icPend = s.icPend := rfl
@[simp] theorem psUnwritten_icCmdl (a : Nat) : (psUnwritten a s).icCmdl = s.icCmdl := rfl
@[simp] theorem psUnwritten_psPend (a : Nat) : (psUnwritten a s).psPend = .none := rfl
@[simp] theorem psUnwritten_psCmdl (a : Nat) : (psUnwritten a s).psCmdl = s.psCmdl := rfl
@[simp] theorem psUnwritten_psSt (a : Nat) : (psUnwritten a s).psSt = s.psSt := rfl
@[simp] theorem psUnwritten_fsCur (a : Nat) : (psUnwritten a s).fsCur = s.fsCur := rfl
@[simp] theorem psUnwritten_fsNxt (a : Nat) : (psUnwritten a s).fsNxt = s.fsNxt := rfl
@[simp] theorem psUnwritten_rstOut (a : Nat) : (psUnwritten a s).rstOut = s.rstOut := rfl
@[simp] theorem psUnwritten_dcOut (a : Nat) : (psUnwritten a s).dcOut = s.dcOut := rfl
@[simp] theorem psUnwritten_trace (a : Nat) : (psUnwritten a s).trace = s.trace := rfl
@[simp] theorem psUnwritten_faults (a : Nat) :
    (psUnwritten a s).faults = s.faults ++ [.unwrittenRead a] := rfl
@[simp] theorem psUnwritten_mem (a : Nat) : (psUnwritten a s).mem = s.mem := rfl
@[simp] theorem psUnwritten_agenda (a : Nat) : (psUnwritten a s).agenda = s.agenda := rfl
@[simp] theorem psUnwritten_acks (a : Nat) : (psUnwritten a s).acks = s.acks := rfl
@[simp] theorem psUnwritten_busyReads (a : Nat) : (psUnwritten a s).busyReads = s.busyReads := rfl
@[simp] theorem psUnwritten_draws (a : Nat) : (psUnwritten a s).draws = s.draws := rfl
@[simp] theorem psUnwritten_replies (a : Nat) : (psUnwritten a s).replies = s.replies := rfl

/-! ### emit -/

@[simp] theorem emit_cfg (e : HalEvent) : (emit e s).cfg = s.cfg := rfl
@[simp] theorem emit_icDone (e : HalEvent) : (emit e s).icDone = s.icDone := rfl
@[simp] theorem emit_icErr (e : HalEvent) : (emit e s).icErr = s.icErr := rfl
@[simp] theorem emit_icCause (e : HalEvent) : (emit e s).icCause = s.icCause := rfl
@[simp] theorem emit_icSrcDim (e : HalEvent) : (emit e s).icSrcDim = s.icSrcDim := rfl
@[simp] theorem emit_icSrcFmt (e : HalEvent) : (emit e s).icSrcFmt = s.icSrcFmt := rfl
@[simp] theorem emit_icSrcBase (e : HalEvent) : (emit e s).icSrcBase = s.icSrcBase := rfl
@[simp] theorem emit_icDstDim (e : HalEvent) : (emit e s).icDstDim = s.icDstDim := rfl
@[simp] theorem emit_icMode (e : HalEvent) : (emit e s).icMode = s.icMode := rfl
@[simp] theorem emit_icDstBase (e : HalEvent) : (emit e s).icDstBase = s.icDstBase := rfl
@[simp] theorem emit_icDstCap (e : HalEvent) : (emit e s).icDstCap = s.icDstCap := rfl
@[simp] theorem emit_icOutLen (e : HalEvent) : (emit e s).icOutLen = s.icOutLen := rfl
@[simp] theorem emit_psDone (e : HalEvent) : (emit e s).psDone = s.psDone := rfl
@[simp] theorem emit_psErr (e : HalEvent) : (emit e s).psErr = s.psErr := rfl
@[simp] theorem emit_psStage (e : HalEvent) : (emit e s).psStage = s.psStage := rfl
@[simp] theorem emit_psBufBase (e : HalEvent) : (emit e s).psBufBase = s.psBufBase := rfl
@[simp] theorem emit_psBufLen (e : HalEvent) : (emit e s).psBufLen = s.psBufLen := rfl
@[simp] theorem emit_icPend (e : HalEvent) : (emit e s).icPend = s.icPend := rfl
@[simp] theorem emit_icCmdl (e : HalEvent) : (emit e s).icCmdl = s.icCmdl := rfl
@[simp] theorem emit_psPend (e : HalEvent) : (emit e s).psPend = s.psPend := rfl
@[simp] theorem emit_psCmdl (e : HalEvent) : (emit e s).psCmdl = s.psCmdl := rfl
@[simp] theorem emit_psSt (e : HalEvent) : (emit e s).psSt = s.psSt := rfl
@[simp] theorem emit_fsCur (e : HalEvent) : (emit e s).fsCur = s.fsCur := rfl
@[simp] theorem emit_fsNxt (e : HalEvent) : (emit e s).fsNxt = s.fsNxt := rfl
@[simp] theorem emit_rstOut (e : HalEvent) : (emit e s).rstOut = s.rstOut := rfl
@[simp] theorem emit_dcOut (e : HalEvent) : (emit e s).dcOut = s.dcOut := rfl
@[simp] theorem emit_trace (e : HalEvent) : (emit e s).trace = s.trace ++ [e] := rfl
@[simp] theorem emit_faults (e : HalEvent) : (emit e s).faults = s.faults := rfl
@[simp] theorem emit_mem (e : HalEvent) : (emit e s).mem = s.mem := rfl
@[simp] theorem emit_agenda (e : HalEvent) : (emit e s).agenda = s.agenda := rfl
@[simp] theorem emit_acks (e : HalEvent) : (emit e s).acks = s.acks := rfl
@[simp] theorem emit_busyReads (e : HalEvent) : (emit e s).busyReads = s.busyReads := rfl
@[simp] theorem emit_draws (e : HalEvent) : (emit e s).draws = s.draws := rfl
@[simp] theorem emit_replies (e : HalEvent) : (emit e s).replies = s.replies := rfl

/-! ### sendReply -/

@[simp] theorem sendReply_cfg (r : Reply) : (sendReply r s).cfg = s.cfg := rfl
@[simp] theorem sendReply_icDone (r : Reply) : (sendReply r s).icDone = s.icDone := rfl
@[simp] theorem sendReply_icErr (r : Reply) : (sendReply r s).icErr = s.icErr := rfl
@[simp] theorem sendReply_icCause (r : Reply) : (sendReply r s).icCause = s.icCause := rfl
@[simp] theorem sendReply_icSrcDim (r : Reply) : (sendReply r s).icSrcDim = s.icSrcDim := rfl
@[simp] theorem sendReply_icSrcFmt (r : Reply) : (sendReply r s).icSrcFmt = s.icSrcFmt := rfl
@[simp] theorem sendReply_icSrcBase (r : Reply) : (sendReply r s).icSrcBase = s.icSrcBase := rfl
@[simp] theorem sendReply_icDstDim (r : Reply) : (sendReply r s).icDstDim = s.icDstDim := rfl
@[simp] theorem sendReply_icMode (r : Reply) : (sendReply r s).icMode = s.icMode := rfl
@[simp] theorem sendReply_icDstBase (r : Reply) : (sendReply r s).icDstBase = s.icDstBase := rfl
@[simp] theorem sendReply_icDstCap (r : Reply) : (sendReply r s).icDstCap = s.icDstCap := rfl
@[simp] theorem sendReply_icOutLen (r : Reply) : (sendReply r s).icOutLen = s.icOutLen := rfl
@[simp] theorem sendReply_psDone (r : Reply) : (sendReply r s).psDone = s.psDone := rfl
@[simp] theorem sendReply_psErr (r : Reply) : (sendReply r s).psErr = s.psErr := rfl
@[simp] theorem sendReply_psStage (r : Reply) : (sendReply r s).psStage = s.psStage := rfl
@[simp] theorem sendReply_psBufBase (r : Reply) : (sendReply r s).psBufBase = s.psBufBase := rfl
@[simp] theorem sendReply_psBufLen (r : Reply) : (sendReply r s).psBufLen = s.psBufLen := rfl
@[simp] theorem sendReply_icPend (r : Reply) : (sendReply r s).icPend = s.icPend := rfl
@[simp] theorem sendReply_icCmdl (r : Reply) : (sendReply r s).icCmdl = s.icCmdl := rfl
@[simp] theorem sendReply_psPend (r : Reply) : (sendReply r s).psPend = s.psPend := rfl
@[simp] theorem sendReply_psCmdl (r : Reply) : (sendReply r s).psCmdl = s.psCmdl := rfl
@[simp] theorem sendReply_psSt (r : Reply) : (sendReply r s).psSt = s.psSt := rfl
@[simp] theorem sendReply_fsCur (r : Reply) : (sendReply r s).fsCur = s.fsCur := rfl
@[simp] theorem sendReply_fsNxt (r : Reply) : (sendReply r s).fsNxt = s.fsNxt := rfl
@[simp] theorem sendReply_rstOut (r : Reply) : (sendReply r s).rstOut = s.rstOut := rfl
@[simp] theorem sendReply_dcOut (r : Reply) : (sendReply r s).dcOut = s.dcOut := rfl
@[simp] theorem sendReply_trace (r : Reply) : (sendReply r s).trace = s.trace := rfl
@[simp] theorem sendReply_faults (r : Reply) : (sendReply r s).faults = s.faults := rfl
@[simp] theorem sendReply_mem (r : Reply) : (sendReply r s).mem = s.mem := rfl
@[simp] theorem sendReply_agenda (r : Reply) : (sendReply r s).agenda = s.agenda := rfl
@[simp] theorem sendReply_acks (r : Reply) : (sendReply r s).acks = s.acks := rfl
@[simp] theorem sendReply_busyReads (r : Reply) : (sendReply r s).busyReads = s.busyReads := rfl
@[simp] theorem sendReply_draws (r : Reply) : (sendReply r s).draws = s.draws := rfl
@[simp] theorem sendReply_replies (r : Reply) : (sendReply r s).replies = s.replies ++ [r] := rfl

/-! ### takeAck -/

@[simp] theorem takeAck_cfg : (takeAck s).cfg = s.cfg := by unfold takeAck; split <;> rfl
@[simp] theorem takeAck_icDone : (takeAck s).icDone = s.icDone := by unfold takeAck; split <;> rfl
@[simp] theorem takeAck_icErr : (takeAck s).icErr = s.icErr := by unfold takeAck; split <;> rfl
@[simp] theorem takeAck_icCause :
    (takeAck s).icCause = s.icCause := by unfold takeAck; split <;> rfl
@[simp] theorem takeAck_icSrcDim :
    (takeAck s).icSrcDim = s.icSrcDim := by unfold takeAck; split <;> rfl
@[simp] theorem takeAck_icSrcFmt :
    (takeAck s).icSrcFmt = s.icSrcFmt := by unfold takeAck; split <;> rfl
@[simp] theorem takeAck_icSrcBase :
    (takeAck s).icSrcBase = s.icSrcBase := by unfold takeAck; split <;> rfl
@[simp] theorem takeAck_icDstDim :
    (takeAck s).icDstDim = s.icDstDim := by unfold takeAck; split <;> rfl
@[simp] theorem takeAck_icMode : (takeAck s).icMode = s.icMode := by unfold takeAck; split <;> rfl
@[simp] theorem takeAck_icDstBase :
    (takeAck s).icDstBase = s.icDstBase := by unfold takeAck; split <;> rfl
@[simp] theorem takeAck_icDstCap :
    (takeAck s).icDstCap = s.icDstCap := by unfold takeAck; split <;> rfl
@[simp] theorem takeAck_icOutLen :
    (takeAck s).icOutLen = s.icOutLen := by unfold takeAck; split <;> rfl
@[simp] theorem takeAck_psDone : (takeAck s).psDone = s.psDone := by unfold takeAck; split <;> rfl
@[simp] theorem takeAck_psErr : (takeAck s).psErr = s.psErr := by unfold takeAck; split <;> rfl
@[simp] theorem takeAck_psStage :
    (takeAck s).psStage = s.psStage := by unfold takeAck; split <;> rfl
@[simp] theorem takeAck_psBufBase :
    (takeAck s).psBufBase = s.psBufBase := by unfold takeAck; split <;> rfl
@[simp] theorem takeAck_psBufLen :
    (takeAck s).psBufLen = s.psBufLen := by unfold takeAck; split <;> rfl
@[simp] theorem takeAck_icPend : (takeAck s).icPend = s.icPend := by unfold takeAck; split <;> rfl
@[simp] theorem takeAck_icCmdl : (takeAck s).icCmdl = s.icCmdl := by unfold takeAck; split <;> rfl
@[simp] theorem takeAck_psPend : (takeAck s).psPend = s.psPend := by unfold takeAck; split <;> rfl
@[simp] theorem takeAck_psCmdl : (takeAck s).psCmdl = s.psCmdl := by unfold takeAck; split <;> rfl
@[simp] theorem takeAck_psSt : (takeAck s).psSt = s.psSt := by unfold takeAck; split <;> rfl
@[simp] theorem takeAck_fsCur : (takeAck s).fsCur = s.fsCur := by unfold takeAck; split <;> rfl
@[simp] theorem takeAck_fsNxt : (takeAck s).fsNxt = s.fsNxt := by unfold takeAck; split <;> rfl
@[simp] theorem takeAck_rstOut : (takeAck s).rstOut = s.rstOut := by unfold takeAck; split <;> rfl
@[simp] theorem takeAck_dcOut : (takeAck s).dcOut = s.dcOut := by unfold takeAck; split <;> rfl
@[simp] theorem takeAck_trace : (takeAck s).trace = s.trace := by unfold takeAck; split <;> rfl
@[simp] theorem takeAck_faults : (takeAck s).faults = s.faults := by unfold takeAck; split <;> rfl
@[simp] theorem takeAck_mem : (takeAck s).mem = s.mem := by unfold takeAck; split <;> rfl
@[simp] theorem takeAck_agenda : (takeAck s).agenda = s.agenda := by unfold takeAck; split <;> rfl
@[simp] theorem takeAck_busyReads :
    (takeAck s).busyReads = s.busyReads := by unfold takeAck; split <;> rfl
@[simp] theorem takeAck_replies :
    (takeAck s).replies = s.replies := by unfold takeAck; split <;> rfl

/-! ### takeBusy -/

@[simp] theorem takeBusy_cfg : (takeBusy s).cfg = s.cfg := by unfold takeBusy; split <;> rfl
@[simp] theorem takeBusy_icDone :
    (takeBusy s).icDone = s.icDone := by unfold takeBusy; split <;> rfl
@[simp] theorem takeBusy_icErr : (takeBusy s).icErr = s.icErr := by unfold takeBusy; split <;> rfl
@[simp] theorem takeBusy_icCause :
    (takeBusy s).icCause = s.icCause := by unfold takeBusy; split <;> rfl
@[simp] theorem takeBusy_icSrcDim :
    (takeBusy s).icSrcDim = s.icSrcDim := by unfold takeBusy; split <;> rfl
@[simp] theorem takeBusy_icSrcFmt :
    (takeBusy s).icSrcFmt = s.icSrcFmt := by unfold takeBusy; split <;> rfl
@[simp] theorem takeBusy_icSrcBase :
    (takeBusy s).icSrcBase = s.icSrcBase := by unfold takeBusy; split <;> rfl
@[simp] theorem takeBusy_icDstDim :
    (takeBusy s).icDstDim = s.icDstDim := by unfold takeBusy; split <;> rfl
@[simp] theorem takeBusy_icMode :
    (takeBusy s).icMode = s.icMode := by unfold takeBusy; split <;> rfl
@[simp] theorem takeBusy_icDstBase :
    (takeBusy s).icDstBase = s.icDstBase := by unfold takeBusy; split <;> rfl
@[simp] theorem takeBusy_icDstCap :
    (takeBusy s).icDstCap = s.icDstCap := by unfold takeBusy; split <;> rfl
@[simp] theorem takeBusy_icOutLen :
    (takeBusy s).icOutLen = s.icOutLen := by unfold takeBusy; split <;> rfl
@[simp] theorem takeBusy_psDone :
    (takeBusy s).psDone = s.psDone := by unfold takeBusy; split <;> rfl
@[simp] theorem takeBusy_psErr : (takeBusy s).psErr = s.psErr := by unfold takeBusy; split <;> rfl
@[simp] theorem takeBusy_psStage :
    (takeBusy s).psStage = s.psStage := by unfold takeBusy; split <;> rfl
@[simp] theorem takeBusy_psBufBase :
    (takeBusy s).psBufBase = s.psBufBase := by unfold takeBusy; split <;> rfl
@[simp] theorem takeBusy_psBufLen :
    (takeBusy s).psBufLen = s.psBufLen := by unfold takeBusy; split <;> rfl
@[simp] theorem takeBusy_icPend :
    (takeBusy s).icPend = s.icPend := by unfold takeBusy; split <;> rfl
@[simp] theorem takeBusy_icCmdl :
    (takeBusy s).icCmdl = s.icCmdl := by unfold takeBusy; split <;> rfl
@[simp] theorem takeBusy_psPend :
    (takeBusy s).psPend = s.psPend := by unfold takeBusy; split <;> rfl
@[simp] theorem takeBusy_psCmdl :
    (takeBusy s).psCmdl = s.psCmdl := by unfold takeBusy; split <;> rfl
@[simp] theorem takeBusy_psSt : (takeBusy s).psSt = s.psSt := by unfold takeBusy; split <;> rfl
@[simp] theorem takeBusy_fsCur : (takeBusy s).fsCur = s.fsCur := by unfold takeBusy; split <;> rfl
@[simp] theorem takeBusy_fsNxt : (takeBusy s).fsNxt = s.fsNxt := by unfold takeBusy; split <;> rfl
@[simp] theorem takeBusy_rstOut :
    (takeBusy s).rstOut = s.rstOut := by unfold takeBusy; split <;> rfl
@[simp] theorem takeBusy_dcOut : (takeBusy s).dcOut = s.dcOut := by unfold takeBusy; split <;> rfl
@[simp] theorem takeBusy_trace : (takeBusy s).trace = s.trace := by unfold takeBusy; split <;> rfl
@[simp] theorem takeBusy_faults :
    (takeBusy s).faults = s.faults := by unfold takeBusy; split <;> rfl
@[simp] theorem takeBusy_mem : (takeBusy s).mem = s.mem := by unfold takeBusy; split <;> rfl
@[simp] theorem takeBusy_agenda :
    (takeBusy s).agenda = s.agenda := by unfold takeBusy; split <;> rfl
@[simp] theorem takeBusy_acks : (takeBusy s).acks = s.acks := by unfold takeBusy; split <;> rfl
@[simp] theorem takeBusy_replies :
    (takeBusy s).replies = s.replies := by unfold takeBusy; split <;> rfl

/-! ### setPin -/

@[simp] theorem setPin_cfg (p : OutPin) (l : Level) :
    (setPin p l s).cfg = s.cfg := by cases p <;> rfl
@[simp] theorem setPin_icDone (p : OutPin) (l : Level) :
    (setPin p l s).icDone = s.icDone := by cases p <;> rfl
@[simp] theorem setPin_icErr (p : OutPin) (l : Level) :
    (setPin p l s).icErr = s.icErr := by cases p <;> rfl
@[simp] theorem setPin_icCause (p : OutPin) (l : Level) :
    (setPin p l s).icCause = s.icCause := by cases p <;> rfl
@[simp] theorem setPin_icSrcDim (p : OutPin) (l : Level) :
    (setPin p l s).icSrcDim = s.icSrcDim := by cases p <;> rfl
@[simp] theorem setPin_icSrcFmt (p : OutPin) (l : Level) :
    (setPin p l s).icSrcFmt = s.icSrcFmt := by cases p <;> rfl
@[simp] theorem setPin_icSrcBase (p : OutPin) (l : Level) :
    (setPin p l s).icSrcBase = s.icSrcBase := by cases p <;> rfl
@[simp] theorem setPin_icDstDim (p : OutPin) (l : Level) :
    (setPin p l s).icDstDim = s.icDstDim := by cases p <;> rfl
@[simp] theorem setPin_icMode (p : OutPin) (l : Level) :
    (setPin p l s).icMode = s.icMode := by cases p <;> rfl
@[simp] theorem setPin_icDstBase (p : OutPin) (l : Level) :
    (setPin p l s).icDstBase = s.icDstBase := by cases p <;> rfl
@[simp] theorem setPin_icDstCap (p : OutPin) (l : Level) :
    (setPin p l s).icDstCap = s.icDstCap := by cases p <;> rfl
@[simp] theorem setPin_icOutLen (p : OutPin) (l : Level) :
    (setPin p l s).icOutLen = s.icOutLen := by cases p <;> rfl
@[simp] theorem setPin_psDone (p : OutPin) (l : Level) :
    (setPin p l s).psDone = s.psDone := by cases p <;> rfl
@[simp] theorem setPin_psErr (p : OutPin) (l : Level) :
    (setPin p l s).psErr = s.psErr := by cases p <;> rfl
@[simp] theorem setPin_psStage (p : OutPin) (l : Level) :
    (setPin p l s).psStage = s.psStage := by cases p <;> rfl
@[simp] theorem setPin_psBufBase (p : OutPin) (l : Level) :
    (setPin p l s).psBufBase = s.psBufBase := by cases p <;> rfl
@[simp] theorem setPin_psBufLen (p : OutPin) (l : Level) :
    (setPin p l s).psBufLen = s.psBufLen := by cases p <;> rfl
@[simp] theorem setPin_icPend (p : OutPin) (l : Level) :
    (setPin p l s).icPend = s.icPend := by cases p <;> rfl
@[simp] theorem setPin_icCmdl (p : OutPin) (l : Level) :
    (setPin p l s).icCmdl = s.icCmdl := by cases p <;> rfl
@[simp] theorem setPin_psPend (p : OutPin) (l : Level) :
    (setPin p l s).psPend = s.psPend := by cases p <;> rfl
@[simp] theorem setPin_psCmdl (p : OutPin) (l : Level) :
    (setPin p l s).psCmdl = s.psCmdl := by cases p <;> rfl
@[simp] theorem setPin_psSt (p : OutPin) (l : Level) :
    (setPin p l s).psSt = s.psSt := by cases p <;> rfl
@[simp] theorem setPin_fsCur (p : OutPin) (l : Level) :
    (setPin p l s).fsCur = s.fsCur := by cases p <;> rfl
@[simp] theorem setPin_fsNxt (p : OutPin) (l : Level) :
    (setPin p l s).fsNxt = s.fsNxt := by cases p <;> rfl
@[simp] theorem setPin_trace (p : OutPin) (l : Level) :
    (setPin p l s).trace = s.trace := by cases p <;> rfl
@[simp] theorem setPin_faults (p : OutPin) (l : Level) :
    (setPin p l s).faults = s.faults := by cases p <;> rfl
@[simp] theorem setPin_mem (p : OutPin) (l : Level) :
    (setPin p l s).mem = s.mem := by cases p <;> rfl
@[simp] theorem setPin_agenda (p : OutPin) (l : Level) :
    (setPin p l s).agenda = s.agenda := by cases p <;> rfl
@[simp] theorem setPin_acks (p : OutPin) (l : Level) :
    (setPin p l s).acks = s.acks := by cases p <;> rfl
@[simp] theorem setPin_busyReads (p : OutPin) (l : Level) :
    (setPin p l s).busyReads = s.busyReads := by cases p <;> rfl
@[simp] theorem setPin_draws (p : OutPin) (l : Level) :
    (setPin p l s).draws = s.draws := by cases p <;> rfl
@[simp] theorem setPin_replies (p : OutPin) (l : Level) :
    (setPin p l s).replies = s.replies := by cases p <;> rfl

/-! ### spoilPin -/

@[simp] theorem spoilPin_cfg (p : OutPin) : (spoilPin p s).cfg = s.cfg := by cases p <;> rfl
@[simp] theorem spoilPin_icDone (p : OutPin) :
    (spoilPin p s).icDone = s.icDone := by cases p <;> rfl
@[simp] theorem spoilPin_icErr (p : OutPin) : (spoilPin p s).icErr = s.icErr := by cases p <;> rfl
@[simp] theorem spoilPin_icCause (p : OutPin) :
    (spoilPin p s).icCause = s.icCause := by cases p <;> rfl
@[simp] theorem spoilPin_icSrcDim (p : OutPin) :
    (spoilPin p s).icSrcDim = s.icSrcDim := by cases p <;> rfl
@[simp] theorem spoilPin_icSrcFmt (p : OutPin) :
    (spoilPin p s).icSrcFmt = s.icSrcFmt := by cases p <;> rfl
@[simp] theorem spoilPin_icSrcBase (p : OutPin) :
    (spoilPin p s).icSrcBase = s.icSrcBase := by cases p <;> rfl
@[simp] theorem spoilPin_icDstDim (p : OutPin) :
    (spoilPin p s).icDstDim = s.icDstDim := by cases p <;> rfl
@[simp] theorem spoilPin_icMode (p : OutPin) :
    (spoilPin p s).icMode = s.icMode := by cases p <;> rfl
@[simp] theorem spoilPin_icDstBase (p : OutPin) :
    (spoilPin p s).icDstBase = s.icDstBase := by cases p <;> rfl
@[simp] theorem spoilPin_icDstCap (p : OutPin) :
    (spoilPin p s).icDstCap = s.icDstCap := by cases p <;> rfl
@[simp] theorem spoilPin_icOutLen (p : OutPin) :
    (spoilPin p s).icOutLen = s.icOutLen := by cases p <;> rfl
@[simp] theorem spoilPin_psDone (p : OutPin) :
    (spoilPin p s).psDone = s.psDone := by cases p <;> rfl
@[simp] theorem spoilPin_psErr (p : OutPin) : (spoilPin p s).psErr = s.psErr := by cases p <;> rfl
@[simp] theorem spoilPin_psStage (p : OutPin) :
    (spoilPin p s).psStage = s.psStage := by cases p <;> rfl
@[simp] theorem spoilPin_psBufBase (p : OutPin) :
    (spoilPin p s).psBufBase = s.psBufBase := by cases p <;> rfl
@[simp] theorem spoilPin_psBufLen (p : OutPin) :
    (spoilPin p s).psBufLen = s.psBufLen := by cases p <;> rfl
@[simp] theorem spoilPin_icPend (p : OutPin) :
    (spoilPin p s).icPend = s.icPend := by cases p <;> rfl
@[simp] theorem spoilPin_icCmdl (p : OutPin) :
    (spoilPin p s).icCmdl = s.icCmdl := by cases p <;> rfl
@[simp] theorem spoilPin_psPend (p : OutPin) :
    (spoilPin p s).psPend = s.psPend := by cases p <;> rfl
@[simp] theorem spoilPin_psCmdl (p : OutPin) :
    (spoilPin p s).psCmdl = s.psCmdl := by cases p <;> rfl
@[simp] theorem spoilPin_psSt (p : OutPin) : (spoilPin p s).psSt = s.psSt := by cases p <;> rfl
@[simp] theorem spoilPin_fsCur (p : OutPin) : (spoilPin p s).fsCur = s.fsCur := by cases p <;> rfl
@[simp] theorem spoilPin_fsNxt (p : OutPin) : (spoilPin p s).fsNxt = s.fsNxt := by cases p <;> rfl
@[simp] theorem spoilPin_trace (p : OutPin) : (spoilPin p s).trace = s.trace := by cases p <;> rfl
@[simp] theorem spoilPin_faults (p : OutPin) :
    (spoilPin p s).faults = s.faults := by cases p <;> rfl
@[simp] theorem spoilPin_mem (p : OutPin) : (spoilPin p s).mem = s.mem := by cases p <;> rfl
@[simp] theorem spoilPin_agenda (p : OutPin) :
    (spoilPin p s).agenda = s.agenda := by cases p <;> rfl
@[simp] theorem spoilPin_acks (p : OutPin) : (spoilPin p s).acks = s.acks := by cases p <;> rfl
@[simp] theorem spoilPin_busyReads (p : OutPin) :
    (spoilPin p s).busyReads = s.busyReads := by cases p <;> rfl
@[simp] theorem spoilPin_draws (p : OutPin) :
    (spoilPin p s).draws = s.draws + 1 := by cases p <;> rfl
@[simp] theorem spoilPin_replies (p : OutPin) :
    (spoilPin p s).replies = s.replies := by cases p <;> rfl

/-! ### What the HAL updates put into the fields they change -/

@[simp] theorem setPin_rst_rstOut (l : Level) : (setPin .rst l s).rstOut = l := rfl
@[simp] theorem setPin_rst_dcOut (l : Level) : (setPin .rst l s).dcOut = s.dcOut := rfl
@[simp] theorem setPin_dc_dcOut (l : Level) : (setPin .dc l s).dcOut = l := rfl
@[simp] theorem setPin_dc_rstOut (l : Level) : (setPin .dc l s).rstOut = s.rstOut := rfl

theorem takeAck_cons {a : Ack} {rest : List Ack} (h : s.acks = a :: rest) :
    nextAck s = a ∧ takeAck s = { s with acks := rest } := by simp [nextAck, takeAck, h]

theorem takeBusy_cons {a : BusyAnswer} {rest : List BusyAnswer} (h : s.busyReads = a :: rest) :
    nextBusy s = a ∧ takeBusy s = { s with busyReads := rest } := by simp [nextBusy, takeBusy, h]

end Sys2Proof.Machine
end

