-- ==== Sys2Proof/Laws/Hal.lean ====
section
/-! SUPPORT. What the HAL calls and the protocol primitives can do: each changes only TRACE, the pin latches and
ENV's inputs, and only appends to TRACE (40_panel_primitives.md R100 to R112; 10_state.md R46). -/

namespace Sys2Proof.Machine

open Sys2Proof.Safety

/-- The state a HAL run ends in, whether it ended or raised. -/
def HalRun.state : HalRun → State
  | .done s => s
  | .raised _ _ s => s

@[simp] theorem HalRun.state_done (s : State) : (HalRun.done s).state = s := rfl

@[simp] theorem HalRun.state_raised (e : Err) (g : Stage) (s : State) :
    (HalRun.raised e g s).state = s := rfl

/-- `t` comes after `s` by HAL calls only: the frame, and a longer TRACE. -/
def HalStep (s t : State) : Prop := HalFrame s t ∧ s.trace <+: t.trace

theorem HalStep.refl (s : State) : HalStep s s := ⟨rfl, List.prefix_refl _⟩

theorem HalStep.trans {s t u : State} (h : HalStep s t) (k : HalStep t u) : HalStep s u := by
  refine ⟨?_, h.2.trans k.2⟩
  have h1 := h.1
  have k1 := k.1
  unfold HalFrame at *
  rw [k1, h1]

theorem HalStep.cfg {s t : State} (h : HalStep s t) : t.cfg = s.cfg := by
  have := h.1
  unfold HalFrame at this
  rw [this]

theorem halStep_emit_takeAck (e : HalEvent) (s : State) : HalStep s (emit e (takeAck s)) := by
  refine ⟨?_, by simp⟩
  unfold HalFrame takeAck emit
  split <;> rfl

theorem halStep_emit_takeBusy (e : HalEvent) (s : State) : HalStep s (emit e (takeBusy s)) := by
  refine ⟨?_, by simp⟩
  unfold HalFrame takeBusy emit
  split <;> rfl

theorem halStep_setPin (p : OutPin) (l : Level) (s : State) : HalStep s (setPin p l s) :=
  ⟨by cases p <;> rfl, by simp⟩

theorem halStep_spoilPin (p : OutPin) (s : State) : HalStep s (spoilPin p s) :=
  ⟨by cases p <;> rfl, by simp⟩

/-- What SpiWrite can do: ENV's answer decides between going on and TRANSPORT_ERROR (R100). -/
theorem spiWrite_cases (g : Stage) (b : Byte) (s : State) :
    (nextAck s = .ok ∧ spiWrite g b s = .done (emit (.spiWrite b .ok) (takeAck s))) ∨
    (nextAck s = .fail ∧
      spiWrite g b s = .raised .transportError g (emit (.spiWrite b .fail) (takeAck s))) := by
  unfold spiWrite
  cases nextAck s <;> simp

/-- What PinWrite can do (R100, R101). -/
theorem pinWrite_cases (g : Stage) (p : OutPin) (l : Level) (s : State) :
    (nextAck s = .ok ∧
      pinWrite g p l s = .done (setPin p l (emit (.pinWrite p l .ok) (takeAck s)))) ∨
    (nextAck s = .fail ∧
      pinWrite g p l s =
        .raised .transportError g (spoilPin p (emit (.pinWrite p l .fail) (takeAck s)))) := by
  unfold pinWrite
  cases nextAck s <;> simp

/-- What one read of a busy poll can do (R100, R105). -/
theorem pollRead_cases (g : Stage) (k : State → HalRun) (s : State) :
    (nextBusy s = .fail ∧
      pollRead g k s = .raised .transportError g (emit (.pinRead .fail) (takeBusy s))) ∨
    (∃ l, nextBusy s = .level l ∧ l = s.cfg.busyReadyLevel ∧
      pollRead g k s = .done (emit (.pinRead (.level l)) (takeBusy s))) ∨
    (∃ l, nextBusy s = .level l ∧ l ≠ s.cfg.busyReadyLevel ∧
      pollRead g k s = k (emit (.pinRead (.level l)) (takeBusy s))) := by
  unfold pollRead
  cases h : nextBusy s with
  | fail => exact .inl ⟨rfl, rfl⟩
  | level l =>
    by_cases hl : l = s.cfg.busyReadyLevel
    · exact .inr (.inl ⟨l, rfl, hl, by simp [hl]⟩)
    · exact .inr (.inr ⟨l, rfl, hl, by simp [hl]⟩)

/-- Sequencing: the first part ended and the second ran, or the first part raised (00_scope.md R11). -/
theorem halThen_cases (r : HalRun) (k : State → HalRun) :
    (∃ s, r = .done s ∧ halThen r k = k s) ∨
    (∃ e g s, r = .raised e g s ∧ halThen r k = .raised e g s) := by
  cases r with
  | done s => exact .inl ⟨s, rfl, rfl⟩
  | raised e g s => exact .inr ⟨e, g, s, rfl, rfl⟩

theorem halStep_halThen {s : State} {r : HalRun} {k : State → HalRun} (hr : HalStep s r.state)
    (hk : ∀ t, HalStep t (k t).state) : HalStep s (halThen r k).state := by
  obtain ⟨t, rfl, e⟩ | ⟨e, g, t, rfl, h⟩ := halThen_cases r k
  · rw [e]; exact hr.trans (hk t)
  · rw [h]; exact hr

theorem halStep_spiWrite (g : Stage) (b : Byte) (s : State) : HalStep s (spiWrite g b s).state := by
  obtain ⟨-, h⟩ | ⟨-, h⟩ := spiWrite_cases g b s <;> rw [h] <;> exact halStep_emit_takeAck _ s

theorem halStep_pinWrite (g : Stage) (p : OutPin) (l : Level) (s : State) :
    HalStep s (pinWrite g p l s).state := by
  obtain ⟨-, h⟩ | ⟨-, h⟩ := pinWrite_cases g p l s <;> rw [h]
  · exact (halStep_emit_takeAck _ s).trans (halStep_setPin ..)
  · exact (halStep_emit_takeAck _ s).trans (halStep_spoilPin ..)

theorem halStep_halDelay (ms : Nat) (s : State) : HalStep s (halDelay ms s).state :=
  ⟨rfl, by simp [halDelay]⟩

theorem halStep_sendBytes (g : Stage) (bs : List Byte) (s : State) :
    HalStep s (sendBytes g bs s).state := by
  induction bs generalizing s with
  | nil => exact HalStep.refl s
  | cons b bs ih => exact halStep_halThen (halStep_spiWrite g b s) ih

theorem halStep_sendCommand (g : Stage) (opc : Byte) (bs : List Byte) (s : State) :
    HalStep s (sendCommand g opc bs s).state :=
  halStep_halThen (halStep_pinWrite ..) fun _ =>
    halStep_halThen (halStep_spiWrite ..) fun _ =>
      halStep_halThen (halStep_pinWrite ..) fun _ => halStep_sendBytes ..

theorem halStep_resetPulse (s : State) : HalStep s (resetPulse s).state :=
  halStep_halThen (halStep_pinWrite ..) fun _ =>
    halStep_halThen (halStep_halDelay ..) fun _ => halStep_pinWrite ..

theorem halStep_pollRead (g : Stage) {k : State → HalRun} (hk : ∀ t, HalStep t (k t).state)
    (s : State) : HalStep s (pollRead g k s).state := by
  obtain ⟨-, h⟩ | ⟨l, -, -, h⟩ | ⟨l, -, -, h⟩ := pollRead_cases g k s <;> rw [h]
  · exact halStep_emit_takeBusy _ s
  · exact halStep_emit_takeBusy _ s
  · exact (halStep_emit_takeBusy _ s).trans (hk _)

theorem halStep_pollLoop (e : Err) (g : Stage) (n : Nat) (s : State) :
    HalStep s (pollLoop e g n s).state := by
  induction n generalizing s with
  | zero => exact halStep_pollRead g (k := fun t => .raised e g t) (fun t => HalStep.refl t) s
  | succ n ih => exact halStep_pollRead g (fun t => halStep_halThen (halStep_halDelay ..) ih) s

theorem halStep_busyPoll (e : Err) (g : Stage) (s : State) : HalStep s (busyPoll e g s).state :=
  halStep_pollLoop ..

theorem halStep_execStep (e : Err) (g : Stage) (p : PanelStep) (s : State) :
    HalStep s (execStep e g p s).state := by
  cases p with
  | cmd opc bs => exact halStep_sendCommand ..
  | delay ms => exact halStep_halDelay ..
  | waitBusy => exact halStep_busyPoll ..

theorem halStep_execSteps (e : Err) (g : Stage) (ps : List PanelStep) (s : State) :
    HalStep s (execSteps e g ps s).state := by
  induction ps generalizing s with
  | nil => exact HalStep.refl s
  | cons p ps ih => exact halStep_halThen (halStep_execStep ..) ih

theorem halStep_sleepSeq (s : State) : HalStep s (sleepSeq s).state := halStep_sendCommand ..

theorem halStep_refreshPanel (s : State) : HalStep s (refreshPanel s).state :=
  halStep_halThen (halStep_sendCommand ..) fun _ => halStep_busyPoll ..

theorem halStep_transferRun (bs : List Byte) (s : State) : HalStep s (transferRun bs s).state :=
  halStep_halThen (halStep_sendCommand ..) fun _ => halStep_refreshPanel _

theorem halStep_initializeRun (s : State) : HalStep s (initializeRun s).state :=
  halStep_halThen (halStep_resetPulse s) fun _ =>
    halStep_halThen (halStep_execSteps ..) fun _ =>
      halStep_halThen (halStep_execSteps ..) fun _ => halStep_busyPoll ..

/-- What the end of a PS command can do (60_exceptions.md R210, R211). -/
theorem psFinish_cases (i : Instr) (h : HandleState) (r : HalRun) :
    (∃ s, r = .done s ∧ psFinish i h r = psCompleteOk h s) ∨
    (∃ e g s, r = .raised e g s ∧ psFinish i h r = psRaise i e g s) := by
  cases r with
  | done s => exact .inl ⟨s, rfl, rfl⟩
  | raised e g s => exact .inr ⟨e, g, s, rfl, rfl⟩

end Sys2Proof.Machine
end

