-- ==== Sys2Proof/Laws/Memory.lean ====
section
/-! SUPPORT. What MEM's operations do: read after write, the canonical form, and runs of bytes
(20_memory.md R61, R62). -/

namespace Sys2Proof.Machine

@[simp] theorem Memory.read_nil (a : Nat) : Memory.read [] a = none := rfl

@[simp] theorem Memory.read_write_self (m : Memory) (a : Nat) (b : Byte) :
    Memory.read (Memory.write m a b) a = some b := by
  induction m with
  | nil => simp [Memory.write, Memory.read]
  | cons c rest ih =>
    obtain ⟨k, v⟩ := c
    unfold Memory.write
    split
    · simp [Memory.read]
    · split
      · simp [Memory.read]
      · rename_i h1 h2
        simp [Memory.read, ih, Ne.symm h2]

theorem Memory.read_write_other (m : Memory) {a x : Nat} (b : Byte) (h : x ≠ a) :
    Memory.read (Memory.write m a b) x = Memory.read m x := by
  induction m with
  | nil => simp [Memory.write, Memory.read, Ne.symm h]
  | cons c rest ih =>
    obtain ⟨k, v⟩ := c
    unfold Memory.write
    split
    · simp [Memory.read, Ne.symm h]
    · split
      · rename_i h2
        subst h2
        simp [Memory.read, Ne.symm h]
      · simp [Memory.read, ih]

/-- Every address of a memory written at `a` is `a` or one it had. -/
theorem Memory.mem_write {m : Memory} {a : Nat} {b : Byte} {d : Host.Cell}
    (h : d ∈ Memory.write m a b) : d.1 = a ∨ d ∈ m := by
  induction m with
  | nil => simp [Memory.write] at h; simp [h]
  | cons c rest ih =>
    obtain ⟨k, v⟩ := c
    unfold Memory.write at h
    split at h
    · rcases List.mem_cons.1 h with rfl | h
      · exact .inl rfl
      · exact .inr h
    · split at h
      · rcases List.mem_cons.1 h with rfl | h
        · exact .inl rfl
        · exact .inr (List.mem_cons_of_mem _ h)
      · rcases List.mem_cons.1 h with rfl | h
        · exact .inr (List.mem_cons_self ..)
        · exact (ih h).imp id (List.mem_cons_of_mem _)

/-- A write keeps the canonical form. -/
theorem Memory.wf_write {m : Memory} (a : Nat) (b : Byte) (h : Memory.wf m = true) :
    Memory.wf (Memory.write m a b) = true := by
  induction m with
  | nil => rfl
  | cons c rest ih =>
    obtain ⟨k, v⟩ := c
    simp only [Memory.wf, Bool.and_eq_true, List.all_eq_true, decide_eq_true_eq] at h
    unfold Memory.write
    split
    · rename_i hlt
      simp only [Memory.wf, Bool.and_eq_true, List.all_eq_true, decide_eq_true_eq]
      refine ⟨fun d hd => ?_, h.1, h.2⟩
      rcases List.mem_cons.1 hd with rfl | hd
      · exact hlt
      · exact Nat.lt_trans hlt (h.1 d hd)
    · split
      · rename_i heq
        subst heq
        simp only [Memory.wf, Bool.and_eq_true, List.all_eq_true, decide_eq_true_eq]
        exact h
      · rename_i h1 h2
        simp only [Memory.wf, Bool.and_eq_true, List.all_eq_true, decide_eq_true_eq]
        refine ⟨fun d hd => ?_, ih h.2⟩
        rcases Memory.mem_write hd with e | hd
        · rw [e]
          omega
        · exact h.1 d hd

/-- The empty memory is in canonical form; it is the memory of `State.reset`. -/
theorem Memory.wf_nil : Memory.wf [] = true := rfl

theorem reset_mem_wf : Memory.wf State.reset.mem = true := rfl

theorem wf_writeBytes {m : Memory} (a : Nat) (bs : List Byte) (h : Memory.wf m = true) :
    Memory.wf (writeBytes m a bs) = true := by
  induction bs generalizing m a with
  | nil => exact h
  | cons b bs ih => exact ih (a + 1) (Memory.wf_write a b h)

/-- A write of a run of bytes leaves every address outside the run alone. -/
theorem read_writeBytes_outside (m : Memory) {a x : Nat} (bs : List Byte)
    (h : x < a ∨ a + bs.length ≤ x) :
    Memory.read (writeBytes m a bs) x = Memory.read m x := by
  induction bs generalizing m a with
  | nil => rfl
  | cons b bs ih =>
    simp only [List.length_cons] at h
    rw [writeBytes, ih _ (by omega), Memory.read_write_other _ _ (by omega)]

/-- A write of a run of bytes puts byte k at address a + k. -/
theorem read_writeBytes_inside (m : Memory) (a : Nat) (bs : List Byte) {k : Nat}
    (h : k < bs.length) : Memory.read (writeBytes m a bs) (a + k) = bs[k]? := by
  induction bs generalizing m a k with
  | nil => simp at h
  | cons b bs ih =>
    cases k with
    | zero =>
      rw [writeBytes, Nat.add_zero, read_writeBytes_outside _ _ (by omega)]
      simp
    | succ k =>
      have hk : k < bs.length := by simpa using h
      have := ih (Memory.write m a b) (a + 1) hk
      rw [writeBytes, show a + (k + 1) = a + 1 + k by omega, this]
      simp

/-- What a successful run of reads returns. -/
theorem readBytes_ok_iff (m : Memory) (a n : Nat) (bs : List Byte) :
    readBytes m a n = .ok bs ↔
      bs.length = n ∧ ∀ k, k < n → Memory.read m (a + k) = bs[k]? := by
  induction n generalizing a bs with
  | zero =>
    simp only [readBytes, Except.ok.injEq, Nat.not_lt_zero, false_implies, implies_true, and_true]
    constructor
    · rintro rfl; rfl
    · intro h; exact (List.length_eq_zero_iff.1 h).symm
  | succ n ih =>
    have shift : ∀ k, a + 1 + k = a + (k + 1) := fun k => by omega
    unfold readBytes
    cases hr : Memory.read m a with
    | none =>
      simp only [reduceCtorEq, false_iff]
      rintro ⟨hl, hk⟩
      have := hk 0 (Nat.succ_pos n)
      rw [Nat.add_zero, hr] at this
      have hb : bs ≠ [] := by rintro rfl; simp at hl
      cases bs with
      | nil => exact hb rfl
      | cons b bs => simp at this
    | some b =>
      cases hrest : readBytes m (a + 1) n with
      | error e =>
        simp only [reduceCtorEq, false_iff]
        rintro ⟨hl, hk⟩
        have hok := (ih (a + 1) bs.tail).2
          ⟨by simp [hl], fun k hkn => by
            rw [shift, hk (k + 1) (by omega)]; simp⟩
        rw [hrest] at hok
        cases hok
      | ok cs =>
        have hcs := (ih (a + 1) cs).1 hrest
        simp only [Except.ok.injEq]
        constructor
        · rintro rfl
          refine ⟨by simp [hcs.1], fun k hk => ?_⟩
          cases k with
          | zero => simp [hr]
          | succ k => rw [← shift, hcs.2 k (by omega)]; simp
        · rintro ⟨hl, hk⟩
          cases bs with
          | nil => simp at hl
          | cons b' bs' =>
            have h0 := hk 0 (Nat.succ_pos n)
            rw [Nat.add_zero, hr] at h0
            simp only [List.getElem?_cons_zero, Option.some.injEq] at h0
            have htail := (ih (a + 1) bs').2
              ⟨by simpa using hl, fun k hkn => by
                rw [shift, hk (k + 1) (by omega)]; simp⟩
            rw [hrest, Except.ok.injEq] at htail
            rw [h0, htail]

/-- Where a run of reads stops: the lowest address that is unwritten. -/
theorem readBytes_error_iff (m : Memory) (a n e : Nat) :
    readBytes m a n = .error e ↔
      a ≤ e ∧ e < a + n ∧ Memory.read m e = none
        ∧ ∀ x, a ≤ x → x < e → Memory.read m x ≠ none := by
  induction n generalizing a with
  | zero =>
    simp only [readBytes, reduceCtorEq, false_iff]
    omega
  | succ n ih =>
    unfold readBytes
    cases hr : Memory.read m a with
    | none =>
      simp only [Except.error.injEq]
      constructor
      · rintro rfl
        exact ⟨le_refl _, by omega, hr, fun x h1 h2 => by omega⟩
      · rintro ⟨h1, -, -, h4⟩
        by_contra hne
        exact h4 a (le_refl _) (by omega) hr
    | some b =>
      have key : (a ≤ e ∧ e < a + (n + 1) ∧ Memory.read m e = none
          ∧ ∀ x, a ≤ x → x < e → Memory.read m x ≠ none) ↔
          (a + 1 ≤ e ∧ e < a + 1 + n ∧ Memory.read m e = none
          ∧ ∀ x, a + 1 ≤ x → x < e → Memory.read m x ≠ none) := by
        constructor
        · rintro ⟨h1, h2, h3, h4⟩
          have : e ≠ a := by rintro rfl; simp [hr] at h3
          exact ⟨by omega, by omega, h3, fun x hx hx' => h4 x (by omega) hx'⟩
        · rintro ⟨h1, h2, h3, h4⟩
          refine ⟨by omega, by omega, h3, fun x hx hx' => ?_⟩
          rcases Nat.eq_or_lt_of_le hx with rfl | hlt
          · simp [hr]
          · exact h4 x hlt hx'
      rw [key, ← ih (a + 1)]
      cases readBytes m (a + 1) n <;> simp

end Sys2Proof.Machine
end

