-- ==== Sys2Proof/Laws/Cases.lean ====
section
/-! SUPPORT. Once for each command, transaction and turn: everything it can do, so that no later proof unfolds
it. -/

namespace Sys2Proof.Machine

/-- CONVERT: a check fails, a source byte is unwritten, or the buffer is stored (42_convert.md R151 to R154). -/
theorem convertStep_cases (s : State) :
    (∃ e c, convertCheck s = .error (e, c) ∧ convertStep s = icRaiseConvert e c s) ∨
    (∃ m a, convertCheck s = .ok m ∧ readBytes s.mem (srcBase s) (srcLen s) = .error a ∧
      convertStep s = icUnwritten a s) ∨
    (∃ m src, convertCheck s = .ok m ∧ readBytes s.mem (srcBase s) (srcLen s) = .ok src ∧
      convertStep s = convertStore m src s) := by
  unfold convertStep
  cases hc : convertCheck s with
  | error ec => exact .inl ⟨ec.1, ec.2, rfl, rfl⟩
  | ok m =>
    cases hr : readBytes s.mem (srcBase s) (srcLen s) with
    | error a => exact .inr (.inl ⟨m, a, rfl, rfl, rfl⟩)
    | ok src => exact .inr (.inr ⟨m, src, rfl, rfl, rfl⟩)

/-- What a CONVERT that passes every check knows (42_convert.md R152). -/
theorem convertCheck_ok_iff (s : State) (m : ColorMode) :
    convertCheck s = .ok m ↔
      ditherField s ≠ 3 ∧ colorOfCode (colorField s) = some m ∧ convertChecksFrom3 m s = none := by
  unfold convertCheck
  split
  · rename_i h; simp [h]
  · rename_i h
    split
    · rename_i hc; simp [hc]
    · rename_i m' hc
      rw [hc]
      split
      · rename_i e hk
        constructor
        · intro h; cases h
        · rintro ⟨-, hm, hn⟩
          cases hm
          rw [hk] at hn
          cases hn
      · rename_i hk
        constructor
        · intro h'
          cases h'
          exact ⟨h, rfl, hk⟩
        · rintro ⟨-, hm, -⟩
          cases hm
          rfl

theorem convertChecksFrom3_none_iff (m : ColorMode) (s : State) :
    convertChecksFrom3 m s = none ↔
      (srcFormat s = 0 ∨ srcFormat s = 1) ∧ srcWidth s ≠ 0 ∧ srcHeight s ≠ 0
      ∧ srcBase s + srcLen s ≤ s.cfg.memSize ∧ dstWidth s ≠ 0 ∧ dstHeight s ≠ 0
      ∧ dstWidth s ≤ s.cfg.icMaxW ∧ dstHeight s ≤ s.cfg.icMaxH
      ∧ bufferLen (dstWidth s) (dstHeight s) m ≤ dstCap s
      ∧ dstBase s + bufferLen (dstWidth s) (dstHeight s) m ≤ s.cfg.memSize
      ∧ regionsOverlap ⟨srcBase s, srcBase s + srcLen s⟩
          ⟨dstBase s, dstBase s + bufferLen (dstWidth s) (dstHeight s) m⟩ = false := by
  unfold convertChecksFrom3
  dsimp only
  constructor
  · intro h
    split_ifs at h with h1 h2 h3 h4 h5 h6 h7 h8
    rw [not_and_or, not_not, not_not] at h1
    rw [not_or] at h2 h4 h5
    exact ⟨h1, h2.1, h2.2, not_lt.1 h3, h4.1, h4.2, not_lt.1 h5.1, not_lt.1 h5.2, not_lt.1 h6,
      not_lt.1 h7, by simpa using h8⟩
  · rintro ⟨h1, h2, h3, h4, h5, h6, h7, h8, h9, h10, h11⟩
    rw [if_neg (by tauto), if_neg (by tauto), if_neg (not_lt.2 h4), if_neg (by tauto),
      if_neg (by omega), if_neg (not_lt.2 h9), if_neg (not_lt.2 h10), if_neg (by simp [h11])]

/-- DISPLAY: refused, an unwritten byte, or the HAL part (41_panel_ops.md R123, R124, R126). -/
theorem displayStep_cases (s : State) :
    (∃ e, displayCheck s = some e ∧ displayStep s = psRaise .psDisplay e .validate s) ∨
    (∃ a, displayCheck s = none ∧ readBytes s.mem (bufBase s) (bufLen s) = .error a ∧
      displayStep s = psUnwritten a s) ∨
    (∃ bytes, displayCheck s = none ∧ readBytes s.mem (bufBase s) (bufLen s) = .ok bytes ∧
      displayStep s = psFinish .psDisplay .idle (transferRun bytes s)) := by
  unfold displayStep
  cases hc : displayCheck s with
  | some e => exact .inl ⟨e, rfl, rfl⟩
  | none =>
    cases hr : readBytes s.mem (bufBase s) (bufLen s) with
    | error a => exact .inr (.inl ⟨a, rfl, rfl, rfl⟩)
    | ok bytes => exact .inr (.inr ⟨bytes, rfl, rfl, rfl⟩)

/-- DISPLAY's checks (41_panel_ops.md R123). -/
theorem displayCheck_none_iff (s : State) :
    displayCheck s = none ↔
      s.psSt = .idle ∧ bufLen s = expectedLen s.cfg ∧ bufBase s + bufLen s ≤ s.cfg.memSize := by
  unfold displayCheck
  split_ifs <;> simp_all

/-- CLEAR (41_panel_ops.md R127). -/
theorem clearStep_cases (s : State) :
    (s.psSt ≠ .idle ∧ clearStep s = psRaise .psClear .invalidState .validate s) ∨
    (s.psSt = .idle ∧
      clearStep s = psFinish .psClear .idle (transferRun (whiteBuffer s.cfg) s)) := by
  unfold clearStep
  by_cases h : s.psSt = .idle <;> simp [h]

/-- SLEEP (41_panel_ops.md R128). -/
theorem sleepStep_cases (s : State) :
    (s.psSt ≠ .idle ∧ sleepStep s = psRaise .psSleep .invalidState .validate s) ∨
    (s.psSt = .idle ∧ sleepStep s = psFinish .psSleep .asleep (sleepSeq s)) := by
  unfold sleepStep
  by_cases h : s.psSt = .idle <;> simp [h]

/-- TEARDOWN (41_panel_ops.md R129). -/
theorem teardownStep_cases (s : State) :
    (s.psSt = .idle ∧ teardownStep s = psFinish .psTeardown .uninitialized (sleepSeq s)) ∨
    (s.psSt ≠ .idle ∧ teardownStep s = psCompleteOk .uninitialized s) := by
  unfold teardownStep
  by_cases h : s.psSt = .idle <;> simp [h]

/-- RegWrite: a bus error, one of two hazards, or the register's own effect (10_state.md R23;
70_reset_and_hazards.md R240, R242). -/
theorem regWriteStep_cases (off : Offset) (w : Word) (s : State) :
    (regAt off = none ∧ regWriteStep off w s = recordFault (.busErrorReg off) s) ∨
    (∃ r, regAt off = some r ∧
      ((regWriteHazard r s = true ∧
        regWriteStep off w s = recordFault (.hazard .regWritePending off.toNat) s) ∨
       (regWriteHazard r s = false ∧ crossEngineHazard r w s = true ∧
        regWriteStep off w s = recordFault (.hazard .crossEngine off.toNat) s) ∨
       (regWriteHazard r s = false ∧ crossEngineHazard r w s = false ∧
        regWriteStep off w s = regStore r w s))) := by
  unfold regWriteStep
  cases regAt off with
  | none => exact .inl ⟨rfl, rfl⟩
  | some r =>
    refine .inr ⟨r, rfl, ?_⟩
    by_cases h1 : regWriteHazard r s = true
    · exact .inl ⟨h1, by simp [h1]⟩
    · by_cases h2 : crossEngineHazard r w s = true
      · exact .inr (.inl ⟨by simpa using h1, h2, by simp [h1, h2]⟩)
      · exact .inr (.inr ⟨by simpa using h1, by simpa using h2, by simp [h1, h2]⟩)

/-- RegRead: a bus error, or the register's value (10_state.md R23). -/
theorem regReadStep_cases (off : Offset) (s : State) :
    (regAt off = none ∧
      regReadStep off s = sendReply (.word 0) (recordFault (.busErrorReg off) s)) ∨
    (∃ r, regAt off = some r ∧ regReadStep off s = sendReply (.word (regValue r s)) s) := by
  unfold regReadStep
  cases regAt off with
  | none => exact .inl ⟨rfl, rfl⟩
  | some r => exact .inr ⟨r, rfl, rfl⟩

/-- HostMemWrite (20_memory.md R64; 70_reset_and_hazards.md R241). -/
theorem memWriteStep_cases (a : Nat) (b : Byte) (s : State) :
    (s.cfg.memSize ≤ a ∧ memWriteStep a b s = recordFault (.busErrorMem a) s) ∨
    (a < s.cfg.memSize ∧ memWriteHazard a s = true ∧
      memWriteStep a b s = recordFault (.hazard .memInFlight a) s) ∨
    (a < s.cfg.memSize ∧ memWriteHazard a s = false ∧
      memWriteStep a b s = { s with mem := Memory.write s.mem a b }) := by
  unfold memWriteStep
  by_cases h1 : s.cfg.memSize ≤ a
  · exact .inl ⟨h1, by simp [h1]⟩
  · by_cases h2 : memWriteHazard a s = true
    · exact .inr (.inl ⟨by omega, h2, by simp [h1, h2]⟩)
    · exact .inr (.inr ⟨by omega, by simpa using h2, by simp [h1, h2]⟩)

/-- HostMemRead (20_memory.md R61, R64; 70_reset_and_hazards.md R241). -/
theorem memReadStep_cases (a : Nat) (s : State) :
    (s.cfg.memSize ≤ a ∧
      memReadStep a s = sendReply (.byte 0) (recordFault (.busErrorMem a) s)) ∨
    (a < s.cfg.memSize ∧ memReadHazard a s = true ∧
      memReadStep a s = sendReply (.byte 0) (recordFault (.hazard .memInFlight a) s)) ∨
    (a < s.cfg.memSize ∧ memReadHazard a s = false ∧ ∃ b, Memory.read s.mem a = some b ∧
      memReadStep a s = sendReply (.byte b) s) ∨
    (a < s.cfg.memSize ∧ memReadHazard a s = false ∧ Memory.read s.mem a = none ∧
      memReadStep a s = sendReply .noValue (recordFault (.unwrittenRead a) s)) := by
  unfold memReadStep
  by_cases h1 : s.cfg.memSize ≤ a
  · exact .inl ⟨h1, by simp [h1]⟩
  · by_cases h2 : memReadHazard a s = true
    · exact .inr (.inl ⟨by omega, h2, by simp [h1, h2]⟩)
    · cases h3 : Memory.read s.mem a with
      | some b => exact .inr (.inr (.inl ⟨by omega, by simpa using h2, b, rfl, by simp [h1, h2]⟩))
      | none => exact .inr (.inr (.inr ⟨by omega, by simpa using h2, rfl, by simp [h1, h2]⟩))

/-- IC's completion step: an illegal word, or the command the word decodes to (30_encoding.md R83). -/
theorem completeIc_cases (s : State) :
    (∃ x, decode .ic s.icCmdl = .error x ∧ completeIc s = .next (icRaiseIllegal s)) ∨
    (∃ i, decode .ic s.icCmdl = .ok i ∧ completeIc s = exec i s) := by
  unfold completeIc
  cases decode .ic s.icCmdl with
  | error x => exact .inl ⟨x, rfl, rfl⟩
  | ok i => exact .inr ⟨i, rfl, rfl⟩

/-- PS's completion step (30_encoding.md R83). -/
theorem completePs_cases (s : State) :
    (∃ x, decode .ps s.psCmdl = .error x ∧ completePs s = .next (psRaiseIllegal s)) ∨
    (∃ i, decode .ps s.psCmdl = .ok i ∧ completePs s = exec i s) := by
  unfold completePs
  cases decode .ps s.psCmdl with
  | error x => exact .inl ⟨x, rfl, rfl⟩
  | ok i => exact .inr ⟨i, rfl, rfl⟩

/-- What a decoded word is (30_encoding.md R83). -/
theorem decode_ok_opcode {e : Engine} {w : Word} {i : Instr} (h : decode e w = .ok i) :
    wordRsv w = 0 ∧ engineOpcode e (wordOp w) = some i := by
  unfold decode at h
  split at h
  · cases h
  · rename_i hr
    refine ⟨not_not.1 hr, ?_⟩
    split at h
    · rename_i j hj
      cases h
      exact hj
    · cases h

/-- IC's opcode map holds CONVERT alone (30_encoding.md R81). -/
theorem decode_ic_ok {w : Word} {i : Instr} (h : decode .ic w = .ok i) : i = .icConvert := by
  have this : icOpcode (wordOp w) = some i := (decode_ok_opcode h).2
  unfold icOpcode at this
  split_ifs at this
  exact (Option.some.inj this).symm

/-- PS's opcode map holds the panel commands (30_encoding.md R82). -/
theorem decode_ps_ok {w : Word} {i : Instr} (h : decode .ps w = .ok i) :
    i ∈ Safety.panelCommands := by
  have this : psOpcode (wordOp w) = some i := (decode_ok_opcode h).2
  unfold psOpcode at this
  split_ifs at this <;> cases this <;> simp [Safety.panelCommands]

/-- The state in which a turn is taken: the rest of the agenda, and a count of free values. -/
def turnState (rest : List Turn) (d : Nat) (s : State) : State :=
  { s with agenda := rest, draws := d }

theorem turnState_nil {s : State} (h : s.agenda = []) (d : Nat) :
    turnState [] d s = { s with draws := d } := by
  unfold turnState
  rw [← h]

theorem turnState_self {s : State} (h : s.agenda = []) : turnState [] s.draws s = s := by
  unfold turnState
  rw [← h]

/-- What an exhausted agenda leaves to do (60_exceptions.md R210). -/
theorem drainStep_cases {s : State} (h : s.agenda = []) :
    (∃ d, s.icPend = .pending ∧ drainStep s = completeIc (turnState [] d s)) ∨
    (∃ d, s.psPend = .pending ∧ drainStep s = completePs (turnState [] d s)) ∨
    (s.icPend = .none ∧ s.psPend = .none ∧ drainStep s = .next s) := by
  obtain hi | hi : s.icPend = .none ∨ s.icPend = .pending := by cases s.icPend <;> simp
  · obtain hp | hp : s.psPend = .none ∨ s.psPend = .pending := by cases s.psPend <;> simp
    · exact .inr (.inr ⟨hi, hp, by simp [drainStep, hi, hp]⟩)
    · refine .inr (.inl ⟨s.draws, hp, ?_⟩)
      rw [turnState_self h]
      simp [drainStep, hi, hp]
  · obtain hp | hp : s.psPend = .none ∨ s.psPend = .pending := by cases s.psPend <;> simp
    · refine .inl ⟨s.draws, hi, ?_⟩
      rw [turnState_self h]
      simp [drainStep, hi, hp]
    · by_cases hf : Config.freeIcFirst s.draws = true
      · refine .inl ⟨s.draws + 1, hi, ?_⟩
        rw [turnState_nil h]
        unfold drainStep
        rw [hi, hp]
        exact if_pos hf
      · refine .inr (.inl ⟨s.draws + 1, hp, ?_⟩)
        rw [turnState_nil h]
        unfold drainStep
        rw [hi, hp]
        exact if_neg hf

/-- A step: a host transaction, an engine's completion, or nothing (20_memory.md R71; 60_exceptions.md
R210). -/
theorem step_cases (s : State) :
    (∃ x rest, s.agenda = .host x :: rest ∧
      step s = .next (hostStep x (turnState rest s.draws s))) ∨
    (∃ rest d, s.icPend = .pending ∧ step s = completeIc (turnState rest d s)) ∨
    (∃ rest d, s.psPend = .pending ∧ step s = completePs (turnState rest d s)) ∨
    (∃ rest, step s = .next (turnState rest s.draws s)) := by
  unfold step
  cases ha : s.agenda with
  | cons t rest =>
    cases t with
    | host x => exact .inl ⟨x, rest, rfl, rfl⟩
    | ic =>
      by_cases hp : s.icPend = .pending
      · exact .inr (.inl ⟨rest, s.draws, hp, if_pos hp⟩)
      · exact .inr (.inr (.inr ⟨rest, if_neg hp⟩))
    | ps =>
      by_cases hp : s.psPend = .pending
      · exact .inr (.inr (.inl ⟨rest, s.draws, hp, if_pos hp⟩))
      · exact .inr (.inr (.inr ⟨rest, if_neg hp⟩))
  | nil =>
    obtain ⟨d, h, e⟩ | ⟨d, h, e⟩ | ⟨-, -, e⟩ := drainStep_cases ha
    · exact .inr (.inl ⟨[], d, h, e⟩)
    · exact .inr (.inr (.inl ⟨[], d, h, e⟩))
    · exact .inr (.inr (.inr ⟨[], by rw [turnState_self ha]; exact e⟩))

end Sys2Proof.Machine
end

