-- ==== Sys2Proof/Laws/Operands.lean ====
section
/-! SUPPORT. The operand fields as numbers in their registers (10_state.md R26, R27, R29, R30), and the meanings'
own operations equal to the terms statements are written in. -/

namespace Sys2Proof.Machine

open Sys2Proof.Safety

theorem srcWidth_eq (s : State) : srcWidth s = s.icSrcDim.toNat % 65536 := by
  simp [srcWidth, BitVec.extractLsb'_toNat]

theorem srcHeight_eq (s : State) : srcHeight s = s.icSrcDim.toNat / 65536 := by
  have := s.icSrcDim.isLt
  simp [srcHeight, BitVec.extractLsb'_toNat, Nat.shiftRight_eq_div_pow]
  omega

theorem dstWidth_eq (s : State) : dstWidth s = s.icDstDim.toNat % 65536 := by
  simp [dstWidth, BitVec.extractLsb'_toNat]

theorem dstHeight_eq (s : State) : dstHeight s = s.icDstDim.toNat / 65536 := by
  have := s.icDstDim.isLt
  simp [dstHeight, BitVec.extractLsb'_toNat, Nat.shiftRight_eq_div_pow]
  omega

theorem srcFormat_toNat (s : State) : (srcFormat s).toNat = s.icSrcFmt.toNat % 4 := by
  simp [srcFormat, BitVec.extractLsb'_toNat]

theorem colorField_toNat (s : State) : (colorField s).toNat = s.icMode.toNat % 16 := by
  simp [colorField, BitVec.extractLsb'_toNat]

theorem ditherField_toNat (s : State) : (ditherField s).toNat = s.icMode.toNat / 16 % 4 := by
  simp [ditherField, BitVec.extractLsb'_toNat, Nat.shiftRight_eq_div_pow]

theorem fitField_toNat (s : State) : (fitField s).toNat = s.icMode.toNat / 64 % 2 := by
  simp [fitField, BitVec.extractLsb'_toNat, Nat.shiftRight_eq_div_pow]

theorem srcFormat_eq_zero_iff (s : State) : srcFormat s = 0 ↔ s.icSrcFmt.toNat % 4 = 0 := by
  rw [← srcFormat_toNat, BitVec.toNat_eq]
  rfl

theorem fitField_eq_zero_iff (s : State) : fitField s = 0 ↔ s.icMode.toNat / 64 % 2 = 0 := by
  rw [← fitField_toNat, BitVec.toNat_eq]
  rfl

/-- SRC_LEN on the register numbers (42_convert.md R152). -/
theorem sourceBytes_eq (s : State) : sourceBytes s = srcLen s := by
  unfold sourceBytes srcLen bytesPerPixel
  rw [srcWidth_eq, srcHeight_eq]
  simp only [srcFormat_eq_zero_iff]

/-- The luma of a source pixel on the register numbers (42_convert.md R155, 43_resize.md R171). -/
theorem sourceLuma_eq (s : State) (src : List Byte) (sx sy : Nat) :
    sourceLuma s src sx sy = srcLuma (srcFormat s) src (srcWidth s) sx sy := by
  unfold sourceLuma srcLuma bytesPerPixel lumaRgb srcByte
  rw [srcWidth_eq]
  simp only [srcFormat_eq_zero_iff]
  split
  · simp only [Nat.mul_comm 3]
  · simp only [Nat.mul_one]

theorem dstWidth_eq_targetWidth (s : State) : dstWidth s = targetWidth s := dstWidth_eq s

theorem dstHeight_eq_targetHeight (s : State) : dstHeight s = targetHeight s := dstHeight_eq s

/-- The bits per pixel of a legal color mode, from its code (44_color_reduce_dither.md R180). -/
theorem targetBits_eq {s : State} {m : ColorMode} (h : s.icMode.toNat % 16 = (colorCode m).toNat) :
    targetBits s = bpp m := by
  unfold targetBits
  rw [h]
  cases m <;> rfl

theorem targetRow_eq {s : State} {m : ColorMode} (h : s.icMode.toNat % 16 = (colorCode m).toNat) :
    targetRow s = stride (dstWidth s) m := by
  rw [targetRow, targetBits_eq h, stride, dstWidth_eq_targetWidth]

/-- LEN on the register numbers (45_bitpack.md R200). -/
theorem targetLen_eq {s : State} {m : ColorMode} (h : s.icMode.toNat % 16 = (colorCode m).toNat) :
    targetLen s = bufferLen (dstWidth s) (dstHeight s) m := by
  rw [targetLen, targetRow_eq h, bufferLen, dstHeight_eq_targetHeight]

/-! ### Reserved fields of a written register (10_state.md R23, R27, R30) -/

theorem and_srcFmtMask (w : Word) : w &&& srcFmtMask = BitVec.ofNat 32 (w.toNat % 4) := by
  apply BitVec.eq_of_toNat_eq
  have h : w.toNat &&& 3 = w.toNat % 4 := Nat.and_two_pow_sub_one_eq_mod w.toNat 2
  rw [BitVec.toNat_and, BitVec.toNat_ofNat, show srcFmtMask.toNat = 3 from rfl, h]
  omega

theorem and_modeMask (w : Word) : w &&& modeMask = BitVec.ofNat 32 (w.toNat % 128) := by
  apply BitVec.eq_of_toNat_eq
  have h : w.toNat &&& 127 = w.toNat % 128 := Nat.and_two_pow_sub_one_eq_mod w.toNat 7
  rw [BitVec.toNat_and, BitVec.toNat_ofNat, show modeMask.toNat = 127 from rfl, h]
  omega

/-! ### The regions of the hazard rules (20_memory.md R69) -/

theorem inRegion_iff (r : Region) (a : Nat) : inRegion r a = true ↔ r.lo ≤ a ∧ a < r.hi := by
  simp [inRegion]

theorem srcFormat_eq_one_iff (s : State) : srcFormat s = 1 ↔ s.icSrcFmt.toNat % 4 = 1 := by
  rw [← srcFormat_toNat, BitVec.toNat_eq]
  rfl

theorem inRegion_srcRegion_iff (s : State) (a : Nat) :
    inRegion (srcRegion s) a = true ↔ InSourceRegion s a := by
  rw [inRegion_iff]
  unfold InSourceRegion srcRegion srcBase regionBytesPerPixel
  simp only [srcWidth_eq, srcHeight_eq, srcFormat_eq_one_iff]

theorem inRegion_dstRegion_iff (s : State) (a : Nat) :
    inRegion (dstRegion s) a = true ↔ InTargetRegion s a := inRegion_iff ..

theorem inRegion_bufRegion_iff (s : State) (a : Nat) :
    inRegion (bufRegion s) a = true ↔ InBufferRegion s a := inRegion_iff ..

/-- Two regions overlap when they share an address. -/
theorem regionsOverlap_iff (r q : Region) :
    regionsOverlap r q = true ↔ ∃ a, inRegion r a = true ∧ inRegion q a = true := by
  simp only [inRegion_iff, regionsOverlap, decide_eq_true_eq]
  constructor
  · intro h
    exact ⟨max r.lo q.lo, ⟨by omega, by omega⟩, by omega, by omega⟩
  · rintro ⟨a, ⟨h1, h2⟩, h3, h4⟩
    omega

theorem regionsOverlap_dst_buf_iff (s : State) :
    regionsOverlap (dstRegion s) (bufRegion s) = true ↔ TargetMeetsBuffer s := by
  simp only [regionsOverlap_iff, inRegion_dstRegion_iff, inRegion_bufRegion_iff]
  rfl

theorem regionsOverlap_buf_dst_iff (s : State) :
    regionsOverlap (bufRegion s) (dstRegion s) = true ↔ TargetMeetsBuffer s := by
  rw [← regionsOverlap_dst_buf_iff, regionsOverlap_iff, regionsOverlap_iff]
  exact exists_congr fun _ => and_comm

/-- fsq in the words of the scan over unbounded integers (44_color_reduce_dither.md R187). -/
theorem fsq_eq_exactLevel (n : Nat) (v : Int) : fsq n v = exactLevel n v := by
  unfold fsq exactLevel
  split
  · rfl
  · split
    · rfl
    · obtain ⟨k, rfl⟩ := Int.eq_ofNat_of_zero_le (a := v) (by omega)
      norm_cast

end Sys2Proof.Machine
end

