-- ==== Sys2Proof/Laws/PerInstr.lean ====
section
/-! SUPPORT. One lemma for each command of a family of statements about commands as terms: a well-formed command's
word decodes, at the engine it is written to, to that command, and its RSV field is 0 (30_encoding.md R80 to
R83). -/

namespace Sys2Proof.Laws.EncodeDecode

open Sys2Proof

/-- The word of `i` decodes to `i` and has RSV = 0. -/
def Statement (i : Instr) : Prop :=
  i.wf = true ∧ wordRsv (encode i).2 = 0 ∧ decode (encode i).1 (encode i).2 = .ok i

theorem icConvert : Statement .icConvert := ⟨rfl, rfl, rfl⟩

theorem psInitialize : Statement .psInitialize := ⟨rfl, rfl, rfl⟩

theorem psDisplay : Statement .psDisplay := ⟨rfl, rfl, rfl⟩

theorem psClear : Statement .psClear := ⟨rfl, rfl, rfl⟩

theorem psSleep : Statement .psSleep := ⟨rfl, rfl, rfl⟩

theorem psTeardown : Statement .psTeardown := ⟨rfl, rfl, rfl⟩

end Sys2Proof.Laws.EncodeDecode
end

