-- ==== Sys2Proof/Tests/Slice0.lean ====
section
/-! SUPPORT. Tests of the model. Expected values come from 95_test_vectors.md (the vector's name is cited) or
are worked by hand from the rule cited. The `witness_` theorems show, for each obligation with hypotheses, values
that meet them together, clause by clause. -/

namespace Sys2Proof.Tests

open Sys2Proof Sys2Proof.Machine Sys2Proof.Safety

/-! ### Well-formedness: one ill-formed term for each check (00_scope.md R7, R8; 30_encoding.md R85) -/

/-- TCFG of 95_test_vectors.md section 2.1. -/
def tcfg : Params where
  memSize := 4096
  icMaxW := 64
  icMaxH := 64
  panelW := 8
  panelH := 2
  panelMode := .blackWhite
  initSeq := [.cmd 0xA0 [0x11], .waitBusy]
  lutSeq := [.cmd 0xA1 [0x01, 0x02]]
  opcData := 0xB0
  opcRefresh := 0xB1
  opcSleep := 0xB2
  sleepPayload := [0xA5]
  resetPulseMs := 2
  busyPollMs := 10
  busyMaxPolls := 3
  busyReadyLevel := 1
  rstActiveLevel := 0
  dcCmdLevel := 0

theorem test_tcfg_wf : tcfg.wf = true := by decide

theorem test_leastParams_wf : Config.leastParams.wf = true := by decide

theorem test_params_wf : Config.params.wf = true := by
  unfold Config.params
  split
  · assumption
  · exact test_leastParams_wf

theorem test_wf_delay : PanelStep.wf (.delay (2 ^ 32)) = false := by decide

theorem test_wf_payload (bs : List Byte) (h : bs.length = 2 ^ 32) :
    PanelStep.wf (.cmd 0 bs) = false := by
  simp only [PanelStep.wf, h]
  decide

theorem test_wf_memSize : ∀ v ∈ [0, 2 ^ 32 + 1], Params.wf { tcfg with memSize := v } = false := by
  decide

theorem test_wf_icMaxW : ∀ v ∈ [0, 65536], Params.wf { tcfg with icMaxW := v } = false := by decide

theorem test_wf_icMaxH : ∀ v ∈ [0, 65536], Params.wf { tcfg with icMaxH := v } = false := by decide

theorem test_wf_panelW : ∀ v ∈ [0, 65536], Params.wf { tcfg with panelW := v } = false := by decide

theorem test_wf_panelH : ∀ v ∈ [0, 65536], Params.wf { tcfg with panelH := v } = false := by decide

theorem test_wf_initSeq : Params.wf { tcfg with initSeq := [.delay (2 ^ 32)] } = false := by decide

theorem test_wf_lutSeq : Params.wf { tcfg with lutSeq := [.delay (2 ^ 32)] } = false := by decide

theorem test_wf_resetPulse : Params.wf { tcfg with resetPulseMs := 2 ^ 32 } = false := by decide

theorem test_wf_busyPoll : Params.wf { tcfg with busyPollMs := 2 ^ 32 } = false := by decide

theorem test_wf_busyMaxPolls :
    ∀ v ∈ [0, 2 ^ 32], Params.wf { tcfg with busyMaxPolls := v } = false := by decide

/-- The check on EXPECTED_LEN; within the ranges of PANEL_W and PANEL_H it never fails. -/
theorem test_wf_expectedLen :
    inRange 0 (2 ^ 32 - 1) (expectedLen { tcfg with panelW := 2 ^ 20, panelH := 2 ^ 20 }) = false := by
  decide

/-! ### Decoding: words written bit by bit from 30_encoding.md R80 to R82 (V-DEC-1 to V-DEC-14) -/

theorem test_decode_convert :
    decode .ic 0b00000000000000000000000000000001 = .ok .icConvert := by decide

theorem test_decode_initialize :
    decode .ps 0b00000000000000000000000000000001 = .ok .psInitialize := by decide

theorem test_decode_display :
    decode .ps 0b00000000000000000000000000000010 = .ok .psDisplay := by decide

theorem test_decode_clear :
    decode .ps 0b00000000000000000000000000000011 = .ok .psClear := by decide

theorem test_decode_sleep :
    decode .ps 0b00000000000000000000000000000100 = .ok .psSleep := by decide

theorem test_decode_teardown :
    decode .ps 0b00000000000000000000000000000101 = .ok .psTeardown := by decide

theorem test_decode_ic_illegal :
    [0x00000000, 0x00000002, 0x80000001, 0x00000101].map (decode .ic)
      = [.error .reservedOpcode, .error .reservedOpcode, .error .reservedBits,
         .error .reservedBits] := by decide

theorem test_decode_ps_illegal :
    [0x00000000, 0x00000006, 0x000000FF, 0x00010002].map (decode .ps)
      = [.error .reservedOpcode, .error .reservedOpcode, .error .reservedOpcode,
         .error .reservedBits] := by decide

theorem test_table_words :
    (List.range 7).map (decodeTableWord 32)
      = [none, some .icConvert, some .psDisplay, some .psClear, some .psSleep, some .psTeardown,
         none] := by decide

/-! ### States the tests start from -/

/-- Reset under TCFG. -/
def base : State :=
  { State.reset with
    cfg := tcfg, fsCur := List.replicate 64 7, fsNxt := List.replicate 64 9 }

/-- The state of a next outcome, and `base` otherwise. -/
def after (o : Host.Outcome State Fault Refusal) : State :=
  match o with
  | .next t => t
  | .fault _ => base
  | .refused _ => base

/-- A memory that holds `bs` from address `a` up. -/
def memOf (a : Nat) (bs : List Byte) : Memory := writeBytes [] a bs

/-- V-E2E-1: a 3 × 3 L8 checkerboard at 0, target 3 × 3 at 0x100, CONVERT pending. -/
def checker : State :=
  { base with
    icSrcDim := 0x00030003, icSrcFmt := 1, icSrcBase := 0, icDstDim := 0x00030003, icMode := 0,
    icDstBase := 0x100, icDstCap := 3, mem := memOf 0 [0, 255, 0, 255, 0, 255, 0, 255, 0],
    icPend := .pending, icCmdl := 1, agenda := [.ic] }

/-- V-E2E-10: a 2 × 2 RGB888 image. -/
def colors : State :=
  { checker with
    icSrcDim := 0x00020002, icSrcFmt := 0, icDstDim := 0x00020002, icDstCap := 2,
    mem := memOf 0 [0xFF, 0, 0, 0, 0xFF, 0, 0, 0, 0xFF, 0xFF, 0xFF, 0xFF] }

/-- From IDLE, with MEM and the buffer registers of V-PS-3, and PS word `w` pending. -/
def idle (w : Word) : State :=
  { base with
    psSt := .idle, psPend := .pending, psCmdl := w, agenda := [.ps],
    mem := memOf 0x100 [0x0F, 0xFF], psBufBase := 0x100, psBufLen := 2 }

/-- With `n` good answers to writes and the given answers to BUSY reads. -/
def withEnv (n : Nat) (busy : List BusyAnswer) (s : State) : State :=
  { s with acks := List.replicate n .ok, busyReads := busy }

/-! ### One step of each command -/

/-- V-E2E-1: 5F BF 5F, IC_OUT_LEN = 3, success. -/
theorem test_convert_checkerboard :
    readBytes (after (step checker)).mem 0x100 3 = .ok [0x5F, 0xBF, 0x5F]
    ∧ (after (step checker)).icOutLen = 3 ∧ icStatusWord (after (step checker)) = 0x00000002 := by
  decide

/-- V-E2E-11: Grayscale4 of the RGB source packs to 6F 3F. -/
theorem test_convert_gray :
    readBytes (after (step { colors with icMode := 1 })).mem 0x100 2 = .ok [0x6F, 0x3F] := by decide

/-- V-PS-1: the 14 events, and PS_STATUS. -/
theorem test_initialize_trace :
    (after (step (withEnv 20 [.level 1, .level 1] { idle 1 with psSt := .uninitialized }))).trace
      = [.pinWrite .rst 0 .ok, .delay 2, .pinWrite .rst 1 .ok,
         .pinWrite .dc 0 .ok, .spiWrite 0xA0 .ok, .pinWrite .dc 1 .ok, .spiWrite 0x11 .ok,
         .pinRead (.level 1),
         .pinWrite .dc 0 .ok, .spiWrite 0xA1 .ok, .pinWrite .dc 1 .ok, .spiWrite 0x01 .ok,
         .spiWrite 0x02 .ok, .pinRead (.level 1)] := by decide

/-- V-PS-12: a panel that is never ready. -/
theorem test_initialize_timeout :
    psStatusWord (after (step (withEnv 20 (List.replicate 3 (.level 0))
      { idle 1 with psSt := .uninitialized }))) = 0x00340602 := by decide

/-- V-PS-3. -/
theorem test_display_trace :
    (after (step (withEnv 20 [.level 0, .level 0, .level 1] (idle 2)))).trace
      = [.pinWrite .dc 0 .ok, .spiWrite 0xB0 .ok, .pinWrite .dc 1 .ok, .spiWrite 0x0F .ok,
         .spiWrite 0xFF .ok, .pinWrite .dc 0 .ok, .spiWrite 0xB1 .ok, .pinWrite .dc 1 .ok,
         .pinRead (.level 0), .delay 10, .pinRead (.level 0), .delay 10,
         .pinRead (.level 1)] := by decide

/-- V-PS-10: a wrong length, with no event. -/
theorem test_display_wrong_length :
    psStatusWord (after (step { idle 2 with psBufLen := 3 })) = 0x00110802
    ∧ (after (step { idle 2 with psBufLen := 3 })).trace = [] := by decide

/-- V-PS-4. -/
theorem test_clear_trace :
    (after (step (withEnv 20 [.level 1] (idle 3)))).trace
      = [.pinWrite .dc 0 .ok, .spiWrite 0xB0 .ok, .pinWrite .dc 1 .ok, .spiWrite 0xFF .ok,
         .spiWrite 0xFF .ok, .pinWrite .dc 0 .ok, .spiWrite 0xB1 .ok, .pinWrite .dc 1 .ok,
         .pinRead (.level 1)] := by decide

/-- V-PS-15: the panel is never ready after CLEAR's refresh. -/
theorem test_clear_timeout :
    psStatusWord (after (step (withEnv 20 (List.replicate 3 (.level 0)) (idle 3))))
      = 0x00540702 := by decide

/-- V-PS-5. -/
theorem test_sleep :
    (after (step (withEnv 20 [] (idle 4)))).trace
      = [.pinWrite .dc 0 .ok, .spiWrite 0xB2 .ok, .pinWrite .dc 1 .ok, .spiWrite 0xA5 .ok]
    ∧ psStatusWord (after (step (withEnv 20 [] (idle 4)))) = 0x00030002 := by decide

/-- V-PS-30: the payload byte is answered FAIL. -/
theorem test_sleep_failure :
    psStatusWord (after (step { idle 4 with acks := [.ok, .ok, .ok, .fail] })) = 0x00840502 := by
  decide

/-- V-PS-6. -/
theorem test_teardown :
    psStatusWord (after (step (withEnv 20 [] (idle 5)))) = 0x00000002
    ∧ (after (step (withEnv 20 [] (idle 5)))).trace.length = 4 := by decide

/-- V-PS-31. -/
theorem test_teardown_failure :
    psStatusWord (after (step { idle 5 with acks := [.fail] })) = 0x00800502 := by decide

/-! ### Witnesses: steps -/

theorem witness_ReservedWordsAreIllegal :
    ((0 : Word).toNat ≠ 1 ∧ (2 : Word).toNat ≠ 1)
    ∧ (0 : Word).toNat = 0 ∧ 6 ≤ (6 : Word).toNat
    ∧ checker.agenda = [.ic] ∧ checker.icPend = .pending
    ∧ (idle 6).agenda = [.ps] ∧ (idle 6).psPend = .pending := by decide

theorem witness_StepRunsDecodedCommand :
    (checker.agenda = [.ic] ∧ checker.icPend = .pending
      ∧ decode .ic checker.icCmdl = .ok .icConvert)
    ∧ ((idle 5).agenda = [.ps] ∧ (idle 5).psPend = .pending
      ∧ decode .ps (idle 5).psCmdl = .ok .psTeardown)
    ∧ checker.psPend = .none ∧ (idle 5).icPend = .none
    ∧ ({ checker with agenda := [] } : State).agenda = []
    ∧ Instr.icConvert.wf = true ∧ Instr.psTeardown.wf = true := by decide

/-- The same for a host's turn, for an engine's turn with nothing pending whose latch holds a word, and for an empty
agenda. -/
theorem witness_StepRunsDecodedCommand_turns :
    (let s := { base with icCmdl := 1, psCmdl := 5, agenda := [.host (.regRead 0), .ic, .ps] }
     s.agenda = .host (.regRead 0) :: [.ic, .ps] ∧ s.icPend = .none ∧ s.psPend = .none
      ∧ ({ s with agenda := [.ic, .ps] } : State).agenda = .ic :: [.ps]
      ∧ ({ s with agenda := [.ps] } : State).agenda = .ps :: [])
    ∧ base.agenda = []
    ∧ (let s := { checker with psPend := .pending, agenda := [] }
       s.agenda = [] ∧ s.icPend = .pending ∧ s.psPend = .pending) := by decide

/-- A host's turn takes place: a write to IC_DST_CAP (10_state.md R32). -/
theorem test_host_turn :
    (after (step { base with agenda := [.host (.regWrite 0x20 7), .ic] })).icDstCap = 7
    ∧ (after (step { base with agenda := [.host (.regWrite 0x20 7), .ic] })).agenda = [.ic] := by
  decide

/-- A state that meets the invariant and takes a step: for StepKeepsInvariant, StepKeepsParameters and
TraceAndFaultsOnlyGrow. -/
theorem witness_StepKeepsInvariant : Inv checker ∧ ∃ t, step checker = .next t := by
  refine ⟨?_, _, rfl⟩
  have hb : ∀ c ∈ checker.mem, c.1 < 4096 := by decide
  have hm : ∀ (m : Memory), (∀ c ∈ m, c.1 < 4096) → ∀ a, Memory.read m a ≠ none → a < 4096 := by
    intro m
    induction m with
    | nil => intro _ a h; exact absurd rfl h
    | cons c m ih =>
      intro hc a h
      unfold Memory.read at h
      split at h
      · rename_i e; rw [← e]; exact hc _ (List.mem_cons_self ..)
      · exact ih (fun d hd => hc d (List.mem_cons_of_mem _ hd)) a h
  exact {
    cfg_wf := by decide
    mem_wf := by decide
    mem_bounded := hm _ hb
    fsCur_length := by decide
    fsNxt_length := by decide
    srcFmt_reserved := by decide
    mode_reserved := by decide
    ic_pair := by decide
    ps_pair := by decide
    ic_pending := by decide
    ps_pending := by decide
    ic_not_done := by decide
    ps_not_done := by decide
    after_hal_error := by decide }

/-! ### Witnesses: CONVERT -/

/-- For each check of 42_convert.md R152, states at a boundary of it (section 3.3 of 95_test_vectors.md). -/
def failing : List (Nat × State) :=
  [(0, { checker with icMode := 0x32 }),
   (1, { checker with icMode := 2 }), (1, { checker with icMode := 15, icSrcDim := 0 }),
   (2, { checker with icSrcFmt := 2 }), (2, { checker with icSrcFmt := 3 }),
   (3, { checker with icSrcDim := 0x00030000 }), (3, { checker with icSrcDim := 0x00000003 }),
   (4, { checker with icSrcBase := 4088 }),
   (5, { checker with icDstDim := 0x00030000 }), (5, { checker with icDstDim := 0x00000003 }),
   (6, { checker with icDstDim := 0x00030041 }), (6, { checker with icDstDim := 0x00410003 }),
   (7, { checker with icDstCap := 2 }),
   (8, { checker with icDstBase := 4094 }),
   (9, { checker with icDstBase := 8 })]

theorem witness_ConvertReportsFirstFailedCheck :
    ∀ p ∈ failing, ((convertCheckList p.2)[p.1]?).map (·.1) = some true
      ∧ ∀ c ∈ (convertCheckList p.2).take p.1, c.1 = false := by decide

/-- Every check is reached by one of them. -/
theorem witness_every_check_fails_somewhere :
    ∀ k, k < 10 → ∃ p ∈ failing, p.1 = k := by decide

theorem witness_ConvertStopsAtUnwrittenSource :
    (let s := { checker with mem := memOf 0 [0, 255, 0, 255, 0, 255, 0, 255] }
     (∀ c ∈ convertCheckList s, c.1 = false) ∧ s.icSrcBase.toNat ≤ 8
      ∧ 8 < s.icSrcBase.toNat + sourceBytes s
      ∧ Memory.read s.mem 8 = none
      ∧ ∀ x, x < 8 → s.icSrcBase.toNat ≤ x → Memory.read s.mem x ≠ none) := by decide

/-- A ready CONVERT under each of the three dithers and each fit; 8 and 9 are the boundary of the overlap check. -/
theorem witness_ConvertReady :
    (let ready := fun mode : Word =>
      ConvertReady { checker with icMode := mode, icDstBase := 9 } .blackWhite
        [0, 255, 0, 255, 0, 255, 0, 255, 0]
     ready 0x00 ∧ ready 0x10 ∧ ready 0x20 ∧ ready 0x60) := by
  unfold ConvertReady SourceIs sourceBytes
  decide

theorem witness_ConvertReady_gray :
    ConvertReady { colors with icMode := 0x21 } .grayscale4
      [0xFF, 0, 0, 0, 0xFF, 0, 0, 0, 0xFF, 0xFF, 0xFF, 0xFF] := by
  unfold ConvertReady SourceIs sourceBytes
  decide

/-- A white source under each dither, and V-LB-4's box, whose odd margin is after the image: a fill pixel and the
last pixel of the box. -/
theorem witness_ConvertLevelsFollowDither :
    (let s := { checker with icMode := 0x40, icDstDim := 0x00040005, icDstCap := 4 }
     let src : List Byte := [0, 255, 0, 255, 0, 255, 0, 255, 0]
     ConvertReady s .blackWhite src
      ∧ 4 < targetWidth s ∧ 3 < targetHeight s
      ∧ lumaAt s src 4 3 = 255 ∧ lumaAt s src 3 3 = 0
      ∧ lumaAt { s with icMode := 0 } src 4 0 = 0) := by
  unfold ConvertReady SourceIs sourceBytes
  decide

/-- For ConvertPixelsInMemory: the last column and row, a pad bit, and a next
state. -/
theorem witness_ConvertPixelsInMemory :
    2 < targetWidth checker ∧ 2 < targetHeight checker
    ∧ 4 < 8 * targetRow checker - targetWidth checker * targetBits checker
    ∧ ∃ t, exec .icConvert checker = .next t := by
  exact ⟨by decide, by decide, by decide, _, rfl⟩

/-- A fault-free CONVERT that succeeds and one that fails, and addresses at both ends of the buffer. -/
theorem witness_ConvertFrameHolds :
    (after (exec .icConvert checker)).faults = checker.faults
    ∧ (after (exec .icConvert { checker with icMode := 0x30 })).faults = checker.faults
    ∧ checker.icMode.toNat / 16 % 4 ≠ 2 ∧ 0xFF < checker.icDstBase.toNat
    ∧ checker.icMode.toNat % 16 < 2 ∧ checker.icDstBase.toNat + targetLen checker ≤ 0x103 := by
  decide

/-- Two ready CONVERTs with equal operands at different addresses and with different line buffers. -/
theorem witness_ConvertIsDeterministic :
    ConvertReady { checker with icDstBase := 0x200, icDstCap := 9, fsCur := [], psSt := .idle }
      .blackWhite [0, 255, 0, 255, 0, 255, 0, 255, 0] := by
  unfold ConvertReady SourceIs sourceBytes
  decide

/-- A 1 × 1 white L8 source for the 8 × 2 panel. -/
def white : State :=
  { checker with
    icSrcDim := 0x00010001, icDstDim := 0x00020008, icDstCap := 2, icMode := 0x60,
    mem := memOf 0 [255] }

theorem witness_AllWhiteSourceEqualsClear :
    ConvertReady white .blackWhite [255] ∧ ColorMode.blackWhite = white.cfg.panelMode
    ∧ targetWidth white = white.cfg.panelW ∧ targetHeight white = white.cfg.panelH
    ∧ ∀ sx, sx < white.icSrcDim.toNat % 65536 → ∀ sy, sy < white.icSrcDim.toNat / 65536 →
        sourceLuma white [255] sx sy = 255 := by
  unfold ConvertReady SourceIs sourceBytes
  decide

/-! ### Witnesses: the stages of CONVERT -/

/-- The bytes of the last pixel of a 1 × 2 RGB888 source and of a 2 × 1 L8 source. -/
theorem witness_LumaOfPixel :
    (let src : List Byte := [1, 2, 3, 100, 150, 50]
     src[3 * (1 * 1 + 0)]? = some 100 ∧ src[3 * (1 * 1 + 0) + 1]? = some 150
      ∧ src[3 * (1 * 1 + 0) + 2]? = some 50)
    ∧ ([7, 9] : List Byte)[0 * 2 + 1]? = some 9 ∧ 255 ≤ 255 := by decide

/-- Sizes of 1, a box that fills the target, and one whose margins differ (V-LB-4). -/
theorem witness_SampledIndicesInRange :
    inBox (letterboxBox 1 1 1 1) 0 0 = true ∧ inBox (letterboxBox 3 3 5 4) 3 3 = true
    ∧ inBox (letterboxBox 3 3 5 4) 4 3 = false ∧ inBox (letterboxBox 1000 1 4 4) 0 1 = true := by
  decide

/-- A resized plane has a row. -/
theorem witness_ResizedPlaneShape : (resize 1 [5] 1 1 2 1 0) = [[5, 5]] := by decide

/-- Equal aspect ratios, equal sizes, and both branches of R175 (V-LB-4 is height-limited, 4 × 2 to 4 × 4
width-limited). -/
theorem witness_ResizeFollowsFit :
    (1 ≤ 2 ∧ 1 ≤ 3 ∧ 4 * 3 = 6 * 2) ∧ (4 * 3 = 4 * 3 ∧ 3 < 4 ∧ 2 < 3)
    ∧ ¬ 5 * 3 ≤ 4 * 3 ∧ 4 * 2 ≤ 4 * 4 := by decide

/-- The luma values where R184's clauses meet. -/
theorem witness_NoneRoundsToNearestLevel :
    ∀ luma ∈ [0, 42, 43, 127, 128, 212, 213, 255], luma ≤ 255 := by decide

theorem witness_OrderedFollowsBayerMatrix : ∀ luma ∈ [0, 6, 7, 246, 247, 255], luma ≤ 255 := by
  decide

theorem witness_DitherKeepsBlackAndWhite : ∀ d ∈ ([0, 1, 2] : List (BitVec 2)), d ≠ 3 := by decide

/-- A plane of one row and column and one of two rows with every boundary value of luma. -/
theorem witness_FloydSteinbergFitsSixteenBits :
    (∀ row ∈ [[128]], row.length = 1 ∧ ∀ luma ∈ row, luma ≤ 255)
    ∧ ∀ row ∈ [[0, 127, 128], [255, 1, 254]], row.length = 3 ∧ ∀ luma ∈ row, luma ≤ 255 := by decide

theorem witness_UnpackInvertsPack :
    (∀ row ∈ [[3, 2, 1, 0, 3]], row.length = 5 ∧ ∀ level ∈ row, level ≤ maxLevel .grayscale4)
    ∧ 4 < 5 ∧ 0 < [[3, 2, 1, 0, 3]].length := by decide

/-- A row with pad bits, one without, and one whose last byte is white. -/
theorem witness_PadBitsAreOne :
    5 < 8 * stride 1 .grayscale4 - 1 * bpp .grayscale4
    ∧ (∀ level ∈ [0], level ≤ maxLevel .grayscale4)
    ∧ 8 * stride 8 .blackWhite - 8 * bpp .blackWhite = 0
    ∧ (∀ level ∈ [0, 1, 1], level ≤ maxLevel .grayscale4) ∧ 0 < stride 3 .grayscale4
    ∧ (∀ level ∈ [0, 0, 0, 0, 3], level ≤ maxLevel .grayscale4) ∧ 1 < stride 5 .grayscale4
    ∧ ∀ x, x < 5 → x * bpp .grayscale4 / 8 = 1 →
        [0, 0, 0, 0, 3].getD x 0 = maxLevel .grayscale4 := by decide

/-! ### Witnesses: the panel commands -/

/-- V-PS-2: two reads that are not ready in each poll, the most TCFG allows. -/
theorem witness_InitializeCompletes :
    (let s := { base with
        acks := List.replicate 11 .ok,
        busyReads := [.level 0, .level 0, .level 1, .level 0, .level 0, .level 1] }
     [2].length = pollCount (s.cfg.initSeq ++ s.cfg.lutSeq)
      ∧ (∀ k ∈ [2] ++ [2], k < s.cfg.busyMaxPolls)
      ∧ s.acks = List.replicate (writeCount (initializeEvents s.cfg [2] 2)) .ok ++ []
      ∧ s.busyReads = busyAnswers s.cfg ([2] ++ [2]) ++ []) := by decide

/-- V-PS-3, and a buffer at the end of MEM. -/
theorem witness_DisplayCompletes :
    (let s := { withEnv 8 [.level 0, .level 0, .level 1] (idle 2) with
        mem := memOf 4094 [0x0F, 0xFF], psBufBase := 4094 }
     BufferIs (idle 2) [0x0F, 0xFF] ∧ BufferIs s [0x0F, 0xFF]
      ∧ s.psSt = .idle ∧ 2 < s.cfg.busyMaxPolls
      ∧ s.acks = List.replicate (writeCount (transferEvents s.cfg [0x0F, 0xFF] 2)) .ok ++ []
      ∧ s.busyReads = busyAnswers s.cfg [2] ++ []) := by
  unfold BufferIs
  decide

theorem witness_ClearCompletes :
    (let s := withEnv 8 [.level 1] (idle 3)
     s.psSt = .idle ∧ 0 < s.cfg.busyMaxPolls
      ∧ s.acks = List.replicate (writeCount (transferEvents s.cfg
          (List.replicate (expectedLen s.cfg) 0xFF) 0)) .ok ++ []
      ∧ s.busyReads = busyAnswers s.cfg [0] ++ []) := by decide

/-- For SleepCompletes and the first clause of TeardownCompletes; the second needs any other state. -/
theorem witness_SleepCompletes :
    (let s := withEnv 4 [] (idle 4)
     s.psSt = .idle ∧ s.acks = List.replicate (writeCount (sleepEvents s.cfg)) .ok ++ [])
    ∧ base.psSt ≠ .idle := by decide

theorem witness_ClearEqualsDisplayOfWhite :
    (let s := { idle 3 with mem := memOf 0x100 [0xFF, 0xFF] }
     s.psSt = .idle ∧ BufferIs s (List.replicate (expectedLen s.cfg) 0xFF)) := by
  unfold BufferIs
  decide

/-- For WrongStateIsRefused and the first clause of DisplayChecksInOrder. -/
theorem witness_WrongStateIsRefused :
    ∀ h ∈ [HandleState.uninitialized, .asleep, .faulted], ({ idle 2 with psSt := h }).psSt ≠ .idle := by
  decide

/-- The second and third clause of DisplayChecksInOrder at their boundaries. -/
theorem witness_DisplayChecksInOrder :
    (idle 2).psSt = .idle
    ∧ (1 : Word).toNat ≠ expectedLen (idle 2).cfg ∧ (3 : Word).toNat ≠ expectedLen (idle 2).cfg
    ∧ (let s := { idle 2 with psBufBase := 4095 }
       s.psBufLen.toNat = expectedLen s.cfg
        ∧ s.cfg.memSize < s.psBufBase.toNat + s.psBufLen.toNat) := by decide

/-- The first and the last byte of the buffer unwritten. -/
theorem witness_DisplayStopsAtUnwrittenByte :
    (let s := { idle 2 with psBufBase := 4, mem := [] }
     Memory.read s.mem 4 = none ∧ InBufferRegion s 4)
    ∧ (let s := { idle 2 with psBufBase := 4, mem := memOf 4 [1] }
       s.psSt = .idle ∧ s.psBufLen.toNat = expectedLen s.cfg
        ∧ s.psBufBase.toNat + s.psBufLen.toNat ≤ s.cfg.memSize
        ∧ InBufferRegion s 5 ∧ Memory.read s.mem 5 = none
        ∧ ∀ x, x < 5 → s.psBufBase.toNat ≤ x → Memory.read s.mem x ≠ none) := by
  unfold InBufferRegion
  decide

/-- For PanelCommandFrame, PanelStateAfterCommand and PanelEventsAreBounded: a fault-free next state of each
command, with every kind of outcome, and a reserved word. -/
theorem witness_PanelStateAfterCommand :
    (∀ i ∈ panelCommands,
      (after (exec i (withEnv 20 [.level 1, .level 1] (idle 2)))).faults = (idle 2).faults
      ∧ (after (exec i (withEnv 20 [.level 1, .level 1] (idle 2)))).psErr = .none)
    ∧ (after (exec .psSleep { idle 4 with psSt := .asleep })).psErr = .invalidState
    ∧ (after (exec .psDisplay { idle 2 with psBufLen := 3 })).psErr = .bufferSizeMismatch
    ∧ (after (exec .psTeardown { idle 5 with acks := [.fail] })).psErr = .transportError
    ∧ (after (exec .psClear (withEnv 20 (List.replicate 3 (.level 0)) (idle 3)))).psErr
        = .busyTimeout
    ∧ decode .ps (idle 6).psCmdl = .error .reservedOpcode := by decide

/-- V-PS-28 for the first part: a FAIL answer in the middle of DISPLAY's transfer. -/
theorem witness_FailedAnswerEndsCommand :
    (let s := { idle 2 with acks := [.ok, .ok, .ok, .fail] }
     (after (exec .psDisplay s)).psErr = .transportError
      ∧ (after (exec .psDisplay s)).faults = s.faults
      ∧ ((after (exec .psDisplay s)).trace[3]?).map failed = some true) := by decide

/-- For the second part: the first and the last event of INITIALIZE (V-PS-16, V-PS-19), and a read that is not the
last of its poll (V-PS-20). -/
theorem witness_FailedAnswerEndsCommand_initialize :
    WaitsFit tcfg [0] [] 0 ∧ WaitsFit tcfg [2] [] 0
    ∧ (stagedEvents tcfg [] [0] [] 0 .psInitialize)[0]? = some (.reset, .pinWrite .rst 0 .ok)
    ∧ FailsAfter { base with acks := [.fail] } [] (.pinWrite .rst 0 .ok) [] []
    ∧ (stagedEvents tcfg [] [0] [] 0 .psInitialize)[13]? = some (.busyPoll, .pinRead (.level 1))
    ∧ FailsAfter (withEnv 11 [.level 1, .fail] base)
        (((stagedEvents tcfg [] [0] [] 0 .psInitialize).take 13).map (·.2)) (.pinRead (.level 1)) [] []
    ∧ (stagedEvents tcfg [] [2] [] 0 .psInitialize)[9]? = some (.init, .pinRead (.level 0))
    ∧ (stagedEvents tcfg [] [2] [] 0 .psInitialize)[10]? = some (.init, .delay 10)
    ∧ isAnswered (.pinRead (.level 0)) = true := by
  unfold WaitsFit FailsAfter
  decide

/-- For the second part: V-PS-29 and V-PS-30, and a good buffer for DISPLAY. -/
theorem witness_FailedAnswerEndsCommand_transfer :
    (idle 2).psSt = .idle ∧ BufferIs (idle 2) [0x0F, 0xFF]
    ∧ (stagedEvents tcfg [0x0F, 0xFF] [0] [] 0 .psDisplay)[6]? = some (.refresh, .spiWrite 0xB1 .ok)
    ∧ (stagedEvents tcfg [] [0] [] 0 .psClear)[4]? = some (.dataXfer, .spiWrite 0xFF .ok)
    ∧ (stagedEvents tcfg [] [0] [] 0 .psSleep)[3]? = some (.sleep, .spiWrite 0xA5 .ok)
    ∧ FailsAfter { idle 4 with acks := [.ok, .ok, .ok, .fail] }
        (((stagedEvents tcfg [] [0] [] 0 .psSleep).take 3).map (·.2)) (.spiWrite 0xA5 .ok) [] [] := by
  unfold BufferIs FailsAfter
  decide

/-- The first and the last read a poll may make. -/
theorem witness_BusyPollIsBounded :
    (∀ k ∈ [0, 2], k < base.cfg.busyMaxPolls) ∧ 1 ≤ base.cfg.busyMaxPolls
    ∧ busyAnswers base.cfg [2] = [.level 0, .level 0, .level 1]
    ∧ List.replicate base.cfg.busyMaxPolls (BusyAnswer.level (~~~ base.cfg.busyReadyLevel))
        = [.level 0, .level 0, .level 0] := by decide

/-- The answers of a panel that is never ready, after those in `busy`. -/
def neverReady (c : Params) (busy : List BusyAnswer) : List BusyAnswer :=
  busy ++ (List.replicate c.busyMaxPolls (.level (~~~ c.busyReadyLevel)) ++ [])

/-- V-PS-14 and V-PS-15. -/
theorem witness_NeverReadyPanelTimesOut :
    (let s := withEnv 8 (neverReady tcfg []) (idle 3)
     s.cfg = tcfg ∧ 1 ≤ tcfg.busyMaxPolls ∧ s.psSt = .idle
      ∧ s.acks = List.replicate (3 + expectedLen tcfg + 3) .ok ++ [] ∧ BufferIs s [0x0F, 0xFF]) := by
  refine ⟨rfl, by decide, rfl, rfl, ?_⟩
  unfold BufferIs
  decide

/-- For NeverReadyPanelTimesOut: V-PS-12. -/
theorem witness_NeverReadyPanelTimesOut_init :
    (let s := withEnv 6 (neverReady tcfg (busyAnswers tcfg [])) base
     s.cfg = tcfg ∧ tcfg.initSeq = [.cmd 0xA0 [0x11]] ++ .waitBusy :: []
      ∧ ([] : List Nat).length = pollCount [.cmd 0xA0 [0x11]]
      ∧ s.acks = List.replicate (writeCount
          (resetEvents tcfg ++ stepsEvents tcfg [.cmd 0xA0 [0x11]] [])) .ok ++ []) :=
  ⟨rfl, rfl, rfl, rfl⟩

/-- TCFG with a WAIT_BUSY in LUT_SEQ. -/
def lutcfg : Params := { tcfg with lutSeq := [.delay 7, .waitBusy] }

/-- For NeverReadyPanelTimesOut: a WAIT_BUSY of LUT_SEQ times out after INIT_SEQ's own saw ready. -/
theorem witness_NeverReadyPanelTimesOut_lut :
    (let s := withEnv 6 (neverReady lutcfg (busyAnswers lutcfg [0])) { base with cfg := lutcfg }
     s.cfg = lutcfg ∧ lutcfg.lutSeq = [.delay 7] ++ .waitBusy :: []
      ∧ [0].length = pollCount (lutcfg.initSeq ++ [.delay 7]) ∧ (∀ k ∈ [0], k < lutcfg.busyMaxPolls)
      ∧ s.acks = List.replicate (writeCount
          (resetEvents lutcfg ++ stepsEvents lutcfg (lutcfg.initSeq ++ [.delay 7]) [0])) .ok ++ []) :=
  ⟨rfl, rfl, rfl, by decide, rfl⟩

/-- For NeverReadyPanelTimesOut: V-PS-13. -/
theorem witness_NeverReadyPanelTimesOut_last :
    (let s := withEnv 11 (neverReady tcfg (busyAnswers tcfg [0])) base
     s.cfg = tcfg ∧ [0].length = pollCount (tcfg.initSeq ++ tcfg.lutSeq)
      ∧ (∀ k ∈ [0], k < tcfg.busyMaxPolls)
      ∧ s.acks = List.replicate (writeCount
          (resetEvents tcfg ++ stepsEvents tcfg (tcfg.initSeq ++ tcfg.lutSeq) [0])) .ok ++ []) :=
  ⟨rfl, rfl, by decide, rfl⟩

theorem witness_FirstCallFailureIsReported :
    ({ idle 3 with acks := [.fail, .ok] }).acks = .fail :: [.ok]
    ∧ ({ idle 3 with acks := [.fail, .ok] }).psSt = .idle
    ∧ BufferIs { idle 3 with acks := [.fail, .ok] } [0x0F, 0xFF] := by
  unfold BufferIs
  decide

/-- A command that writes both pins with OK answers, and CONVERT, which writes none. -/
theorem witness_PinLatchesFollowTrace :
    (let t := after (exec .psInitialize (withEnv 20 [.level 1, .level 1] base))
     lastPinWrite .rst t.trace = some (1, .ok) ∧ lastPinWrite .dc t.trace = some (1, .ok))
    ∧ lastPinWrite .dc (after (exec .icConvert checker)).trace = none := by decide

/-! ### Witnesses: the host's transactions -/

theorem witness_IssueLatchesWord :
    base.icPend = .none ∧ base.psPend = .none ∧ checker.icPend = .pending
    ∧ (idle 2).psPend = .pending ∧ (idle 2).icPend = .none
    ∧ ¬ ((1 : Word).toNat = 1 ∧ base.psPend = .pending) ∧ ¬ (0xFFFFFFFF : Word).toNat = 1 := by
  decide

/-- For WriteToPendingEngineIsHazard: each clause's premise on PEND, one engine pending at a time and both. -/
theorem witness_WriteToPendingEngineIsHazard :
    (checker.icPend = .pending ∧ checker.psPend = .none)
    ∧ ((idle 2).psPend = .pending ∧ (idle 2).icPend = .none)
    ∧ (0x20 : Offset).toNat ∈ [0x00, 0x08, 0x0C, 0x10, 0x14, 0x18, 0x1C, 0x20]
    ∧ (0x4C : Offset).toNat ∈ [0x40, 0x48, 0x4C] := by decide

/-- A pending CONVERT and a pending DISPLAY. -/
def bothPending : State :=
  { checker with psPend := .pending, psCmdl := 2, psBufBase := 0x200, psBufLen := 2 }

/-- Addresses at the ends of the three regions, and the source's under FMT 0 and the reserved FMT 2 (log 18). -/
theorem witness_MemAccessInFlightIsHazard :
    bothPending.icPend = .pending ∧ bothPending.icCmdl.toNat = 1 ∧ bothPending.psPend = .pending
    ∧ bothPending.psCmdl.toNat = 2 ∧ 0x202 < bothPending.cfg.memSize
    ∧ InSourceRegion bothPending 8 ∧ ¬ InSourceRegion bothPending 9
    ∧ InSourceRegion { bothPending with icSrcFmt := 0 } 26
    ∧ InSourceRegion { bothPending with icSrcFmt := 2 } 26
    ∧ ¬ InSourceRegion { bothPending with icSrcFmt := 0 } 27
    ∧ ¬ InTargetRegion bothPending 0xFF ∧ InTargetRegion bothPending 0x100
    ∧ InTargetRegion bothPending 0x102 ∧ ¬ InTargetRegion bothPending 0x103
    ∧ ¬ InBufferRegion bothPending 0x1FF ∧ InBufferRegion bothPending 0x200
    ∧ InBufferRegion bothPending 0x201 ∧ ¬ InBufferRegion bothPending 0x202
    ∧ Memory.read bothPending.mem 8 = some 0 ∧ Memory.read bothPending.mem 9 = none := by
  unfold InSourceRegion InTargetRegion InBufferRegion
  decide

/-- Regions that share one byte, and regions that only touch, for both engines. -/
theorem witness_CrossEngineIssueIsHazard :
    (let s := fun n : Word => { idle 2 with icDstBase := 0xFE, icDstCap := n }
     (s 3).icPend = .none ∧ (s 3).psPend = .pending ∧ (s 3).psCmdl.toNat = 2
      ∧ TargetMeetsBuffer (s 3) ∧ ¬ TargetMeetsBuffer (s 2))
    ∧ (let s := fun a : Word => { checker with psBufBase := a, psBufLen := 2 }
       (s 0x102).psPend = .none ∧ (s 0x102).icPend = .pending ∧ (s 0x102).icCmdl.toNat = 1
        ∧ TargetMeetsBuffer (s 0x102) ∧ ¬ TargetMeetsBuffer (s 0x103)) := by
  simp only [← regionsOverlap_dst_buf_iff]
  decide

/-- Mapped and unmapped offsets where the two meet: 24H, 25H, 28H, 3CH, 40H, 58H, 5CH, FFH. -/
theorem witness_RegisterAccessRules :
    ([0x24, 0x25, 0x28, 0x3C, 0x40, 0x58, 0x5C, 0xFF] : List Offset).map
        (fun o => decide (o.toNat % 4 = 0 ∧
          (o.toNat ≤ 0x24 ∨ (0x40 ≤ o.toNat ∧ o.toNat ≤ 0x58))))
      = [true, false, false, false, true, true, false, false] := by decide

/-- For WrittenRegisterReadsBack, MemoryPort and NoHazardWithNothingPending. -/
theorem witness_MemoryPort :
    base.icPend = .none ∧ base.psPend = .none ∧ 4095 < base.cfg.memSize ∧ base.cfg.memSize ≤ 4096
    ∧ Memory.read base.mem 4095 = none
    ∧ Fault.hazard .memInFlight 1
        ∈ (hostStep (.memRead 1) { base with faults := [.hazard .memInFlight 1] }).faults := by decide

theorem witness_FaultingAccessChangesOnlyFaults :
    (hostStep (.memRead 4096) base).faults ≠ base.faults := by decide

/-! ### Witnesses: two engines -/

theorem witness_EnginesCompleteInEitherOrder :
    Instr.psClear ∈ [Instr.psInitialize, .psClear, .psSleep, .psTeardown] := by decide

/-- A fault-free CONVERT whose DST_REGION only touches the buffer of a DISPLAY. -/
theorem witness_DisplayIgnoresDisjointConvert :
    (let s := { bothPending with psSt := .idle, psBufBase := 0x103 }
     ¬ TargetMeetsBuffer s ∧ (after (exec .icConvert s)).faults = s.faults) := by
  simp only [← regionsOverlap_dst_buf_iff]
  decide

end Sys2Proof.Tests
end

