-- ==== Sys2Proof/Proofs/Turns.lean ====
section
/-! The step's equations, one for each kind of turn and each case of PEND, and what a step does with each turn
(00_scope.md R6; 20_memory.md R71; 30_encoding.md R83, R87; 60_exceptions.md R210). -/

namespace Sys2Proof.Machine

variable {s : State} {i : Instr} {t : Turn} {rest : List Turn}

/-! ### Taking the next turn -/

theorem step_of_agenda_cons (h : s.agenda = t :: rest) :
    step s = takeTurn t { s with agenda := rest } := by
  unfold step
  rw [h]

theorem step_of_agenda_nil (h : s.agenda = []) : step s = drainStep s := by
  unfold step
  rw [h]

/-- A turn put on an exhausted agenda is taken in the state as it was before. -/
theorem step_singleton_agenda (h : s.agenda = []) (t : Turn) :
    step { s with agenda := [t] } = takeTurn t s := by
  rw [step_of_agenda_cons (t := t) (rest := []) rfl]
  exact congrArg (takeTurn t) (turnState_self h)

/-! ### The turns -/

@[simp] theorem takeTurn_host (x : Transaction) : takeTurn (.host x) s = .next (hostStep x s) := rfl

theorem takeTurn_ic_of_pending (h : s.icPend = .pending) : takeTurn .ic s = completeIc s :=
  if_pos h

theorem takeTurn_ps_of_pending (h : s.psPend = .pending) : takeTurn .ps s = completePs s :=
  if_pos h

/-- IC's turn passes when it has nothing pending (log 17). -/
theorem takeTurn_ic_of_none (h : s.icPend = .none) : takeTurn .ic s = .next s :=
  if_neg (by simp [h])

/-- PS's turn passes when it has nothing pending (log 17). -/
theorem takeTurn_ps_of_none (h : s.psPend = .none) : takeTurn .ps s = .next s :=
  if_neg (by simp [h])

theorem completeIc_of_decode_ok (h : decode .ic s.icCmdl = .ok i) : completeIc s = exec i s := by
  unfold completeIc
  rw [h]

theorem completePs_of_decode_ok (h : decode .ps s.psCmdl = .ok i) : completePs s = exec i s := by
  unfold completePs
  rw [h]

/-- The turn of a pending IC performs the command in its latch. -/
theorem takeTurn_ic_eq_exec (hp : s.icPend = .pending) (hd : decode .ic s.icCmdl = .ok i) :
    takeTurn .ic s = exec i s :=
  (takeTurn_ic_of_pending hp).trans (completeIc_of_decode_ok hd)

/-- The turn of a pending PS performs the command in its latch. -/
theorem takeTurn_ps_eq_exec (hp : s.psPend = .pending) (hd : decode .ps s.psCmdl = .ok i) :
    takeTurn .ps s = exec i s :=
  (takeTurn_ps_of_pending hp).trans (completePs_of_decode_ok hd)

/-! ### The exhausted agenda: each case of PEND as a turn -/

theorem drainStep_of_none (hi : s.icPend = .none) (hp : s.psPend = .none) :
    drainStep s = .next s := by
  unfold drainStep
  rw [hi, hp]

theorem drainStep_eq_ic_turn (hi : s.icPend = .pending) (hp : s.psPend = .none) :
    drainStep s = takeTurn .ic s := by
  rw [takeTurn_ic_of_pending hi]
  unfold drainStep
  rw [hi, hp]

theorem drainStep_eq_ps_turn (hi : s.icPend = .none) (hp : s.psPend = .pending) :
    drainStep s = takeTurn .ps s := by
  rw [takeTurn_ps_of_pending hp]
  unfold drainStep
  rw [hi, hp]

/-- With both engines pending a free value, which the step draws, says whose turn it is (log 2). -/
theorem drainStep_of_both_pending (hi : s.icPend = .pending) (hp : s.psPend = .pending) :
    drainStep s = if Config.freeIcFirst s.draws then takeTurn .ic { s with draws := s.draws + 1 }
      else takeTurn .ps { s with draws := s.draws + 1 } := by
  rw [takeTurn_ic_of_pending (s := { s with draws := s.draws + 1 }) hi,
    takeTurn_ps_of_pending (s := { s with draws := s.draws + 1 }) hp]
  unfold drainStep
  rw [hi, hp]

/-! ### The four cases of an exhausted agenda, as steps -/

theorem step_nil_none (h : s.agenda = []) (hi : s.icPend = .none) (hp : s.psPend = .none) :
    step s = .next s :=
  (step_of_agenda_nil h).trans (drainStep_of_none hi hp)

theorem step_nil_ic (h : s.agenda = []) (hi : s.icPend = .pending) (hp : s.psPend = .none) :
    step s = takeTurn .ic s :=
  (step_of_agenda_nil h).trans (drainStep_eq_ic_turn hi hp)

theorem step_nil_ps (h : s.agenda = []) (hi : s.icPend = .none) (hp : s.psPend = .pending) :
    step s = takeTurn .ps s :=
  (step_of_agenda_nil h).trans (drainStep_eq_ps_turn hi hp)

theorem step_nil_both (h : s.agenda = []) (hi : s.icPend = .pending) (hp : s.psPend = .pending) :
    step s = takeTurn .ic { s with draws := s.draws + 1 } ∨
      step s = takeTurn .ps { s with draws := s.draws + 1 } := by
  rw [step_of_agenda_nil h, drainStep_of_both_pending hi hp]
  split
  · exact .inl rfl
  · exact .inr rfl

end Sys2Proof.Machine

namespace Sys2Proof.Proofs

open Sys2Proof.Machine

/-- Settles O4. A turn of the agenda is taken by `step_of_agenda_cons`; an exhausted agenda is the turn of a pending
engine in the same state, which `step_singleton_agenda` reads as that turn put on the agenda. -/
theorem stepRunsDecodedCommand : Obligations.StepRunsDecodedCommand := by
  unfold Obligations.StepRunsDecodedCommand
  refine ⟨fun s i _ => ⟨?icTurn, ?psTurn, ?icAlone, ?psAlone⟩,
    fun s rest => ⟨?hostTurn, ?icPasses, ?psPasses⟩,
    fun s h => ⟨step_nil_none h, ?drainIc, ?drainPs, ?drainBoth⟩⟩
  case icTurn =>
    intro rest h hp hd
    exact (step_of_agenda_cons h).trans (takeTurn_ic_eq_exec hp hd)
  case psTurn =>
    intro rest h hp hd
    exact (step_of_agenda_cons h).trans (takeTurn_ps_eq_exec hp hd)
  case icAlone =>
    intro h hi hp hd
    exact (step_nil_ic h hi hp).trans (takeTurn_ic_eq_exec hi hd)
  case psAlone =>
    intro h hi hp hd
    exact (step_nil_ps h hi hp).trans (takeTurn_ps_eq_exec hp hd)
  case hostTurn =>
    intro x h
    rw [step_of_agenda_cons h, takeTurn_host]
  case icPasses =>
    intro h hi
    exact (step_of_agenda_cons h).trans (takeTurn_ic_of_none hi)
  case psPasses =>
    intro h hp
    exact (step_of_agenda_cons h).trans (takeTurn_ps_of_none hp)
  case drainIc =>
    intro hi hp
    rw [step_nil_ic h hi hp, step_singleton_agenda h]
  case drainPs =>
    intro hi hp
    rw [step_nil_ps h hi hp, step_singleton_agenda h]
  case drainBoth =>
    intro hi hp
    have hdrawn (t : Turn) : step { s with agenda := [t], draws := s.draws + 1 }
        = takeTurn t { s with draws := s.draws + 1 } :=
      step_singleton_agenda (s := { s with draws := s.draws + 1 }) h t
    rw [hdrawn, hdrawn]
    exact step_nil_both h hi hp

end Sys2Proof.Proofs
end

