-- ==== Sys2Proof/Proofs/StageSizes.lean ====
section
/-! The sizes CONVERT's stages keep: a plane has DH rows, a packed buffer LEN bytes, and the line buffers keep their
length (43_resize.md R178; 44_color_reduce_dither.md R186; 45_bitpack.md R200, R204; 10_state.md R44). -/

namespace Sys2Proof.Machine

/-! ### Rows of the planes -/

@[simp] theorem length_plane (dw dh : Nat) (f : Nat → Nat → Nat) : (plane dw dh f).length = dh := by
  simp [plane]

@[simp] theorem length_resize (fmt : BitVec 2) (src : List Byte) (sw sh dw dh : Nat)
    (fit : BitVec 1) : (resize fmt src sw sh dw dh fit).length = dh := length_plane ..

@[simp] theorem length_reducePixels (f : Nat → Nat → Nat → Nat) (p : List (List Nat)) :
    (reducePixels f p).length = p.length := List.length_mapIdx

@[simp] theorem length_fsRows (n dw : Nat) (p : List (List Nat)) (b : LineBuffers) :
    (fsRows n dw p b).1.length = p.length := by
  induction p generalizing b with
  | nil => rfl
  | cons row rest ih => simp [fsRows, ih]

@[simp] theorem length_reduce (n dw : Nat) (dither : BitVec 2) (p : List (List Nat))
    (b : LineBuffers) : (reduce n dw dither p b).1.length = p.length := by
  unfold reduce
  split
  · exact length_reducePixels ..
  · split
    · exact length_reducePixels ..
    · exact length_fsRows ..

theorem length_convertLevels (m : ColorMode) (src : List Byte) (s : State) :
    (convertLevels m src s).1.length = dstHeight s := by simp [convertLevels]

/-! ### Bytes of the packed buffer -/

@[simp] theorem length_setPixel (b x q : Nat) (row : List Byte) :
    (setPixel b x q row).length = row.length := List.length_set

@[simp] theorem length_packColumns (b x : Nat) (qs : List Nat) (row : List Byte) :
    (packColumns b x qs row).length = row.length := by
  induction qs generalizing x row with
  | nil => rfl
  | cons q qs ih => rw [packColumns, ih, length_setPixel]

@[simp] theorem length_packRow (m : ColorMode) (dw : Nat) (qs : List Nat) :
    (packRow m dw qs).length = stride dw m := by simp [packRow]

theorem length_pack (m : ColorMode) (dw : Nat) (q : List (List Nat)) :
    (pack m dw q).length = bufferLen dw q.length m := by
  induction q with
  | nil => simp [pack, bufferLen]
  | cons row rest ih =>
    rw [pack, List.flatMap_cons, List.length_append, length_packRow]
    rw [pack] at ih
    rw [ih, bufferLen, bufferLen, List.length_cons, Nat.mul_succ, Nat.add_comm]

theorem length_convertBytes (m : ColorMode) (src : List Byte) (s : State) :
    (convertBytes m src s).length = bufferLen (dstWidth s) (dstHeight s) m := by
  rw [convertBytes, length_pack, length_convertLevels]

/-! ### The line buffers -/

/-- Both line buffers have `len` entries. -/
def LineBuffers.HaveLength (len : Nat) (b : LineBuffers) : Prop :=
  b.cur.length = len ∧ b.nxt.length = len

variable {len dw : Nat} {b : LineBuffers}

@[simp] theorem length_addEntry (l : List (BitVec 16)) (x : Nat) (d : Int) :
    (addEntry l x d).length = l.length := List.length_set

theorem LineBuffers.HaveLength.clearNext (h : b.HaveLength len) (hw : dw ≤ len) :
    (clearNext dw b).HaveLength len := by
  obtain ⟨hcur, hnxt⟩ := h
  refine ⟨hcur, ?_⟩
  simp only [Machine.clearNext, List.length_append, List.length_replicate, List.length_drop]
  omega

theorem LineBuffers.HaveLength.nextRow (h : b.HaveLength len) (hw : dw ≤ len) :
    (nextRow dw b).HaveLength len := by
  obtain ⟨hcur, hnxt⟩ := h
  constructor <;>
    simp only [Machine.nextRow, List.length_append, List.length_replicate, List.length_take,
      List.length_drop] <;>
    omega

theorem LineBuffers.HaveLength.diffuse (h : b.HaveLength len) (dw x : Nat) (e : Int) :
    (diffuse dw x e b).HaveLength len := by
  obtain ⟨hcur, hnxt⟩ := h
  constructor
  · simp only [Machine.diffuse]
    split <;> simp [hcur]
  · simp only [Machine.diffuse]
    split <;> split <;> simp [hnxt]

theorem LineBuffers.HaveLength.fsRow (h : b.HaveLength len) (n dw x : Nat) (row : List Nat) :
    (fsRow n dw x row b).2.HaveLength len := by
  induction row generalizing x b with
  | nil => exact h
  | cons luma rest ih => exact ih (h.diffuse ..) (x + 1)

theorem LineBuffers.HaveLength.fsRows (h : b.HaveLength len) (hw : dw ≤ len) (n : Nat)
    (p : List (List Nat)) : (fsRows n dw p b).2.HaveLength len := by
  induction p generalizing b with
  | nil => exact h
  | cons row rest ih => exact ih ((h.nextRow hw).fsRow ..)

theorem LineBuffers.HaveLength.reduce (h : b.HaveLength len) (hw : dw ≤ len) (n : Nat)
    (dither : BitVec 2) (p : List (List Nat)) : (reduce n dw dither p b).2.HaveLength len := by
  unfold Machine.reduce
  split
  · exact h
  · split
    · exact h
    · exact (h.clearNext hw).fsRows hw n p

end Sys2Proof.Machine
end

