-- ==== Sys2Proof/Proofs/Raises.lean ====
section
/-! Which errors, and at which stages, the HAL calls, the protocol primitives and the panel commands can raise
(the Errors lines of 40_panel_primitives.md R100 to R112 and 41_panel_ops.md R125 to R129), and which errors
CONVERT's checks report (60_exceptions.md R213). -/

namespace Sys2Proof.Machine

open Sys2Proof.Safety

/-- If the run raises, its error and stage are among `pairs`. -/
def HalRun.RaisesIn (pairs : List (Err × Stage)) : HalRun → Prop
  | .done _ => True
  | .raised e g _ => (e, g) ∈ pairs

theorem raisesIn_done (pairs : List (Err × Stage)) (s : State) :
    (HalRun.done s).RaisesIn pairs := trivial

theorem raisesIn_raised {pairs : List (Err × Stage)} {e : Err} {g : Stage} (h : (e, g) ∈ pairs)
    (s : State) : (HalRun.raised e g s).RaisesIn pairs := h

theorem raisesIn_halThen {pairs : List (Err × Stage)} {r : HalRun} {k : State → HalRun}
    (hr : r.RaisesIn pairs) (hk : ∀ t, (k t).RaisesIn pairs) : (halThen r k).RaisesIn pairs := by
  cases r with
  | done s => exact hk s
  | raised e g s => exact hr

/-! ### The primitives: TRANSPORT_ERROR at their stage, and the timeout of a busy poll -/

section
variable {pairs : List (Err × Stage)} {e : Err} {g : Stage}

theorem raisesIn_halDelay (ms : Nat) (s : State) : (halDelay ms s).RaisesIn pairs :=
  raisesIn_done ..

theorem raisesIn_spiWrite (hg : (.transportError, g) ∈ pairs) (b : Byte) (s : State) :
    (spiWrite g b s).RaisesIn pairs := by
  obtain ⟨-, h⟩ | ⟨-, h⟩ := spiWrite_cases g b s <;> rw [h]
  · exact raisesIn_done ..
  · exact raisesIn_raised hg _

theorem raisesIn_pinWrite (hg : (.transportError, g) ∈ pairs) (p : OutPin) (l : Level) (s : State) :
    (pinWrite g p l s).RaisesIn pairs := by
  obtain ⟨-, h⟩ | ⟨-, h⟩ := pinWrite_cases g p l s <;> rw [h]
  · exact raisesIn_done ..
  · exact raisesIn_raised hg _

theorem raisesIn_sendBytes (hg : (.transportError, g) ∈ pairs) (bs : List Byte) (s : State) :
    (sendBytes g bs s).RaisesIn pairs := by
  induction bs generalizing s with
  | nil => exact raisesIn_done ..
  | cons b bs ih => exact raisesIn_halThen (raisesIn_spiWrite hg b s) ih

theorem raisesIn_sendCommand (hg : (.transportError, g) ∈ pairs) (opc : Byte) (bs : List Byte)
    (s : State) : (sendCommand g opc bs s).RaisesIn pairs :=
  raisesIn_halThen (raisesIn_pinWrite hg ..) fun _ =>
    raisesIn_halThen (raisesIn_spiWrite hg ..) fun _ =>
      raisesIn_halThen (raisesIn_pinWrite hg ..) fun _ => raisesIn_sendBytes hg ..

theorem raisesIn_pollRead (hg : (.transportError, g) ∈ pairs) {k : State → HalRun}
    (hk : ∀ t, (k t).RaisesIn pairs) (s : State) : (pollRead g k s).RaisesIn pairs := by
  obtain ⟨-, h⟩ | ⟨l, -, -, h⟩ | ⟨l, -, -, h⟩ := pollRead_cases g k s <;> rw [h]
  · exact raisesIn_raised hg _
  · exact raisesIn_done ..
  · exact hk _

theorem raisesIn_pollLoop (hg : (.transportError, g) ∈ pairs) (he : (e, g) ∈ pairs) (n : Nat)
    (s : State) : (pollLoop e g n s).RaisesIn pairs := by
  induction n generalizing s with
  | zero => exact raisesIn_pollRead hg (raisesIn_raised he) s
  | succ n ih =>
    exact raisesIn_pollRead hg (fun _ => raisesIn_halThen (raisesIn_halDelay ..) ih) s

theorem raisesIn_busyPoll (hg : (.transportError, g) ∈ pairs) (he : (e, g) ∈ pairs) (s : State) :
    (busyPoll e g s).RaisesIn pairs :=
  raisesIn_pollLoop hg he ..

theorem raisesIn_execStep (hg : (.transportError, g) ∈ pairs) (he : (e, g) ∈ pairs) (p : PanelStep)
    (s : State) : (execStep e g p s).RaisesIn pairs := by
  cases p with
  | cmd opc bs => exact raisesIn_sendCommand hg ..
  | delay ms => exact raisesIn_halDelay ..
  | waitBusy => exact raisesIn_busyPoll hg he _

theorem raisesIn_execSteps (hg : (.transportError, g) ∈ pairs) (he : (e, g) ∈ pairs)
    (ps : List PanelStep) (s : State) : (execSteps e g ps s).RaisesIn pairs := by
  induction ps generalizing s with
  | nil => exact raisesIn_done ..
  | cons p ps ih => exact raisesIn_halThen (raisesIn_execStep hg he ..) ih

theorem raisesIn_resetPulse (hg : (.transportError, .reset) ∈ pairs) (s : State) :
    (resetPulse s).RaisesIn pairs :=
  raisesIn_halThen (raisesIn_pinWrite hg ..) fun _ =>
    raisesIn_halThen (raisesIn_halDelay ..) fun _ => raisesIn_pinWrite hg ..

end

/-! ### The HAL parts of the panel commands -/

theorem raisesIn_initializeRun (s : State) : (initializeRun s).RaisesIn legalPsPairs :=
  raisesIn_halThen (raisesIn_resetPulse (by decide) s) fun _ =>
    raisesIn_halThen (raisesIn_execSteps (by decide) (by decide) ..) fun _ =>
      raisesIn_halThen (raisesIn_execSteps (by decide) (by decide) ..) fun _ =>
        raisesIn_busyPoll (by decide) (by decide) _

theorem raisesIn_transferRun (bs : List Byte) (s : State) :
    (transferRun bs s).RaisesIn legalPsPairs :=
  raisesIn_halThen (raisesIn_sendCommand (by decide) ..) fun _ =>
    raisesIn_halThen (raisesIn_sendCommand (by decide) ..) fun _ =>
      raisesIn_busyPoll (by decide) (by decide) _

/-- The only error of sleep_seq (40_panel_primitives.md R112). -/
theorem raisesIn_sleepSeq (s : State) : (sleepSeq s).RaisesIn [(.transportError, .sleep)] :=
  raisesIn_sendCommand (by decide) ..

/-! ### The errors of the panel commands -/

/-- The errors and stages a command may report: a legal pair, and for TEARDOWN no HAL error but that of sleep_seq
(41_panel_ops.md R129). -/
def LegalRaise (i : Instr) (e : Err) (g : Stage) : Prop :=
  (e, g) ∈ legalPsPairs ∧
    (i = .psTeardown → halError e = true → e = .transportError ∧ g = .sleep)

theorem legalRaise_of_mem {i : Instr} (hi : i ≠ .psTeardown) {e : Err} {g : Stage}
    (h : (e, g) ∈ legalPsPairs) : LegalRaise i e g :=
  ⟨h, fun ht => absurd ht hi⟩

theorem legalRaise_of_sleepSeq (i : Instr) {e : Err} {g : Stage}
    (h : (e, g) ∈ [(Err.transportError, Stage.sleep)]) : LegalRaise i e g := by
  obtain ⟨rfl, rfl⟩ : e = .transportError ∧ g = .sleep := by simpa using h
  exact ⟨by decide, fun _ _ => ⟨rfl, rfl⟩⟩

/-- DISPLAY's checks report two errors (41_panel_ops.md R123). -/
theorem displayCheck_some {s : State} {e : Err} (h : displayCheck s = some e) :
    e = .invalidState ∨ e = .bufferSizeMismatch := by
  unfold displayCheck at h
  split_ifs at h <;> cases h <;> simp

theorem legalRaise_of_displayCheck {s : State} {e : Err} (h : displayCheck s = some e) :
    LegalRaise .psDisplay e .validate := by
  refine legalRaise_of_mem (by decide) ?_
  obtain rfl | rfl := displayCheck_some h <;> decide

/-! ### The errors of CONVERT -/

theorem convertChecksFrom3_some {m : ColorMode} {s : State} {p : Err × BitVec 4}
    (h : convertChecksFrom3 m s = some p) : p ∈ legalIcPairs := by
  unfold convertChecksFrom3 at h
  dsimp only at h
  split_ifs at h <;> cases h <;> decide

/-- Every error CONVERT's validation reports is a legal one (60_exceptions.md R213). -/
theorem convertCheck_error_mem {s : State} {p : Err × BitVec 4} (h : convertCheck s = .error p) :
    p ∈ legalIcPairs := by
  unfold convertCheck at h
  split at h
  · cases h; decide
  · split at h
    · cases h; decide
    · split at h
      · rename_i hk
        cases h
        exact convertChecksFrom3_some hk
      · cases h

end Sys2Proof.Machine
end

