-- ==== Sys2Proof/Proofs/Kept.lean ====
section
/-! What every step keeps, as one rule: a property of states that the named updates keep is kept by every step. The
invariant and the history of the machine both come from it. -/

namespace Sys2Proof.Machine

open Sys2Proof.Safety

/-- Every update a step is made of keeps `P`: the bookkeeping of a turn, the host's accesses, and the completions
of the two engines with the errors they can report. -/
structure KeptByUpdates (P : State → Prop) : Prop where
  turn : ∀ rest d s, P s → P (turnState rest d s)
  fault : ∀ f s, P s → P (recordFault f s)
  reply : ∀ r s, P s → P (sendReply r s)
  reg : ∀ r w s, P s → P (regStore r w s)
  mem : ∀ a b s, a < s.cfg.memSize → P s → P { s with mem := Memory.write s.mem a b }
  icRaise : ∀ e c s, (e, c) ∈ legalIcPairs → P s → P (icRaiseConvert e c s)
  icIllegal : ∀ s, P s → P (icRaiseIllegal s)
  icUnwritten : ∀ a s, P s → P (icUnwritten a s)
  convertStore : ∀ m src s, convertCheck s = .ok m → P s → P (convertStore m src s)
  hal : ∀ s t, HalStep s t → P s → P t
  psComplete : ∀ h s, P s → P (psCompleteOk h s)
  psRaise : ∀ i e g s, LegalRaise i e g → P s → P (psRaise i e g s)
  psIllegal : ∀ s, P s → P (psRaiseIllegal s)
  psUnwritten : ∀ a s, P s → P (psUnwritten a s)

namespace KeptByUpdates

variable {P : State → Prop} {s t : State}

/-! ### The host's transactions -/

theorem regWriteStep (k : KeptByUpdates P) (off : Offset) (w : Word) (h : P s) :
    P (regWriteStep off w s) := by
  obtain ⟨-, e⟩ | ⟨r, -, ⟨-, e⟩ | ⟨-, -, e⟩ | ⟨-, -, e⟩⟩ := regWriteStep_cases off w s <;> rw [e]
  · exact k.fault _ _ h
  · exact k.fault _ _ h
  · exact k.fault _ _ h
  · exact k.reg r w s h

theorem regReadStep (k : KeptByUpdates P) (off : Offset) (h : P s) : P (regReadStep off s) := by
  obtain ⟨-, e⟩ | ⟨r, -, e⟩ := regReadStep_cases off s <;> rw [e]
  · exact k.reply _ _ (k.fault _ _ h)
  · exact k.reply _ _ h

theorem memWriteStep (k : KeptByUpdates P) (a : Nat) (b : Byte) (h : P s) :
    P (memWriteStep a b s) := by
  obtain ⟨-, e⟩ | ⟨-, -, e⟩ | ⟨ha, -, e⟩ := memWriteStep_cases a b s <;> rw [e]
  · exact k.fault _ _ h
  · exact k.fault _ _ h
  · exact k.mem a b s ha h

theorem memReadStep (k : KeptByUpdates P) (a : Nat) (h : P s) : P (memReadStep a s) := by
  obtain ⟨-, e⟩ | ⟨-, -, e⟩ | ⟨-, -, b, -, e⟩ | ⟨-, -, -, e⟩ := memReadStep_cases a s <;> rw [e]
  · exact k.reply _ _ (k.fault _ _ h)
  · exact k.reply _ _ (k.fault _ _ h)
  · exact k.reply _ _ h
  · exact k.reply _ _ (k.fault _ _ h)

theorem otherWidthStep (k : KeptByUpdates P) (f : Fault) (isRead : Bool) (zero : Reply) (h : P s) :
    P (otherWidthStep f isRead zero s) := by
  cases isRead with
  | false => exact k.fault _ _ h
  | true => exact k.reply _ _ (k.fault _ _ h)

theorem hostStep (k : KeptByUpdates P) (x : Transaction) (h : P s) : P (hostStep x s) := by
  cases x with
  | regWrite off w => exact k.regWriteStep off w h
  | regRead off => exact k.regReadStep off h
  | memWrite a b => exact k.memWriteStep a b h
  | memRead a => exact k.memReadStep a h
  | regOtherWidth off isRead => exact k.otherWidthStep _ isRead _ h
  | memManyBytes a isRead => exact k.otherWidthStep _ isRead _ h

/-! ### The commands -/

theorem convertStep (k : KeptByUpdates P) (h : P s) : P (convertStep s) := by
  obtain ⟨e, c, hc, r⟩ | ⟨m, a, -, -, r⟩ | ⟨m, src, hc, -, r⟩ := convertStep_cases s <;> rw [r]
  · exact k.icRaise e c s (convertCheck_error_mem hc) h
  · exact k.icUnwritten a s h
  · exact k.convertStore m src s hc h

/-- The end of a panel command whose HAL part raises only errors legal for it. -/
theorem psFinish (k : KeptByUpdates P) {i : Instr} {r : HalRun} {pairs : List (Err × Stage)}
    (next : HandleState) (hr : r.RaisesIn pairs)
    (hpairs : ∀ {e g}, (e, g) ∈ pairs → LegalRaise i e g) (hs : HalStep s r.state) (h : P s) :
    P (psFinish i next r) := by
  have hend : P r.state := k.hal s r.state hs h
  obtain ⟨t, rfl, e⟩ | ⟨e, g, t, rfl, e'⟩ := psFinish_cases i next r
  · rw [e]; exact k.psComplete next t hend
  · rw [e']; exact k.psRaise i e g t (hpairs hr) hend

theorem displayStep (k : KeptByUpdates P) (h : P s) : P (displayStep s) := by
  obtain ⟨e, hc, r⟩ | ⟨a, -, -, r⟩ | ⟨bytes, -, -, r⟩ := displayStep_cases s <;> rw [r]
  · exact k.psRaise _ _ _ s (legalRaise_of_displayCheck hc) h
  · exact k.psUnwritten a s h
  · exact k.psFinish _ (raisesIn_transferRun bytes s) (legalRaise_of_mem (by decide))
      (halStep_transferRun bytes s) h

theorem clearStep (k : KeptByUpdates P) (h : P s) : P (clearStep s) := by
  obtain ⟨-, r⟩ | ⟨-, r⟩ := clearStep_cases s <;> rw [r]
  · exact k.psRaise _ _ _ s (legalRaise_of_mem (by decide) (by decide)) h
  · exact k.psFinish _ (raisesIn_transferRun _ s) (legalRaise_of_mem (by decide))
      (halStep_transferRun _ s) h

theorem sleepStep (k : KeptByUpdates P) (h : P s) : P (sleepStep s) := by
  obtain ⟨-, r⟩ | ⟨-, r⟩ := sleepStep_cases s <;> rw [r]
  · exact k.psRaise _ _ _ s (legalRaise_of_mem (by decide) (by decide)) h
  · exact k.psFinish _ (raisesIn_sleepSeq s) (legalRaise_of_sleepSeq _) (halStep_sleepSeq s) h

theorem teardownStep (k : KeptByUpdates P) (h : P s) : P (teardownStep s) := by
  obtain ⟨-, r⟩ | ⟨-, r⟩ := teardownStep_cases s <;> rw [r]
  · exact k.psFinish _ (raisesIn_sleepSeq s) (legalRaise_of_sleepSeq _) (halStep_sleepSeq s) h
  · exact k.psComplete _ s h

theorem exec (k : KeptByUpdates P) {i : Instr} (h : P s) (e : exec i s = .next t) : P t := by
  cases i with
  | icConvert => cases e; exact k.convertStep h
  | psInitialize =>
    cases e
    exact k.psFinish _ (raisesIn_initializeRun s) (legalRaise_of_mem (by decide))
      (halStep_initializeRun s) h
  | psDisplay => cases e; exact k.displayStep h
  | psClear => cases e; exact k.clearStep h
  | psSleep => cases e; exact k.sleepStep h
  | psTeardown => cases e; exact k.teardownStep h

/-! ### A step -/

theorem completeIc (k : KeptByUpdates P) (h : P s) (e : completeIc s = .next t) : P t := by
  obtain ⟨x, -, r⟩ | ⟨i, -, r⟩ := completeIc_cases s <;> rw [r] at e
  · cases e; exact k.icIllegal s h
  · exact k.exec h e

theorem completePs (k : KeptByUpdates P) (h : P s) (e : completePs s = .next t) : P t := by
  obtain ⟨x, -, r⟩ | ⟨i, -, r⟩ := completePs_cases s <;> rw [r] at e
  · cases e; exact k.psIllegal s h
  · exact k.exec h e

/-- The rule: what every update keeps, every step keeps. -/
theorem step (k : KeptByUpdates P) (h : P s) (e : step s = .next t) : P t := by
  obtain ⟨x, rest, -, r⟩ | ⟨rest, d, -, r⟩ | ⟨rest, d, -, r⟩ | ⟨rest, r⟩ := step_cases s <;>
    rw [r] at e
  · cases e; exact k.hostStep x (k.turn _ _ _ h)
  · exact k.completeIc (k.turn _ _ _ h) e
  · exact k.completePs (k.turn _ _ _ h) e
  · cases e; exact k.turn _ _ _ h

end KeptByUpdates

end Sys2Proof.Machine
end

