-- ==== Sys2Proof/Proofs/Invariant.lean ====
section
/-! Every update of the machine keeps `Inv`, and so every step does (10_state.md R23, R44, R50; 20_memory.md R60;
60_exceptions.md R212 to R214; 70_reset_and_hazards.md R235). Each lemma names the clauses its update touches. -/

namespace Sys2Proof.Machine

open Sys2Proof.Safety

variable {s t : State}

/-! ### Updates of fields the invariant does not speak of -/

theorem inv_turnState (rest : List Turn) (d : Nat) (h : Inv s) : Inv (turnState rest d s) :=
  { h with }

theorem inv_recordFault (f : Fault) (h : Inv s) : Inv (recordFault f s) := { h with }

theorem inv_sendReply (r : Reply) (h : Inv s) : Inv (sendReply r s) := { h with }

theorem inv_of_halStep (hs : HalStep s t) (h : Inv s) : Inv t := by
  have frame := hs.1
  unfold HalFrame at frame
  rw [frame]
  exact { h with }

/-! ### Registers and MEM -/

theorem inv_icIssue (w : Word) (h : Inv s) : Inv (icIssue w s) :=
  { h with
    ic_pair := by simp [legalIcPairs]
    ic_pending := fun _ => rfl
    ic_not_done := fun _ => rfl }

theorem inv_psIssue (w : Word) (h : Inv s) : Inv (psIssue w s) :=
  { h with
    ps_pair := by simp [legalPsPairs]
    ps_pending := fun _ => rfl
    ps_not_done := fun _ => rfl
    after_hal_error := by simp [halError] }

theorem toNat_and_srcFmtMask (w : Word) : (w &&& srcFmtMask).toNat = w.toNat % 4 := by
  rw [and_srcFmtMask, BitVec.toNat_ofNat]
  omega

theorem toNat_and_modeMask (w : Word) : (w &&& modeMask).toNat = w.toNat % 128 := by
  rw [and_modeMask, BitVec.toNat_ofNat]
  omega

/-- A stored register keeps the invariant: an issue clears the status, and a write leaves reserved fields 0. -/
theorem inv_regStore (r : Reg) (w : Word) (h : Inv s) : Inv (regStore r w s) := by
  cases r with
  | icCmd => exact inv_icIssue w h
  | psCmd => exact inv_psIssue w h
  | icSrcFmt => exact { h with srcFmt_reserved := toNat_and_srcFmtMask w ▸ Nat.mod_lt _ (by decide) }
  | icMode => exact { h with mode_reserved := toNat_and_modeMask w ▸ Nat.mod_lt _ (by decide) }
  | icSrcDim | icSrcBase | icDstDim | icDstBase | icDstCap | psBufBase | psBufLen =>
    exact { h with }
  | icStatus | icOutLen | psStatus | psExpLen | psPanelDim | psPanelMode => exact h

theorem inv_memWrite {a : Nat} (b : Byte) (ha : a < s.cfg.memSize) (h : Inv s) :
    Inv { s with mem := Memory.write s.mem a b } :=
  { h with
    mem_wf := Memory.wf_write a b h.mem_wf
    mem_bounded := fun x hx => by
      by_cases hxa : x = a
      · exact hxa ▸ ha
      · exact h.mem_bounded x (by rwa [Memory.read_write_other _ _ hxa] at hx) }

/-! ### Completions of the image_converter -/

theorem inv_icRaiseConvert {e : Err} {c : BitVec 4} (he : (e, c) ∈ legalIcPairs) (h : Inv s) :
    Inv (icRaiseConvert e c s) :=
  { h with
    ic_pair := he
    ic_pending := by simp
    ic_not_done := by simp }

theorem inv_icRaiseIllegal (h : Inv s) : Inv (icRaiseIllegal s) :=
  { h with
    ic_pair := by simp [legalIcPairs]
    ic_pending := by simp
    ic_not_done := by simp }

theorem inv_icUnwritten (a : Nat) (h : Inv s) : Inv (icUnwritten a s) :=
  { h with ic_pending := by simp }

/-- A run of bytes written below MEM_SIZE leaves every written address below it. -/
theorem writeBytes_bounded {m : Memory} {a size : Nat} {bs : List Byte}
    (hm : ∀ x, Memory.read m x ≠ none → x < size) (hb : a + bs.length ≤ size) (x : Nat)
    (hx : Memory.read (writeBytes m a bs) x ≠ none) : x < size := by
  by_cases hin : x < a ∨ a + bs.length ≤ x
  · exact hm x (by rwa [read_writeBytes_outside m bs hin] at hx)
  · omega

/-- A stored CONVERT passed its checks: its bytes end below MEM_SIZE and DW fits the line buffers
(42_convert.md R152). -/
theorem inv_convertStore {m : ColorMode} (src : List Byte) (hc : convertCheck s = .ok m)
    (h : Inv s) : Inv (convertStore m src s) := by
  obtain ⟨-, -, hnone⟩ := (convertCheck_ok_iff s m).1 hc
  obtain ⟨-, -, -, -, -, -, hw, -, -, hend, -⟩ := (convertChecksFrom3_none_iff m s).1 hnone
  have hbuffers : (convertLevels m src s).2.HaveLength s.cfg.icMaxW :=
    LineBuffers.HaveLength.reduce ⟨h.fsCur_length, h.fsNxt_length⟩ hw ..
  obtain ⟨hcur, hnxt⟩ := hbuffers
  exact { h with
    mem_wf := wf_writeBytes _ _ h.mem_wf
    mem_bounded := writeBytes_bounded h.mem_bounded (by rwa [length_convertBytes])
    fsCur_length := hcur
    fsNxt_length := hnxt
    ic_pair := by simp [convertStore, legalIcPairs]
    ic_pending := by simp [convertStore]
    ic_not_done := by simp [convertStore] }

/-! ### Completions of the panel_state_machine -/

theorem inv_psCompleteOk (st : HandleState) (h : Inv s) : Inv (psCompleteOk st s) :=
  { h with
    ps_pair := by simp [legalPsPairs]
    ps_pending := by simp
    ps_not_done := by simp
    after_hal_error := by simp [halError] }

/-- No HAL error is a validation error (41_panel_ops.md R132). -/
theorem validationError_of_halError {e : Err} (he : halError e = true) :
    validationError e = false := by
  revert he
  cases e <;> simp [halError, validationError]

/-- The handle after a HAL error (41_panel_ops.md R132). -/
theorem psStateAfterError_of_halError {e : Err} (he : halError e = true) (i : Instr)
    (st : HandleState) :
    psStateAfterError i e st = if i = .psTeardown then .uninitialized else .faulted := by
  simp [psStateAfterError, validationError_of_halError he]

theorem inv_psRaise {i : Instr} {e : Err} {g : Stage} (hl : LegalRaise i e g) (h : Inv s) :
    Inv (psRaise i e g s) := by
  obtain ⟨hpair, hteardown⟩ := hl
  exact { h with
    ps_pair := hpair
    ps_pending := by simp
    ps_not_done := by simp
    after_hal_error := fun he => by
      simp only [psRaise_psErr, psRaise_psStage, psRaise_psSt] at he ⊢
      rw [psStateAfterError_of_halError he]
      by_cases hi : i = .psTeardown
      · exact .inr ⟨if_pos hi, hteardown hi he⟩
      · exact .inl (if_neg hi) }

theorem inv_psRaiseIllegal (h : Inv s) : Inv (psRaiseIllegal s) :=
  { h with
    ps_pair := by simp [legalPsPairs]
    ps_pending := by simp
    ps_not_done := by simp
    after_hal_error := by simp [halError] }

theorem inv_psUnwritten (a : Nat) (h : Inv s) : Inv (psUnwritten a s) :=
  { h with ps_pending := by simp }

/-! ### Every step -/

theorem inv_keptByUpdates : KeptByUpdates Inv where
  turn rest d _ := inv_turnState rest d
  fault f _ := inv_recordFault f
  reply r _ := inv_sendReply r
  reg r w _ := inv_regStore r w
  mem _ b _ := inv_memWrite b
  icRaise _ _ _ := inv_icRaiseConvert
  icIllegal _ := inv_icRaiseIllegal
  icUnwritten a _ := inv_icUnwritten a
  convertStore _ src _ := inv_convertStore src
  hal _ _ := inv_of_halStep
  psComplete st _ := inv_psCompleteOk st
  psRaise _ _ _ _ := inv_psRaise
  psIllegal _ := inv_psRaiseIllegal
  psUnwritten a _ := inv_psUnwritten a

end Sys2Proof.Machine

namespace Sys2Proof.Proofs

open Sys2Proof.Machine

/-- Settles O9: the invariant is kept by every update a step is made of. -/
theorem stepKeepsInvariant : Obligations.StepKeepsInvariant := by
  unfold Obligations.StepKeepsInvariant
  intro s t h e
  exact inv_keptByUpdates.step h e

end Sys2Proof.Proofs
end

