-- ==== Sys2Proof/Proofs/History.lean ====
section
/-! Every update of the machine keeps the parameters and only appends to FAULTS and TRACE, and so every step does
(10_state.md R46, R47, R49). -/

namespace Sys2Proof.Machine

open Sys2Proof.Safety

/-- `t` can come after `s`: the same parameters, and FAULTS and TRACE that continue those of `s`. -/
structure Continues (s t : State) : Prop where
  cfg : t.cfg = s.cfg
  faults : s.faults <+: t.faults
  trace : s.trace <+: t.trace

variable {s t u : State}

theorem Continues.refl (s : State) : Continues s s :=
  ⟨rfl, List.prefix_refl _, List.prefix_refl _⟩

theorem Continues.trans (h : Continues s t) (k : Continues t u) : Continues s u :=
  ⟨k.cfg.trans h.cfg, h.faults.trans k.faults, h.trace.trans k.trace⟩

/-- An update that touches neither the parameters nor FAULTS nor TRACE. -/
theorem Continues.of_eq (hcfg : t.cfg = s.cfg) (hfaults : t.faults = s.faults)
    (htrace : t.trace = s.trace) : Continues s t :=
  ⟨hcfg, hfaults ▸ List.prefix_refl _, htrace ▸ List.prefix_refl _⟩

/-- An update that appends one fault. -/
theorem Continues.of_fault (f : Fault) (hcfg : t.cfg = s.cfg) (hfaults : t.faults = s.faults ++ [f])
    (htrace : t.trace = s.trace) : Continues s t :=
  ⟨hcfg, hfaults ▸ List.prefix_append _ _, htrace ▸ List.prefix_refl _⟩

theorem Continues.of_halStep (h : HalStep s t) : Continues s t := by
  obtain ⟨frame, htrace⟩ := h
  unfold HalFrame at frame
  exact ⟨by rw [frame], by rw [frame], htrace⟩

theorem continues_regStore (r : Reg) (w : Word) (s : State) : Continues s (regStore r w s) := by
  cases r <;> exact .of_eq rfl rfl rfl

theorem continues_keptByUpdates (s : State) : KeptByUpdates (Continues s) where
  turn _ _ _ h := h.trans (.of_eq rfl rfl rfl)
  fault f _ h := h.trans (.of_fault f rfl rfl rfl)
  reply _ _ h := h.trans (.of_eq rfl rfl rfl)
  reg r w _ h := h.trans (continues_regStore r w _)
  mem _ _ _ _ h := h.trans (.of_eq rfl rfl rfl)
  icRaise _ _ _ _ h := h.trans (.of_eq rfl rfl rfl)
  icIllegal _ h := h.trans (.of_eq rfl rfl rfl)
  icUnwritten _ _ h := h.trans (.of_fault _ rfl rfl rfl)
  convertStore _ _ _ _ h := h.trans (.of_eq rfl rfl rfl)
  hal _ _ hs h := h.trans (.of_halStep hs)
  psComplete _ _ h := h.trans (.of_eq rfl rfl rfl)
  psRaise _ _ _ _ _ h := h.trans (.of_eq rfl rfl rfl)
  psIllegal _ h := h.trans (.of_eq rfl rfl rfl)
  psUnwritten _ _ h := h.trans (.of_fault _ rfl rfl rfl)

/-- The state after a step continues the state before it. -/
theorem continues_of_step (e : step s = .next t) : Continues s t :=
  (continues_keptByUpdates s).step (.refl s) e

end Sys2Proof.Machine

namespace Sys2Proof.Proofs

open Sys2Proof.Machine

/-- Settles O10. -/
theorem stepKeepsParameters : Obligations.StepKeepsParameters := by
  unfold Obligations.StepKeepsParameters
  intro s t e
  exact (continues_of_step e).cfg

/-- Settles O11: both lists are empty at reset, and a step continues them. -/
theorem traceAndFaultsOnlyGrow : Obligations.TraceAndFaultsOnlyGrow := by
  unfold Obligations.TraceAndFaultsOnlyGrow
  refine ⟨rfl, rfl, fun s t e => ?_⟩
  obtain ⟨-, ⟨fs, hfaults⟩, ⟨es, htrace⟩⟩ := continues_of_step e
  exact ⟨⟨fs, hfaults.symm⟩, ⟨es, htrace.symm⟩⟩

end Sys2Proof.Proofs
end

