-- ==== Sys2Proof/Proofs/StatusWords.lean ====
section
/-! The status words as numbers, and the visible state of the handle (10_state.md R25, R35, R42, R43). -/

namespace Sys2Proof.Machine

/-! ### Fields of a word -/

/-- A concatenation of fields is the sum of its fields, each at its bit position. -/
theorem toNat_append_eq_add {n m : Nat} (x : BitVec n) (y : BitVec m) :
    (x ++ y).toNat = 2 ^ m * x.toNat + y.toNat := by
  rw [BitVec.toNat_append, ← Nat.shiftLeft_add_eq_or_of_lt y.isLt, Nat.shiftLeft_eq, Nat.mul_comm]

theorem toNat_flagBit (b : Bool) : (flagBit b).toNat = if b = true then 1 else 0 := by
  cases b <;> rfl

theorem icBusy_eq_true_iff (s : State) : icBusy s = true ↔ s.icPend = .pending := by
  unfold icBusy
  cases s.icPend <;> simp

theorem psBusy_eq_true_iff (s : State) : psBusy s = true ↔ s.psPend = .pending := by
  unfold psBusy
  cases s.psPend <;> simp

/-- IC_STATUS: BUSY at bit 0, DONE at 1, ERR from 8, CAUSE from 20 (R25). -/
theorem toNat_icStatusWord (s : State) :
    (icStatusWord s).toNat =
      (if s.icPend = .pending then 1 else 0) + (if s.icDone = true then 2 else 0)
        + 2 ^ 8 * (errCode s.icErr).toNat + 2 ^ 20 * s.icCause.toNat := by
  unfold icStatusWord
  simp only [toNat_append_eq_add, toNat_flagBit, icBusy_eq_true_iff, BitVec.ofNat_eq_ofNat,
    BitVec.toNat_ofNat]
  split <;> split <;> omega

/-- PS_STATUS: BUSY at bit 0, DONE at 1, ERR from 8, STATE from 16, STAGE from 20 (R35). -/
theorem toNat_psStatusWord (s : State) :
    (psStatusWord s).toNat =
      (if s.psPend = .pending then 1 else 0) + (if s.psDone = true then 2 else 0)
        + 2 ^ 8 * (errCode s.psErr).toNat + 2 ^ 16 * (visibleCode s).toNat
        + 2 ^ 20 * (stageCode s.psStage).toNat := by
  unfold psStatusWord
  simp only [toNat_append_eq_add, toNat_flagBit, psBusy_eq_true_iff, BitVec.ofNat_eq_ofNat,
    BitVec.toNat_ofNat]
  split <;> split <;> omega

/-! ### The visible state -/

/-- A word is the number of its opcode exactly when its RSV field is 0 (30_encoding.md R80). -/
theorem wordOp_wordRsv_iff (w : Word) (c : Byte) :
    wordOp w = c ∧ wordRsv w = 0 ↔ w.toNat = c.toNat := by
  have hw := w.isLt
  have hc := c.isLt
  simp only [wordOp, wordRsv, ← BitVec.toNat_inj, BitVec.extractLsb'_toNat,
    BitVec.ofNat_eq_ofNat, BitVec.toNat_ofNat, Nat.shiftRight_eq_div_pow]
  omega

/-- The handle shows DISPLAYING while a DISPLAY or CLEAR word is pending from IDLE (R42). -/
theorem displaying_iff (s : State) :
    displaying s = true ↔
      s.psPend = .pending ∧ (s.psCmdl.toNat = 2 ∨ s.psCmdl.toNat = 3) ∧ s.psSt = .idle := by
  have h2 := wordOp_wordRsv_iff s.psCmdl 2
  have h3 := wordOp_wordRsv_iff s.psCmdl 3
  simp only [show (2 : Byte).toNat = 2 from rfl, show (3 : Byte).toNat = 3 from rfl] at h2 h3
  simp only [displaying, Bool.and_eq_true, Bool.or_eq_true, decide_eq_true_eq, ← h2, ← h3]
  tauto

theorem visibleCode_of_displaying {s : State} (h : displaying s = true) : visibleCode s = 2 :=
  if_pos h

theorem visibleCode_of_not_displaying {s : State} (h : ¬ displaying s = true) :
    visibleCode s = handleCode s.psSt :=
  if_neg h

end Sys2Proof.Machine

namespace Sys2Proof.Proofs

open Sys2Proof.Machine

/-- Settles O47. -/
theorem statusWordLayout : Obligations.StatusWordLayout := by
  unfold Obligations.StatusWordLayout
  exact fun s => ⟨toNat_icStatusWord s, toNat_psStatusWord s⟩

/-- Settles O49, by whether the handle shows DISPLAYING and then by the stored state. -/
theorem visibleStateCodes : Obligations.VisibleStateCodes := by
  unfold Obligations.VisibleStateCodes
  intro s
  by_cases h : displaying s = true
  · rw [visibleCode_of_displaying h, if_pos ((displaying_iff s).1 h)]
    decide
  · rw [visibleCode_of_not_displaying h, if_neg (mt (displaying_iff s).2 h)]
    cases s.psSt <;> exact ⟨rfl, by decide⟩

end Sys2Proof.Proofs
end

