-- ==== Sys2Proof/Proofs/Registers.lean ====
section
/-! The host's register accesses: which offsets are mapped, what a read of each register returns, and what a write
to an operand register leaves (10_state.md R22 to R40; 20_memory.md R67). -/

namespace Sys2Proof.Machine

variable {s : State} {off : Offset} {r : Reg}

/-! ### The register map -/

@[simp] theorem regAt_regOffset (r : Reg) : regAt (regOffset r) = some r := by cases r <;> rfl

theorem mem_allRegs (r : Reg) : r ∈ allRegs := by cases r <;> decide

theorem regAt_eq_none_iff (off : Offset) : regAt off = none ↔ ¬ ∃ r, regOffset r = off := by
  simp [regAt, List.find?_eq_none, mem_allRegs]

/-- The mapped offsets are the aligned ones up to 24H and from 40H to 58H (R22). -/
theorem exists_regOffset_iff (off : Offset) :
    (∃ r, regOffset r = off) ↔
      off.toNat % 4 = 0 ∧ (off.toNat ≤ 0x24 ∨ (0x40 ≤ off.toNat ∧ off.toNat ≤ 0x58)) := by
  have hlist : (∃ r, regOffset r = off) ↔ off.toNat ∈ allRegs.map fun r => (regOffset r).toNat := by
    simp [mem_allRegs, BitVec.toNat_inj]
  rw [hlist]
  simp only [allRegs, regOffset, List.map_cons, List.map_nil, List.mem_cons, List.not_mem_nil,
    or_false, BitVec.ofNat_eq_ofNat, BitVec.toNat_ofNat]
  omega

/-! ### Reads -/

theorem hostStep_regRead_unmapped (h : regAt off = none) :
    hostStep (.regRead off) s = { s with
      faults := s.faults ++ [.busErrorReg off], replies := s.replies ++ [.word 0] } := by
  obtain ⟨-, e⟩ | ⟨r, hr, -⟩ := regReadStep_cases off s
  · exact e
  · simp [h] at hr

theorem hostStep_regRead (r : Reg) (s : State) :
    hostStep (.regRead (regOffset r)) s =
      { s with replies := s.replies ++ [.word (regValue r s)] } := by
  obtain ⟨hr, -⟩ | ⟨r', hr, e⟩ := regReadStep_cases (regOffset r) s
  · simp at hr
  · obtain rfl : r = r' := by simpa using hr
    exact e

/-- A read of a register whose value is known as a word. -/
theorem hostStep_regRead_of_eq {w : Word} (h : regValue r s = w) :
    hostStep (.regRead (regOffset r)) s = { s with replies := s.replies ++ [.word w] } :=
  h ▸ hostStep_regRead r s

/-- A read of a register whose value is known as a number. -/
theorem hostStep_regRead_of_toNat {n : Nat} (h : (regValue r s).toNat = n) :
    hostStep (.regRead (regOffset r)) s =
      { s with replies := s.replies ++ [.word (BitVec.ofNat 32 n)] } :=
  hostStep_regRead_of_eq (BitVec.eq_of_toNat_eq (by simp [← h]))

/-! ### The values of the registers with fields (R27, R30, R38 to R40) -/

/-- The bits per pixel are the mode's code and one more (44_color_reduce_dither.md R180). -/
theorem bpp_eq_colorCode_add_one (m : ColorMode) : bpp m = (colorCode m).toNat + 1 := by
  cases m <;> rfl

theorem expectedLen_eq (c : Params) :
    expectedLen c = (c.panelW * ((colorCode c.panelMode).toNat + 1) + 7) / 8 * c.panelH := by
  rw [expectedLen, bufferLen, stride, bpp_eq_colorCode_add_one]

/-- A panel's dimensions fit 16 bits (00_scope.md R7, R8). -/
theorem panel_le_of_wf {c : Params} (h : c.wf = true) : c.panelW ≤ 65535 ∧ c.panelH ≤ 65535 := by
  simp only [Params.wf, inRange, Bool.and_eq_true, decide_eq_true_eq] at h
  tauto

theorem toNat_panelDimWord {c : Params} (h : c.wf = true) :
    (panelDimWord c).toNat = 2 ^ 16 * c.panelH + c.panelW := by
  obtain ⟨hw, hh⟩ := panel_le_of_wf h
  rw [panelDimWord, toNat_append_eq_add, BitVec.toNat_ofNat, BitVec.toNat_ofNat]
  omega

theorem toNat_panelModeWord (c : Params) :
    (panelModeWord c).toNat = (colorCode c.panelMode).toNat := by
  rw [panelModeWord, toNat_append_eq_add]
  simp

/-! ### Writes -/

theorem hostStep_regWrite_unmapped (h : regAt off = none) (w : Word) :
    hostStep (.regWrite off w) s = { s with faults := s.faults ++ [.busErrorReg off] } := by
  obtain ⟨-, e⟩ | ⟨r, hr, -⟩ := regWriteStep_cases off w s
  · exact e
  · simp [h] at hr

/-- Only an issue can be a hazard between the engines (70_reset_and_hazards.md R242). -/
theorem crossEngineHazard_of_rw (hr : regAccess r = .rw) (w : Word) (s : State) :
    crossEngineHazard r w s = false := by
  unfold crossEngineHazard
  split
  · cases hr
  · cases hr
  · rfl

theorem regWriteHazard_of_not_pending (h : enginePending (regEngine r) s = false) :
    regWriteHazard r s = false := by
  simp [regWriteHazard, h]

theorem enginePending_ic_of_none (h : s.icPend = .none) : enginePending .ic s = false := by
  simp [enginePending, h]

theorem enginePending_ps_of_none (h : s.psPend = .none) : enginePending .ps s = false := by
  simp [enginePending, h]

/-- A write to an operand register, a register the host may read and write, takes place when the register's engine
is not pending (R23; 70_reset_and_hazards.md R240). -/
theorem hostStep_regWrite_operand (hr : regAccess r = .rw)
    (hp : enginePending (regEngine r) s = false) (w : Word) :
    hostStep (.regWrite (regOffset r) w) s = regStore r w s := by
  obtain ⟨h, -⟩ | ⟨r', h, e⟩ := regWriteStep_cases (regOffset r) w s
  · simp at h
  · obtain rfl : r = r' := by simpa using h
    change regWriteStep (regOffset r) w s = regStore r w s
    simpa only [regWriteHazard_of_not_pending hp, crossEngineHazard_of_rw hr, Bool.false_eq_true,
      false_and, true_and, false_or] using e

/-- The bits of an operand register that are not reserved (R26 to R32, R36, R37). -/
def writableBits : Reg → Word
  | .icSrcFmt => srcFmtMask
  | .icMode => modeMask
  | _ => BitVec.allOnes 32

/-- An operand register reads back what was stored, its reserved fields 0. -/
theorem regValue_regStore (hr : regAccess r = .rw) (w : Word) (s : State) :
    regValue r (regStore r w s) = w &&& writableBits r := by
  cases r with
  | icSrcFmt | icMode => exact (BitVec.and_assoc ..).trans (congrArg (w &&& ·) BitVec.and_self)
  | icSrcDim | icSrcBase | icDstDim | icDstBase | icDstCap | psBufBase | psBufLen =>
    exact BitVec.and_allOnes.symm
  | icCmd | icStatus | icOutLen | psCmd | psStatus | psExpLen | psPanelDim | psPanelMode => cases hr

/-- What an operand register of an engine that is not pending holds after a write. -/
theorem regValue_after_regWrite (hr : regAccess r = .rw)
    (hp : enginePending (regEngine r) s = false) (w : Word) :
    regValue r (hostStep (.regWrite (regOffset r) w) s) = w &&& writableBits r := by
  rw [hostStep_regWrite_operand hr hp, regValue_regStore hr]

/-- An operand register with no reserved field holds the word written. -/
theorem regValue_after_regWrite_whole (hr : regAccess r = .rw)
    (hp : enginePending (regEngine r) s = false) (hbits : writableBits r = BitVec.allOnes 32)
    (w : Word) : regValue r (hostStep (.regWrite (regOffset r) w) s) = w := by
  rw [regValue_after_regWrite hr hp, hbits, BitVec.and_allOnes]

end Sys2Proof.Machine

namespace Sys2Proof.Proofs

open Sys2Proof.Machine

/-- Settles O54. The offsets are mapped by `exists_regOffset_iff`; a read returns `regValue`, whose number each
register's lemma gives. -/
theorem registerAccessRules : Obligations.RegisterAccessRules := by
  unfold Obligations.RegisterAccessRules
  intro s off w
  refine ⟨fun hunmapped => ?_, fun hmapped => ?_, rfl, rfl, ?_⟩
  · rw [← exists_regOffset_iff, ← regAt_eq_none_iff] at hunmapped
    exact ⟨hostStep_regWrite_unmapped hunmapped w, hostStep_regRead_unmapped hunmapped⟩
  · obtain ⟨r, rfl⟩ := (exists_regOffset_iff off).2 hmapped
    exact ⟨r, rfl, hostStep_regRead r s⟩
  · intro reads mode
    have hmode : mode = (colorCode s.cfg.panelMode).toNat := by
      unfold mode
      cases s.cfg.panelMode <;> rfl
    rw [hmode]
    exact ⟨hostStep_regRead_of_toNat (r := .icCmd) rfl,
      hostStep_regRead_of_toNat (r := .icStatus) (toNat_icStatusWord s),
      hostStep_regRead_of_toNat (r := .icSrcDim) rfl,
      hostStep_regRead_of_toNat (r := .icSrcFmt) (toNat_and_srcFmtMask _),
      hostStep_regRead_of_toNat (r := .icSrcBase) rfl,
      hostStep_regRead_of_toNat (r := .icDstDim) rfl,
      hostStep_regRead_of_toNat (r := .icMode) (toNat_and_modeMask _),
      hostStep_regRead_of_toNat (r := .icDstBase) rfl,
      hostStep_regRead_of_toNat (r := .icDstCap) rfl,
      hostStep_regRead_of_toNat (r := .icOutLen) rfl,
      hostStep_regRead_of_toNat (r := .psCmd) rfl,
      hostStep_regRead_of_toNat (r := .psStatus) (toNat_psStatusWord s),
      hostStep_regRead_of_toNat (r := .psBufBase) rfl,
      hostStep_regRead_of_toNat (r := .psBufLen) rfl,
      hostStep_regRead_of_eq (r := .psExpLen) (congrArg (BitVec.ofNat 32) (expectedLen_eq s.cfg)),
      fun hwf => hostStep_regRead_of_toNat (r := .psPanelDim) (toNat_panelDimWord hwf),
      hostStep_regRead_of_toNat (r := .psPanelMode) (toNat_panelModeWord s.cfg)⟩

/-- Settles O55. Each write is `regStore` by `hostStep_regWrite_operand`, and a register reads back its writable
bits. -/
theorem writtenRegisterReadsBack : Obligations.WrittenRegisterReadsBack := by
  unfold Obligations.WrittenRegisterReadsBack
  intro s w
  refine ⟨fun hi r hr => ?icReadBack, fun hi => ?icFields, fun hp r hr => ?psReadBack, rfl, rfl,
    fun hi => ?icState, fun hp => ?psState⟩
  case icReadBack =>
    have whole : ∀ r ∈ [Reg.icSrcDim, .icSrcBase, .icDstDim, .icDstBase, .icDstCap],
        regAccess r = .rw ∧ regEngine r = .ic ∧ writableBits r = BitVec.allOnes 32 := by decide
    obtain ⟨hrw, hic, hbits⟩ := whole r hr
    exact regValue_after_regWrite_whole hrw (hic ▸ enginePending_ic_of_none hi) hbits w
  case psReadBack =>
    have whole : ∀ r ∈ [Reg.psBufBase, .psBufLen],
        regAccess r = .rw ∧ regEngine r = .ps ∧ writableBits r = BitVec.allOnes 32 := by decide
    obtain ⟨hrw, hps, hbits⟩ := whole r hr
    exact regValue_after_regWrite_whole hrw (hps ▸ enginePending_ps_of_none hp) hbits w
  case icFields =>
    have hidle := enginePending_ic_of_none hi
    have hfmt := regValue_after_regWrite (r := .icSrcFmt) rfl hidle w
    have hmode := regValue_after_regWrite (r := .icMode) rfl hidle w
    exact ⟨(congrArg BitVec.toNat hfmt).trans (toNat_and_srcFmtMask w),
      (congrArg BitVec.toNat hmode).trans (toNat_and_modeMask w)⟩
  case icState =>
    have hidle := enginePending_ic_of_none hi
    rw [← and_srcFmtMask, ← and_modeMask]
    exact ⟨hostStep_regWrite_operand (r := .icSrcDim) rfl hidle w,
      hostStep_regWrite_operand (r := .icSrcFmt) rfl hidle w,
      hostStep_regWrite_operand (r := .icSrcBase) rfl hidle w,
      hostStep_regWrite_operand (r := .icDstDim) rfl hidle w,
      hostStep_regWrite_operand (r := .icMode) rfl hidle w,
      hostStep_regWrite_operand (r := .icDstBase) rfl hidle w,
      hostStep_regWrite_operand (r := .icDstCap) rfl hidle w⟩
  case psState =>
    have hidle := enginePending_ps_of_none hp
    exact ⟨hostStep_regWrite_operand (r := .psBufBase) rfl hidle w,
      hostStep_regWrite_operand (r := .psBufLen) rfl hidle w⟩

end Sys2Proof.Proofs
end

