-- ==== Sys2Proof/Proofs/UnwrittenReads.lean ====
section
/-! CONVERT's ten checks on the register numbers and its validation (42_convert.md R152), and the completions that
stop at an unwritten byte of MEM (20_memory.md R61; 42_convert.md R153; 41_panel_ops.md R124). -/

namespace Sys2Proof.Machine

open Sys2Proof.Safety

variable {s : State} {m : ColorMode} {a : Nat}

/-! ### CONVERT's validation -/

theorem colorOfCode_colorCode (m : ColorMode) : colorOfCode (colorCode m) = some m := by
  cases m <;> rfl

/-- The two legal color modes have the codes 0 and 1 (44_color_reduce_dither.md R180). -/
theorem exists_colorCode_eq {n : Nat} (h : n < 2) : ∃ m : ColorMode, n = (colorCode m).toNat := by
  obtain rfl | rfl : n = 0 ∨ n = 1 := by omega
  · exact ⟨.blackWhite, rfl⟩
  · exact ⟨.grayscale4, rfl⟩

/-- A validation none of whose ten checks fails passes, with the color mode CMODE stands for (42_convert.md
R152). -/
theorem convertCheck_ok_of_checks (h : ∀ c ∈ convertCheckList s, c.1 = false)
    (hm : s.icMode.toNat % 16 = (colorCode m).toNat) : convertCheck s = .ok m := by
  have hlen : (dstWidth s * (s.icMode.toNat % 16 + 1) + 7) / 8 * dstHeight s
      = bufferLen (dstWidth s) (dstHeight s) m := by
    rw [bufferLen, stride, ← targetBits_eq hm, targetBits]
  have hsrc : srcWidth s * srcHeight s * (if (srcFormat s).toNat = 0 then 3 else 1) = srcLen s := by
    simp only [srcLen, bytesPerPixel, srcFormat_eq_zero_iff, srcFormat_toNat]
  simp only [convertCheckList, ← srcWidth_eq, ← srcHeight_eq, ← dstWidth_eq, ← dstHeight_eq,
    ← srcFormat_toNat, ← ditherField_toNat, hlen, hsrc, List.forall_mem_cons, List.not_mem_nil,
    false_implies, implies_true, and_true, Bool.or_eq_false_iff, Bool.and_eq_false_iff,
    beq_eq_false_iff_ne, decide_eq_false_iff_not, not_le, not_lt] at h
  obtain ⟨hdither, -, hfmt, ⟨hsw, hsh⟩, hsrcEnd, ⟨hdw, hdh⟩, ⟨hmaxW, hmaxH⟩, hcap, hdstEnd,
    hoverlap⟩ := h
  refine (convertCheck_ok_iff s m).2 ⟨?dither, ?color, (convertChecksFrom3_none_iff m s).2
    ⟨?format, hsw, hsh, hsrcEnd, hdw, hdh, hmaxW, hmaxH, hcap, hdstEnd, ?overlap⟩⟩
  case dither => exact fun h => hdither (by rw [h]; rfl)
  case color =>
    have hcode : colorField s = colorCode m :=
      BitVec.eq_of_toNat_eq ((colorField_toNat s).trans hm)
    rw [hcode, colorOfCode_colorCode]
  case format =>
    rw [srcFormat_eq_zero_iff, srcFormat_eq_one_iff, ← srcFormat_toNat]
    omega
  case overlap =>
    refine decide_eq_false ?_
    dsimp only [srcBase, dstBase]
    omega

/-- CMODE is legal when no check fails, so that CONVERT's validation passes with some color mode. -/
theorem exists_convertCheck_ok (h : ∀ c ∈ convertCheckList s, c.1 = false) :
    ∃ m, convertCheck s = .ok m := by
  have hmode : decide (2 ≤ s.icMode.toNat % 16) = false :=
    h (_, .unsupportedColorMode, 1) (List.mem_cons_of_mem _ List.mem_cons_self)
  obtain ⟨m, hm⟩ := exists_colorCode_eq (not_le.1 (of_decide_eq_false hmode))
  exact ⟨m, convertCheck_ok_of_checks h hm⟩

/-! ### Completions that read an unwritten byte -/

theorem exec_icConvert_of_unwritten (hc : convertCheck s = .ok m)
    (hr : readBytes s.mem (srcBase s) (srcLen s) = .error a) :
    exec .icConvert s = .next (icUnwritten a s) := by
  obtain ⟨e, c, h, -⟩ | ⟨m', a', -, h, hstep⟩ | ⟨m', src, -, h, -⟩ := convertStep_cases s
  · simp [hc] at h
  · obtain rfl : a = a' := by simpa [hr] using h
    exact congrArg _ hstep
  · simp [hr] at h

theorem exec_psDisplay_of_unwritten (hc : displayCheck s = none)
    (hr : readBytes s.mem (bufBase s) (bufLen s) = .error a) :
    exec .psDisplay s = .next (psUnwritten a s) := by
  obtain ⟨e, h, -⟩ | ⟨a', -, h, hstep⟩ | ⟨bytes, -, h, -⟩ := displayStep_cases s
  · simp [hc] at h
  · obtain rfl : a = a' := by simpa [hr] using h
    exact congrArg _ hstep
  · simp [hr] at h

end Sys2Proof.Machine

namespace Sys2Proof.Proofs

open Sys2Proof.Machine Sys2Proof.Safety

/-- Settles O13. The checks pass by `exists_convertCheck_ok`, and the reads of the source stop at its lowest
unwritten address by `readBytes_error_iff`. -/
theorem convertStopsAtUnwrittenSource : Obligations.ConvertStopsAtUnwrittenSource := by
  unfold Obligations.ConvertStopsAtUnwrittenSource
  intro s a hchecks hlo hhi hnone hlowest
  obtain ⟨m, hc⟩ := exists_convertCheck_ok hchecks
  rw [sourceBytes_eq] at hhi
  have hr : readBytes s.mem (srcBase s) (srcLen s) = .error a :=
    (readBytes_error_iff ..).2 ⟨hlo, hhi, hnone, hlowest⟩
  exact exec_icConvert_of_unwritten hc hr

/-- Settles O38. The checks are `displayCheck_none_iff`, and the reads of the buffer stop at its lowest unwritten
address by `readBytes_error_iff`. -/
theorem displayStopsAtUnwrittenByte : Obligations.DisplayStopsAtUnwrittenByte := by
  unfold Obligations.DisplayStopsAtUnwrittenByte
  rintro s a hidle hlen hend ⟨hlo, hhi⟩ hnone hlowest
  have hc : displayCheck s = none := (displayCheck_none_iff s).2 ⟨hidle, hlen, hend⟩
  have hr : readBytes s.mem (bufBase s) (bufLen s) = .error a :=
    (readBytes_error_iff ..).2 ⟨hlo, hhi, hnone, hlowest⟩
  exact exec_psDisplay_of_unwritten hc hr

end Sys2Proof.Proofs
end

