-- ==== Sys2Proof/Proofs/MemoryPort.lean ====
section
/-! The host's byte port to MEM: one equation for each outcome of a read and of a write (20_memory.md R61, R62,
R64), and that no access is in flight with nothing pending (70_reset_and_hazards.md R241). -/

namespace Sys2Proof.Machine

variable {s : State} {a : Nat} {b : Byte}

/-! ### No region is in flight with nothing pending -/

theorem convertPending_of_none (h : s.icPend = .none) : convertPending s = false := by
  simp [convertPending, h]

theorem displayPending_of_none (h : s.psPend = .none) : displayPending s = false := by
  simp [displayPending, h]

theorem memWriteHazard_of_none (hi : s.icPend = .none) (hp : s.psPend = .none) (a : Nat) :
    memWriteHazard a s = false := by
  simp [memWriteHazard, convertPending_of_none hi, displayPending_of_none hp]

theorem memReadHazard_of_none (hi : s.icPend = .none) (a : Nat) : memReadHazard a s = false := by
  simp [memReadHazard, convertPending_of_none hi]

/-! ### Accesses outside MEM -/

theorem hostStep_memWrite_outside (ha : s.cfg.memSize ≤ a) (b : Byte) :
    hostStep (.memWrite a b) s = { s with faults := s.faults ++ [.busErrorMem a] } := by
  obtain ⟨-, e⟩ | ⟨h, -⟩ | ⟨h, -⟩ := memWriteStep_cases a b s
  · exact e
  all_goals omega

theorem hostStep_memRead_outside (ha : s.cfg.memSize ≤ a) :
    hostStep (.memRead a) s = { s with
      faults := s.faults ++ [.busErrorMem a], replies := s.replies ++ [.byte 0] } := by
  obtain ⟨-, e⟩ | ⟨h, -⟩ | ⟨h, -⟩ | ⟨h, -⟩ := memReadStep_cases a s
  · exact e
  all_goals omega

/-! ### Accesses inside MEM that no hazard stops -/

theorem hostStep_memWrite_inside (ha : a < s.cfg.memSize) (hh : memWriteHazard a s = false)
    (b : Byte) : hostStep (.memWrite a b) s = { s with mem := Memory.write s.mem a b } := by
  obtain ⟨h, -⟩ | ⟨-, h, -⟩ | ⟨-, -, e⟩ := memWriteStep_cases a b s
  · omega
  · simp [hh] at h
  · exact e

theorem hostStep_memRead_written (ha : a < s.cfg.memSize) (hh : memReadHazard a s = false)
    (hr : Memory.read s.mem a = some b) :
    hostStep (.memRead a) s = { s with replies := s.replies ++ [.byte b] } := by
  obtain ⟨h, -⟩ | ⟨-, h, -⟩ | ⟨-, -, b', h, e⟩ | ⟨-, -, h, -⟩ := memReadStep_cases a s
  · omega
  · simp [hh] at h
  · obtain rfl : b = b' := by simpa [hr] using h
    exact e
  · simp [hr] at h

theorem hostStep_memRead_unwritten (ha : a < s.cfg.memSize) (hh : memReadHazard a s = false)
    (hr : Memory.read s.mem a = none) :
    hostStep (.memRead a) s = { s with
      faults := s.faults ++ [.unwrittenRead a], replies := s.replies ++ [.noValue] } := by
  obtain ⟨h, -⟩ | ⟨-, h, -⟩ | ⟨-, -, b', h, -⟩ | ⟨-, -, -, e⟩ := memReadStep_cases a s
  · omega
  · simp [hh] at h
  · simp [hr] at h
  · exact e

/-- What each address holds after a write (20_memory.md R62). -/
theorem Memory.read_write (m : Memory) (a x : Nat) (b : Byte) :
    Memory.read (Memory.write m a b) x = if x = a then some b else Memory.read m x := by
  split
  case isTrue h => rw [h, Memory.read_write_self]
  case isFalse h => exact Memory.read_write_other m b h

end Sys2Proof.Machine

namespace Sys2Proof.Proofs

open Sys2Proof.Machine

/-- Settles O56. With nothing pending there is no hazard, so each access has the outcome its address and MEM give
it; the write keeps the parameters and both PENDs, so the read after it returns the byte. -/
theorem memoryPort : Obligations.MemoryPort := by
  unfold Obligations.MemoryPort
  intro s a b hi hp
  refine ⟨fun ha => ?inside,
    fun ha => ⟨hostStep_memWrite_outside ha b, hostStep_memRead_outside ha⟩, rfl, rfl⟩
  case inside =>
    rw [hostStep_memWrite_inside ha (memWriteHazard_of_none hi hp a)]
    have hread := hostStep_memRead_written (s := { s with mem := Memory.write s.mem a b }) ha
      (memReadHazard_of_none hi a) (Memory.read_write_self s.mem a b)
    exact ⟨fun x => Memory.read_write s.mem a x b, congrArg State.replies hread,
      hostStep_memRead_unwritten ha (memReadHazard_of_none hi a)⟩

end Sys2Proof.Proofs
end

