-- ==== Sys2Proof/Proofs/Encoding.lean ====
section
/-! Decoding against the encoder on all words, and the completion of a word outside its engine's map
(30_encoding.md R80 to R84; 60_exceptions.md R211). -/

namespace Sys2Proof.Machine

variable {e : Engine} {w : Word} {i : Instr} {s : State}

/-! ### What the decoder answers -/

theorem decode_of_reservedBits (h : wordRsv w ≠ 0) : decode e w = .error .reservedBits :=
  if_pos h

theorem decode_of_reservedOpcode (h : wordRsv w = 0) (ho : engineOpcode e (wordOp w) = none) :
    decode e w = .error .reservedOpcode := by
  unfold decode
  rw [if_neg (not_not.2 h), ho]

/-! ### Decode and encode -/

theorem decode_encode (i : Instr) : decode (encode i).1 (encode i).2 = .ok i := by
  obtain ⟨-, -, hdecode⟩ : Laws.EncodeDecode.Statement i := by
    cases i with
    | icConvert => exact Laws.EncodeDecode.icConvert
    | psInitialize => exact Laws.EncodeDecode.psInitialize
    | psDisplay => exact Laws.EncodeDecode.psDisplay
    | psClear => exact Laws.EncodeDecode.psClear
    | psSleep => exact Laws.EncodeDecode.psSleep
    | psTeardown => exact Laws.EncodeDecode.psTeardown
  exact hdecode

/-- A word whose RSV field is 0 is its opcode (R80). -/
theorem eq_setWidth_wordOp (h : wordRsv w = 0) : w = (wordOp w).setWidth 32 := by
  have hnat : w.toNat = (wordOp w).toNat := (wordOp_wordRsv_iff w (wordOp w)).1 ⟨rfl, h⟩
  apply BitVec.eq_of_toNat_eq
  rw [hnat, BitVec.toNat_setWidth_of_le (by decide)]

/-- The encoder gives a command back the opcode of its row in the map (R81, R82). -/
theorem encode_of_engineOpcode {c : Byte} (h : engineOpcode e c = some i) :
    encode i = (e, c.setWidth 32) := by
  cases e with
  | ic =>
    change icOpcode c = some i at h
    unfold icOpcode at h
    split_ifs at h with hc
    cases h
    rw [hc]
    rfl
  | ps =>
    change psOpcode c = some i at h
    unfold psOpcode at h
    split_ifs at h with hc hc hc hc hc <;> cases h <;> rw [hc] <;> rfl

theorem encode_of_decode (h : decode e w = .ok i) : encode i = (e, w) := by
  obtain ⟨hrsv, hop⟩ := decode_ok_opcode h
  rw [encode_of_engineOpcode hop, ← eq_setWidth_wordOp hrsv]

theorem decode_ok_iff_encode : decode e w = .ok i ↔ encode i = (e, w) := by
  refine ⟨encode_of_decode, fun h => ?_⟩
  have hd := decode_encode i
  rwa [h] at hd

/-! ### The words outside each map, as numbers -/

theorem decode_ic_ne_ok (h : w.toNat ≠ 1) (i : Instr) : decode .ic w ≠ .ok i := by
  intro hd
  have henc := encode_of_decode hd
  obtain rfl := decode_ic_ok hd
  obtain rfl : 1 = w := congrArg Prod.snd henc
  exact h rfl

theorem toNat_encode_bounds (i : Instr) : 1 ≤ (encode i).2.toNat ∧ (encode i).2.toNat ≤ 5 := by
  cases i <;> decide

theorem decode_ps_ne_ok (h : w.toNat = 0 ∨ 6 ≤ w.toNat) (i : Instr) : decode .ps w ≠ .ok i := by
  intro hd
  have hmap : 1 ≤ w.toNat ∧ w.toNat ≤ 5 := by
    simpa only [encode_of_decode hd] using toNat_encode_bounds i
  omega

/-! ### The turn of an engine whose latched word is illegal -/

theorem takeTurn_ic_of_illegal (hp : s.icPend = .pending) (h : ∀ i, decode .ic s.icCmdl ≠ .ok i) :
    takeTurn .ic s = .next (icRaiseIllegal s) := by
  rw [takeTurn_ic_of_pending hp]
  obtain ⟨-, -, hc⟩ | ⟨i, hd, -⟩ := completeIc_cases s
  · exact hc
  · exact absurd hd (h i)

theorem takeTurn_ps_of_illegal (hp : s.psPend = .pending) (h : ∀ i, decode .ps s.psCmdl ≠ .ok i) :
    takeTurn .ps s = .next (psRaiseIllegal s) := by
  rw [takeTurn_ps_of_pending hp]
  obtain ⟨-, -, hc⟩ | ⟨i, hd, -⟩ := completePs_cases s
  · exact hc
  · exact absurd hd (h i)

end Sys2Proof.Machine

namespace Sys2Proof.Proofs

open Sys2Proof.Machine

/-- Settles O2. -/
theorem decodeInvertsEncode : Obligations.DecodeInvertsEncode := by
  unfold Obligations.DecodeInvertsEncode
  exact fun e w i => decode_ok_iff_encode

/-- Settles O3. A word outside the map decodes to no command, so the pending engine's turn is the completion of an
illegal word, on the state with that turn taken off the agenda. -/
theorem reservedWordsAreIllegal : Obligations.ReservedWordsAreIllegal := by
  unfold Obligations.ReservedWordsAreIllegal
  refine ⟨?ic, ?ps⟩
  case ic =>
    intro s rest h hp hw
    exact (step_of_agenda_cons h).trans (takeTurn_ic_of_illegal hp (decode_ic_ne_ok hw))
  case ps =>
    intro s rest h hp hw
    exact (step_of_agenda_cons h).trans (takeTurn_ps_of_illegal hp (decode_ps_ne_ok hw))

/-- Settles O1. The legal words are the encoder's; of the others the first and third have an opcode outside the map,
the second and fourth a non-zero RSV. -/
theorem listedWordsDecode : Obligations.ListedWordsDecode := by
  unfold Obligations.ListedWordsDecode
  exact ⟨decode_encode .icConvert, decode_encode .psInitialize, decode_encode .psDisplay,
    decode_encode .psClear, decode_encode .psSleep, decode_encode .psTeardown,
    decode_of_reservedOpcode (by decide) (by decide), decode_of_reservedBits (by decide),
    decode_of_reservedOpcode (by decide) (by decide), decode_of_reservedBits (by decide)⟩

end Sys2Proof.Proofs
end

