-- ==== Sys2Proof/Proofs/HalEvents.lean ====
section
/-! The state after a list of HAL events, whatever the answers in them: what it holds in each field, when ENV's
queues give those answers, and its closed form (40_panel_primitives.md R100, R101; 10_state.md R45, R46). -/

namespace Sys2Proof.Machine

open Sys2Proof.Safety

variable {s : State} {e : HalEvent} {es fs : List HalEvent} {p : OutPin} {acks : List Ack}
  {reads : List BusyAnswer}

/-! ### Performing events -/

/-- The state after a HAL call with the answer in the event: where `spiWrite`, `pinWrite`, `pollRead` and
`halDelay` end. -/
def perform (s : State) : HalEvent → State
  | .spiWrite b a => emit (.spiWrite b a) (takeAck s)
  | .pinWrite p l .ok => setPin p l (emit (.pinWrite p l .ok) (takeAck s))
  | .pinWrite p l .fail => spoilPin p (emit (.pinWrite p l .fail) (takeAck s))
  | .pinRead a => emit (.pinRead a) (takeBusy s)
  | .delay ms => emit (.delay ms) s

/-- The state after the HAL calls of `es`, in order. -/
def performAll (s : State) : List HalEvent → State
  | [] => s
  | e :: es => performAll (perform s e) es

/-- ENV's next answer is the one in the event. -/
def HearsNext (s : State) : HalEvent → Prop
  | .spiWrite _ a => nextAck s = a
  | .pinWrite _ _ a => nextAck s = a
  | .pinRead a => nextBusy s = a
  | .delay _ => True

/-- ENV's next answers are the ones in the events. -/
def Hears (s : State) : List HalEvent → Prop
  | [] => True
  | e :: es => HearsNext s e ∧ Hears (perform s e) es

@[simp] theorem performAll_nil (s : State) : performAll s [] = s := rfl

@[simp] theorem performAll_cons (s : State) (e : HalEvent) (es : List HalEvent) :
    performAll s (e :: es) = performAll (perform s e) es := rfl

theorem performAll_append (s : State) (es fs : List HalEvent) :
    performAll s (es ++ fs) = performAll (performAll s es) fs := by
  induction es generalizing s with
  | nil => rfl
  | cons e es ih => exact ih (perform s e)

theorem hears_append : Hears s (es ++ fs) ↔ Hears s es ∧ Hears (performAll s es) fs := by
  induction es generalizing s with
  | nil => simp [Hears]
  | cons e es ih => simp [Hears, ih, and_assoc]

/-! ### The fields of the state after the events -/

@[simp] theorem perform_cfg (s : State) (e : HalEvent) : (perform s e).cfg = s.cfg := by
  unfold perform
  split <;> simp

@[simp] theorem perform_trace (s : State) (e : HalEvent) : (perform s e).trace = s.trace ++ [e] := by
  unfold perform
  split <;> simp

@[simp] theorem performAll_cfg (s : State) (es : List HalEvent) :
    (performAll s es).cfg = s.cfg := by
  induction es generalizing s with
  | nil => rfl
  | cons e es ih => rw [performAll_cons, ih, perform_cfg]

@[simp] theorem performAll_trace (s : State) (es : List HalEvent) :
    (performAll s es).trace = s.trace ++ es := by
  induction es generalizing s with
  | nil => simp
  | cons e es ih => rw [performAll_cons, ih, perform_trace, List.append_assoc, List.singleton_append]

/-! ### The pin latches -/

/-- What the latch of a pin holds after the events, if it held `l` before and no write to it failed (R101). -/
def pinAfter (p : OutPin) (es : List HalEvent) (l : Level) : Level :=
  ((lastPinWrite p es).map Prod.fst).getD l

@[simp] theorem lastPinWrite_nil (p : OutPin) : lastPinWrite p [] = none := rfl

theorem lastPinWrite_append (p : OutPin) (es fs : List HalEvent) :
    lastPinWrite p (es ++ fs) = (lastPinWrite p fs).or (lastPinWrite p es) := by
  induction es with
  | nil => simp
  | cons e es ih =>
    cases hfs : lastPinWrite p fs with
    | some w => cases e <;> simp [lastPinWrite, ih, hfs]
    | none => cases e <;> simp [lastPinWrite, ih, hfs]

theorem lastPinWrite_cons (p : OutPin) (e : HalEvent) (es : List HalEvent) :
    lastPinWrite p (e :: es) = (lastPinWrite p es).or (lastPinWrite p [e]) :=
  lastPinWrite_append p [e] es

theorem pinAfter_cons (p : OutPin) (e : HalEvent) (es : List HalEvent) (l : Level) :
    pinAfter p (e :: es) l = pinAfter p es (pinAfter p [e] l) := by
  unfold pinAfter
  rw [lastPinWrite_cons]
  cases lastPinWrite p es <;> rfl

@[simp] theorem pinLatch_setPin (p q : OutPin) (l : Level) (s : State) :
    pinLatch p (setPin q l s) = if q = p then l else pinLatch p s := by
  cases p <;> cases q <;> rfl

@[simp] theorem pinLatch_emit_takeAck (p : OutPin) (e : HalEvent) (s : State) :
    pinLatch p (emit e (takeAck s)) = pinLatch p s := by
  cases p <;> simp [pinLatch]

@[simp] theorem pinLatch_emit_takeBusy (p : OutPin) (e : HalEvent) (s : State) :
    pinLatch p (emit e (takeBusy s)) = pinLatch p s := by
  cases p <;> simp [pinLatch]

/-- One event leaves the latch of a pin it does not write, and sets it where ENV answers OK. -/
theorem pinLatch_perform (h : ∀ l, lastPinWrite p [e] ≠ some (l, .fail)) :
    pinLatch p (perform s e) = pinAfter p [e] (pinLatch p s) := by
  cases e with
  | spiWrite b a => exact pinLatch_emit_takeAck ..
  | pinRead a => exact pinLatch_emit_takeBusy ..
  | delay ms => cases p <;> rfl
  | pinWrite q l a =>
    by_cases hq : q = p
    · cases a with
      | ok => simp [perform, pinAfter, lastPinWrite, hq]
      | fail => exact absurd (by simp [lastPinWrite, hq]) (h l)
    · cases a with
      | ok => simp [perform, pinAfter, lastPinWrite, hq]
      | fail =>
        simp only [perform, spoilPin, pinLatch_setPin, pinAfter, lastPinWrite, if_neg hq]
        exact pinLatch_emit_takeAck p (.pinWrite q l .fail) s

/-- The last write to a pin alone decides its latch, whatever the answers to the writes before it. -/
theorem pinLatch_performAll (h : ∀ l, lastPinWrite p es ≠ some (l, .fail)) :
    pinLatch p (performAll s es) = pinAfter p es (pinLatch p s) := by
  induction es generalizing s with
  | nil => rfl
  | cons e es ih =>
    rw [lastPinWrite_cons] at h
    rw [pinAfter_cons, performAll_cons]
    cases hes : lastPinWrite p es with
    | some w =>
      rw [ih (by simpa [hes] using h)]
      simp [pinAfter, hes]
    | none => rw [ih (by simp [hes]), pinLatch_perform (by simpa [hes] using h)]

/-! ### ENV's answers as lists -/

/-- ENV's answer to a SpiWrite or PinWrite, if the event is one. -/
def ackAnswer : HalEvent → Option Ack
  | .spiWrite _ a => some a
  | .pinWrite _ _ a => some a
  | _ => none

/-- ENV's queues hold the answers in the events, then `acks` and `reads`. -/
def AnswersAre (s : State) (es : List HalEvent) (acks : List Ack) (reads : List BusyAnswer) : Prop :=
  s.acks = es.filterMap ackAnswer ++ acks ∧ s.busyReads = es.filterMap busyAnswer ++ reads

theorem AnswersAre.hearsNext (h : AnswersAre s (e :: es) acks reads) : HearsNext s e := by
  obtain ⟨hacks, hreads⟩ := h
  cases e with
  | spiWrite b a => exact (takeAck_cons s hacks).1
  | pinWrite p l a => exact (takeAck_cons s hacks).1
  | pinRead a => exact (takeBusy_cons s hreads).1
  | delay ms => trivial

/-- The event uses up its own answer and no other. -/
theorem AnswersAre.tail (h : AnswersAre s (e :: es) acks reads) :
    AnswersAre (perform s e) es acks reads := by
  obtain ⟨hacks, hreads⟩ := h
  cases e with
  | spiWrite b a =>
    have htake := (takeAck_cons s hacks).2
    exact ⟨by simp [perform, htake], (takeAck_busyReads s).trans hreads⟩
  | pinWrite p l a =>
    have htake := (takeAck_cons s hacks).2
    cases a with
    | ok => exact ⟨by simp [perform, htake], by rw [perform, htake, setPin_busyReads]; exact hreads⟩
    | fail => exact ⟨by simp [perform, htake], by rw [perform, htake, spoilPin_busyReads]; exact hreads⟩
  | pinRead a =>
    have htake := (takeBusy_cons s hreads).2
    exact ⟨(takeBusy_acks s).trans hacks, by simp [perform, htake]⟩
  | delay ms => exact ⟨hacks, hreads⟩

theorem AnswersAre.hears (h : AnswersAre s es acks reads) : Hears s es := by
  induction es generalizing s with
  | nil => trivial
  | cons e es ih => exact ⟨h.hearsNext, ih h.tail⟩

theorem AnswersAre.rest (h : AnswersAre s es acks reads) :
    AnswersAre (performAll s es) [] acks reads := by
  induction es generalizing s with
  | nil => exact h
  | cons e es ih => exact ih h.tail

/-- Only a failed PinWrite draws a free value while the queues last. -/
theorem AnswersAre.draws_perform (h : AnswersAre s (e :: es) acks reads)
    (he : ∀ p l, e ≠ .pinWrite p l .fail) : (perform s e).draws = s.draws := by
  obtain ⟨hacks, hreads⟩ := h
  cases e with
  | spiWrite b a => rw [perform, (takeAck_cons s hacks).2]; rfl
  | pinWrite p l a =>
    cases a with
    | ok => rw [perform, (takeAck_cons s hacks).2, setPin_draws]; rfl
    | fail => exact absurd rfl (he p l)
  | pinRead a => rw [perform, (takeBusy_cons s hreads).2]; rfl
  | delay ms => rfl

theorem AnswersAre.draws_performAll (h : AnswersAre s es acks reads)
    (hes : ∀ p l, HalEvent.pinWrite p l .fail ∉ es) : (performAll s es).draws = s.draws := by
  induction es generalizing s with
  | nil => rfl
  | cons e es ih =>
    simp only [List.mem_cons, not_or] at hes
    rw [performAll_cons, ih h.tail fun p l => (hes p l).2,
      h.draws_perform fun p l => Ne.symm (hes p l).1]

theorem halStep_perform (s : State) (e : HalEvent) : HalStep s (perform s e) := by
  cases e with
  | spiWrite b a => exact halStep_emit_takeAck _ s
  | pinWrite p l a =>
    cases a with
    | ok => exact (halStep_emit_takeAck _ s).trans (halStep_setPin ..)
    | fail => exact (halStep_emit_takeAck _ s).trans (halStep_spoilPin ..)
  | pinRead a => exact halStep_emit_takeBusy _ s
  | delay ms => exact halStep_halDelay ms s

theorem halStep_performAll (s : State) (es : List HalEvent) : HalStep s (performAll s es) := by
  induction es generalizing s with
  | nil => exact HalStep.refl s
  | cons e es ih => exact (halStep_perform s e).trans (ih _)

theorem lastPinWrite_mem {l : Level} {a : Ack} (h : lastPinWrite p es = some (l, a)) :
    HalEvent.pinWrite p l a ∈ es := by
  induction es with
  | nil => simp at h
  | cons e es ih =>
    rw [lastPinWrite_cons] at h
    cases hes : lastPinWrite p es with
    | some w =>
      rw [hes, Option.some_or] at h
      exact List.mem_cons_of_mem _ (ih (hes.trans h))
    | none =>
      rw [hes, Option.none_or] at h
      cases e with
      | pinWrite q m b =>
        simp only [lastPinWrite, Option.ite_none_right_eq_some, Option.some.injEq, Prod.mk.injEq] at h
        obtain ⟨rfl, rfl, rfl⟩ := h
        exact List.mem_cons_self
      | _ => simp [lastPinWrite] at h

/-- The whole state after events that ENV's queues answer, none of them a failed PinWrite. -/
theorem performAll_eq_of_answersAre (h : AnswersAre s es acks reads)
    (hes : ∀ p l, HalEvent.pinWrite p l .fail ∉ es) :
    performAll s es = { s with
      trace := s.trace ++ es, acks := acks, busyReads := reads,
      rstOut := pinAfter .rst es s.rstOut, dcOut := pinAfter .dc es s.dcOut } := by
  have hframe : HalFrame s (performAll s es) := (halStep_performAll s es).1
  obtain ⟨hacks, hreads⟩ : AnswersAre (performAll s es) [] acks reads := h.rest
  have hpin (p : OutPin) : pinLatch p (performAll s es) = pinAfter p es (pinLatch p s) :=
    pinLatch_performAll fun l hl => hes p l (lastPinWrite_mem hl)
  have hrst : (performAll s es).rstOut = pinAfter .rst es s.rstOut := hpin .rst
  have hdc : (performAll s es).dcOut = pinAfter .dc es s.dcOut := hpin .dc
  rw [List.filterMap_nil, List.nil_append] at hacks hreads
  unfold HalFrame at hframe
  rw [hframe, performAll_trace, hrst, hdc, hacks, hreads, h.draws_performAll hes]

/-! ### Events ENV has not answered with FAIL -/

theorem writeCount_append (es fs : List HalEvent) :
    writeCount (es ++ fs) = writeCount es + writeCount fs := List.countP_append

theorem filterMap_ackAnswer_singleton (h : failed e = false) :
    [e].filterMap ackAnswer = List.replicate (writeCount [e]) .ok := by
  cases e with
  | spiWrite b a =>
    cases a with
    | ok => rfl
    | fail => simp [failed] at h
  | pinWrite p l a =>
    cases a with
    | ok => rfl
    | fail => simp [failed] at h
  | pinRead a => rfl
  | delay ms => rfl

/-- The OK answers a list of events without a FAIL asks for. -/
theorem filterMap_ackAnswer (h : ∀ e ∈ es, failed e = false) :
    es.filterMap ackAnswer = List.replicate (writeCount es) .ok := by
  induction es with
  | nil => rfl
  | cons e es ih =>
    obtain ⟨he, hes⟩ := List.forall_mem_cons.1 h
    rw [← List.singleton_append, List.filterMap_append, filterMap_ackAnswer_singleton he, ih hes,
      writeCount_append, List.replicate_add]

theorem pinWrite_fail_not_mem (h : ∀ e ∈ es, failed e = false) (p : OutPin) (l : Level) :
    HalEvent.pinWrite p l .fail ∉ es :=
  fun hmem => absurd (h _ hmem) (by simp [failed])

end Sys2Proof.Machine
end

