-- ==== Sys2Proof/Proofs/HalTraces.lean ====
section
/-! What every HAL run emits, whatever ENV answers: events none of which failed, and after a failed one nothing
(40_panel_primitives.md R100, R102). The commands as HAL runs, and the pin latches they leave (R101). -/

namespace Sys2Proof.Machine

open Sys2Proof.Safety

variable {s t : State} {e : HalEvent} {es fs : List HalEvent} {r : HalRun} {g : Stage} {i : Instr}

/-! ### The events of a run from `s` -/

/-- The run from `s` emits the events `es`: it ends or times out after events none of which failed, or it raises
TRANSPORT_ERROR at the first that did (R100, R105). -/
inductive HalRun.Emits (s : State) : List HalEvent → HalRun → Prop
  | done {es : List HalEvent} (good : ∀ e ∈ es, failed e = false) :
    Emits s es (.done (performAll s es))
  | timedOut {es : List HalEvent} (good : ∀ e ∈ es, failed e = false) {err : Err}
    (ne : err ≠ .transportError) (g : Stage) : Emits s es (.raised err g (performAll s es))
  | transport {es : List HalEvent} (good : ∀ e ∈ es, failed e = false) {e : HalEvent}
    (bad : failed e = true) (g : Stage) :
    Emits s (es ++ [e]) (.raised .transportError g (performAll s (es ++ [e])))

/-- The run from `s` emits some events in that way. -/
def HalRun.IsRun (s : State) (r : HalRun) : Prop := ∃ es, r.Emits s es

theorem HalRun.Emits.state_eq (h : r.Emits s es) : r.state = performAll s es := by
  cases h <;> rfl

/-- Events that did not fail may come first. -/
theorem HalRun.Emits.after (h : r.Emits (performAll s es) fs) (good : ∀ e ∈ es, failed e = false) :
    r.Emits s (es ++ fs) := by
  have hboth {fs : List HalEvent} (hfs : ∀ e ∈ fs, failed e = false) :
      ∀ e ∈ es ++ fs, failed e = false :=
    List.forall_mem_append.2 ⟨good, hfs⟩
  cases h with
  | done hfs => rw [← performAll_append]; exact .done (hboth hfs)
  | timedOut hfs ne g => rw [← performAll_append]; exact .timedOut (hboth hfs) ne g
  | transport hfs bad g =>
    rw [← performAll_append, ← List.append_assoc]
    exact .transport (hboth hfs) bad g

theorem isRun_done (s : State) : (HalRun.done s).IsRun s := ⟨[], .done (by simp)⟩

theorem isRun_timedOut {err : Err} (h : err ≠ .transportError) (g : Stage) (s : State) :
    (HalRun.raised err g s).IsRun s := ⟨[], .timedOut (by simp) h g⟩

theorem isRun_failed (h : failed e = true) (g : Stage) (s : State) :
    (HalRun.raised .transportError g (perform s e)).IsRun s :=
  ⟨[e], .transport (es := []) (by simp) h g⟩

theorem isRun_perform (h : failed e = false) (hr : r.IsRun (perform s e)) : r.IsRun s := by
  obtain ⟨es, hes⟩ := hr
  exact ⟨[e] ++ es, HalRun.Emits.after hes (by simpa using h)⟩

theorem isRun_halThen {k : State → HalRun} (hr : r.IsRun s) (hk : ∀ t, (k t).IsRun t) :
    (halThen r k).IsRun s := by
  obtain ⟨es, hes⟩ := hr
  cases hes with
  | done good =>
    obtain ⟨fs, hfs⟩ := hk (performAll s es)
    exact ⟨es ++ fs, hfs.after good⟩
  | timedOut good ne g => exact ⟨es, .timedOut good ne g⟩
  | transport good bad g => exact ⟨_, .transport good bad g⟩

/-! ### The HAL calls and the primitives -/

theorem isRun_spiWrite (g : Stage) (b : Byte) (s : State) : (spiWrite g b s).IsRun s := by
  obtain ⟨-, h⟩ | ⟨-, h⟩ := spiWrite_cases g b s <;> rw [h]
  · exact isRun_perform (e := .spiWrite b .ok) rfl (isRun_done _)
  · exact isRun_failed (e := .spiWrite b .fail) rfl g s

theorem isRun_pinWrite (g : Stage) (p : OutPin) (l : Level) (s : State) :
    (pinWrite g p l s).IsRun s := by
  obtain ⟨-, h⟩ | ⟨-, h⟩ := pinWrite_cases g p l s <;> rw [h]
  · exact isRun_perform (e := .pinWrite p l .ok) rfl (isRun_done _)
  · exact isRun_failed (e := .pinWrite p l .fail) rfl g s

theorem isRun_halDelay (ms : Nat) (s : State) : (halDelay ms s).IsRun s :=
  isRun_perform (e := .delay ms) rfl (isRun_done _)

theorem isRun_sendBytes (g : Stage) (bs : List Byte) (s : State) : (sendBytes g bs s).IsRun s := by
  induction bs generalizing s with
  | nil => exact isRun_done s
  | cons b bs ih => exact isRun_halThen (isRun_spiWrite g b s) ih

theorem isRun_sendCommand (g : Stage) (opc : Byte) (bs : List Byte) (s : State) :
    (sendCommand g opc bs s).IsRun s :=
  isRun_halThen (isRun_pinWrite ..) fun _ =>
    isRun_halThen (isRun_spiWrite ..) fun _ =>
      isRun_halThen (isRun_pinWrite ..) fun _ => isRun_sendBytes ..

theorem isRun_resetPulse (s : State) : (resetPulse s).IsRun s :=
  isRun_halThen (isRun_pinWrite ..) fun _ =>
    isRun_halThen (isRun_halDelay ..) fun _ => isRun_pinWrite ..

theorem isRun_pollRead (g : Stage) {k : State → HalRun} (hk : ∀ t, (k t).IsRun t) (s : State) :
    (pollRead g k s).IsRun s := by
  obtain ⟨-, h⟩ | ⟨l, -, -, h⟩ | ⟨l, -, -, h⟩ := pollRead_cases g k s <;> rw [h]
  · exact isRun_failed (e := .pinRead .fail) rfl g s
  · exact isRun_perform (e := .pinRead (.level l)) rfl (isRun_done _)
  · exact isRun_perform (e := .pinRead (.level l)) rfl (hk _)

theorem isRun_pollLoop {err : Err} (h : err ≠ .transportError) (g : Stage) (n : Nat) (s : State) :
    (pollLoop err g n s).IsRun s := by
  induction n generalizing s with
  | zero => exact isRun_pollRead g (isRun_timedOut h g) s
  | succ n ih => exact isRun_pollRead g (fun t => isRun_halThen (isRun_halDelay _ t) ih) s

theorem isRun_busyPoll {err : Err} (h : err ≠ .transportError) (g : Stage) (s : State) :
    (busyPoll err g s).IsRun s :=
  isRun_pollLoop h ..

theorem isRun_execStep {err : Err} (h : err ≠ .transportError) (g : Stage) (p : PanelStep)
    (s : State) : (execStep err g p s).IsRun s := by
  cases p with
  | cmd opc bs => exact isRun_sendCommand ..
  | delay ms => exact isRun_halDelay ..
  | waitBusy => exact isRun_busyPoll h ..

theorem isRun_execSteps {err : Err} (h : err ≠ .transportError) (g : Stage) (ps : List PanelStep)
    (s : State) : (execSteps err g ps s).IsRun s := by
  induction ps generalizing s with
  | nil => exact isRun_done s
  | cons p ps ih => exact isRun_halThen (isRun_execStep h g p s) ih

/-! ### The commands as HAL runs -/

/-- The HAL part of a panel command, `bytes` being DISPLAY's buffer (41_panel_ops.md R125 to R129). -/
def halPart (bytes : List Byte) : Instr → State → HalRun
  | .icConvert, s => .done s
  | .psInitialize, s => initializeRun s
  | .psDisplay, s => transferRun bytes s
  | .psClear, s => transferRun (whiteBuffer s.cfg) s
  | .psSleep, s => sleepSeq s
  | .psTeardown, s => sleepSeq s

/-- PS_ST after a panel command that succeeds (41_panel_ops.md R130). -/
def stateAfterSuccess : Instr → HandleState
  | .psSleep => .asleep
  | .psTeardown => .uninitialized
  | _ => .idle

theorem isRun_halPart (bytes : List Byte) (i : Instr) (s : State) : (halPart bytes i s).IsRun s := by
  have htransfer (bs : List Byte) : (transferRun bs s).IsRun s :=
    isRun_halThen (isRun_sendCommand ..) fun _ =>
      isRun_halThen (isRun_sendCommand ..) fun _ => isRun_busyPoll (by decide) ..
  cases i with
  | icConvert => exact isRun_done s
  | psInitialize =>
    exact isRun_halThen (isRun_resetPulse s) fun _ =>
      isRun_halThen (isRun_execSteps (by decide) ..) fun _ =>
        isRun_halThen (isRun_execSteps (by decide) ..) fun _ => isRun_busyPoll (by decide) ..
  | psDisplay => exact htransfer bytes
  | psClear => exact htransfer _
  | psSleep => exact isRun_sendCommand ..
  | psTeardown => exact isRun_sendCommand ..

/-- What a panel command can do: its HAL part, a validation error, an unwritten byte, or TEARDOWN's success without
HAL calls (41_panel_ops.md R123 to R129). -/
theorem exec_panel_cases (hi : i ∈ panelCommands) (h : exec i s = .next t) :
    (∃ bytes, t = psFinish i (stateAfterSuccess i) (halPart bytes i s)) ∨
    (∃ err, validationError err = true ∧ t = psRaise i err .validate s) ∨
    (∃ a, t = psUnwritten a s) ∨
    t = psCompleteOk .uninitialized s := by
  cases i with
  | icConvert => simp [panelCommands] at hi
  | psInitialize => cases h; exact .inl ⟨[], rfl⟩
  | psDisplay =>
    cases h
    obtain ⟨err, hc, hstep⟩ | ⟨a, -, -, hstep⟩ | ⟨bytes, -, -, hstep⟩ := displayStep_cases s
    · refine .inr (.inl ⟨err, ?_, hstep⟩)
      obtain rfl | rfl := displayCheck_some hc <;> rfl
    · exact .inr (.inr (.inl ⟨a, hstep⟩))
    · exact .inl ⟨bytes, hstep⟩
  | psClear =>
    cases h
    obtain ⟨-, hstep⟩ | ⟨-, hstep⟩ := clearStep_cases s
    · exact .inr (.inl ⟨_, rfl, hstep⟩)
    · exact .inl ⟨[], hstep⟩
  | psSleep =>
    cases h
    obtain ⟨-, hstep⟩ | ⟨-, hstep⟩ := sleepStep_cases s
    · exact .inr (.inl ⟨_, rfl, hstep⟩)
    · exact .inl ⟨[], hstep⟩
  | psTeardown =>
    cases h
    obtain ⟨-, hstep⟩ | ⟨-, hstep⟩ := teardownStep_cases s
    · exact .inl ⟨[], hstep⟩
    · exact .inr (.inr (.inr hstep))

/-! ### The end of a command leaves TRACE and the pin latches as the HAL part left them -/

@[simp] theorem psFinish_trace (i : Instr) (h : HandleState) (r : HalRun) :
    (psFinish i h r).trace = r.state.trace := by cases r <;> rfl

@[simp] theorem pinLatch_psFinish (p : OutPin) (i : Instr) (h : HandleState) (r : HalRun) :
    pinLatch p (psFinish i h r) = pinLatch p r.state := by cases r <;> cases p <;> rfl

theorem exec_icConvert_hal (h : exec .icConvert s = .next t) :
    t.trace = s.trace ∧ ∀ p, pinLatch p t = pinLatch p s := by
  cases h
  obtain ⟨e, c, -, h⟩ | ⟨m, a, -, -, h⟩ | ⟨m, src, -, -, h⟩ := convertStep_cases s <;> rw [h] <;>
    exact ⟨rfl, fun p => by cases p <;> rfl⟩

theorem instr_cases (i : Instr) : i = .icConvert ∨ i ∈ panelCommands := by cases i <;> decide

/-- Every command leaves TRACE and the pin latches as the HAL calls of its events do. -/
theorem exec_performs_events (h : exec i s = .next t) :
    ∃ es, t.trace = s.trace ++ es ∧ ∀ p, pinLatch p t = pinLatch p (performAll s es) := by
  obtain rfl | hi := instr_cases i
  · obtain ⟨htrace, hpin⟩ := exec_icConvert_hal h
    exact ⟨[], by simpa using htrace, hpin⟩
  · obtain ⟨bytes, rfl⟩ | ⟨err, -, rfl⟩ | ⟨a, rfl⟩ | rfl := exec_panel_cases hi h
    · obtain ⟨es, hes⟩ := isRun_halPart bytes i s
      exact ⟨es, by simp [hes.state_eq], fun p => by simp [hes.state_eq]⟩
    · exact ⟨[], by simp, fun p => by cases p <;> rfl⟩
    · exact ⟨[], by simp, fun p => by cases p <;> rfl⟩
    · exact ⟨[], by simp, fun p => by cases p <;> rfl⟩

/-! ### Where a FAIL can stand in the events of a command -/

/-- A FAIL is the last of `es` and goes with TRANSPORT_ERROR, and TRANSPORT_ERROR with a FAIL at the end. -/
def FailIsLast (err : Err) (es : List HalEvent) : Prop :=
  (∀ k e, es[k]? = some e → failed e = true → k + 1 = es.length ∧ err = .transportError)
    ∧ (err = .transportError → ∃ e, es[es.length - 1]? = some e ∧ failed e = true)

theorem failIsLast_of_good {err : Err} (ne : err ≠ .transportError)
    (good : ∀ e ∈ es, failed e = false) : FailIsLast err es := by
  refine ⟨fun k e hk hbad => ?_, fun h => absurd h ne⟩
  simp [good e (List.mem_of_getElem? hk)] at hbad

theorem failIsLast_append (good : ∀ e ∈ es, failed e = false) (bad : failed e = true) :
    FailIsLast .transportError (es ++ [e]) := by
  refine ⟨fun k e' hk hbad => ⟨?_, rfl⟩, fun _ => ⟨e, by simp, bad⟩⟩
  have hlt : k < (es ++ [e]).length := (List.getElem?_eq_some_iff.1 hk).1
  have hge : es.length ≤ k := by
    by_contra hlt
    rw [List.getElem?_append_left (not_le.1 hlt)] at hk
    simp [good e' (List.mem_of_getElem? hk)] at hbad
  rw [List.length_append, List.length_singleton] at hlt ⊢
  omega

theorem HalRun.Emits.failIsLast (h : r.Emits s es) (i : Instr) (st : HandleState) :
    FailIsLast (psFinish i st r).psErr es := by
  cases h with
  | done good => exact failIsLast_of_good (by simp [psFinish]) good
  | timedOut good ne g => exact failIsLast_of_good ne good
  | transport good bad g => exact failIsLast_append good bad

/-- A fault-free panel command emits events in which a FAIL is the last (R100, R102). -/
theorem exec_failIsLast (hi : i ∈ panelCommands) (h : exec i s = .next t) (hf : t.faults = s.faults) :
    ∃ es, t.trace = s.trace ++ es ∧ FailIsLast t.psErr es := by
  obtain ⟨bytes, rfl⟩ | ⟨err, hv, rfl⟩ | ⟨a, rfl⟩ | rfl := exec_panel_cases hi h
  · obtain ⟨es, hes⟩ := isRun_halPart bytes i s
    exact ⟨es, by simp [hes.state_eq], hes.failIsLast i _⟩
  · refine ⟨[], by simp, failIsLast_of_good ?_ (by simp)⟩
    rintro (rfl : err = .transportError)
    cases hv
  · simp at hf
  · exact ⟨[], by simp, failIsLast_of_good (by simp) (by simp)⟩

end Sys2Proof.Machine

namespace Sys2Proof.Proofs

open Sys2Proof.Machine Sys2Proof.Safety

/-- Settles O46. The command's latches are those `performAll` leaves after its events, and there the last write to a
pin decides its latch. -/
theorem pinLatchesFollowTrace : Obligations.PinLatchesFollowTrace := by
  unfold Obligations.PinLatchesFollowTrace
  intro s t i es p hexec htrace
  obtain ⟨fs, hfs, hpin⟩ := exec_performs_events hexec
  obtain rfl : es = fs := List.append_cancel_left (htrace.symm.trans hfs)
  rw [hpin]
  refine ⟨fun hnone => ?_, fun l hlast => ?_⟩
  · rw [pinLatch_performAll (by simp [hnone])]
    simp [pinAfter, hnone]
  · rw [pinLatch_performAll (by simp [hlast])]
    simp [pinAfter, hlast]

end Sys2Proof.Proofs
end

