-- ==== Sys2Proof/Proofs/HalScripts.lean ====
section
/-! A part of a panel command as a script: the events it emits when every answer is good, how it goes on then, and
that a FAIL at any of its calls raises TRANSPORT_ERROR there, at the stage of that call (40_panel_primitives.md R100
to R112). -/

namespace Sys2Proof.Machine

open Sys2Proof.Safety

variable {c : Params} {s : State} {P Q : State → HalRun} {out : State → HalRun} {e : HalEvent}
  {es fs : List HalEvent} {xs ys : List (Stage × HalEvent)} {g : Stage} {err : Err}

/-! ### Runs that are given their answers -/

/-- With parameters `c` and ENV's next answers those in `es`, the part `P` emits `es` and then is `out`: `HalRun.done`,
or a raise. -/
def Performs (c : Params) (P : State → HalRun) (es : List HalEvent) (out : State → HalRun) : Prop :=
  ∀ s, s.cfg = c → Hears s es → P s = out (performAll s es)

theorem Performs.seq (hP : Performs c P es .done) (hQ : Performs c Q fs out) :
    Performs c (fun s => halThen (P s) Q) (es ++ fs) out := by
  intro s hc hears
  obtain ⟨hes, hfs⟩ := hears_append.1 hears
  calc halThen (P s) Q
      = halThen (.done (performAll s es)) Q := by rw [hP s hc hes]
    _ = out (performAll (performAll s es) fs) := hQ _ (by rw [performAll_cfg, hc]) hfs
    _ = out (performAll s (es ++ fs)) := by rw [performAll_append]

theorem Performs.seq_raised (hP : Performs c P es (.raised err g)) (Q : State → HalRun) :
    Performs c (fun s => halThen (P s) Q) es (.raised err g) := by
  intro s hc hears
  change halThen (P s) Q = _
  rw [hP s hc hears]
  rfl

/-- A first event before a part that is given its answers. -/
theorem Performs.cons (hstep : ∀ s, s.cfg = c → HearsNext s e → P s = Q (perform s e))
    (hQ : Performs c Q es out) : Performs c P (e :: es) out := by
  intro s hc ⟨he, hes⟩
  rw [hstep s hc he]
  exact hQ _ (by rw [perform_cfg, hc]) hes

/-! ### Scripts -/

/-- `P` follows the script `xs`, each event with the stage its call reports, and then is `out`. -/
structure Script (c : Params) (P : State → HalRun) (xs : List (Stage × HalEvent))
    (out : State → HalRun) : Prop where
  /-- Every answer is the script's. -/
  performs : Performs c P (xs.map (·.2)) out
  /-- The answers are the script's up to a call that ENV fails. -/
  fails : ∀ before g e rest, xs = before ++ (g, e) :: rest → isAnswered e = true →
    Performs c P (before.map (·.2) ++ [withFail e]) (.raised .transportError g)
  /-- No answer in the script is FAIL. -/
  good : ∀ x ∈ xs, failed x.2 = false

theorem Script.nil (c : Params) (out : State → HalRun) : Script c out [] out where
  performs _ _ _ := rfl
  fails _ _ _ _ h := by simp at h
  good := by simp

/-- A call before a script: ENV gives the script's answer and the rest follows, or ENV fails it. -/
theorem Script.cons (he : failed e = false)
    (hstep : ∀ s, s.cfg = c → HearsNext s e → P s = Q (perform s e))
    (hfail : isAnswered e = true → ∀ s, s.cfg = c → HearsNext s (withFail e) →
      P s = .raised .transportError g (perform s (withFail e)))
    (hQ : Script c Q xs out) : Script c P ((g, e) :: xs) out where
  performs := hQ.performs.cons hstep
  fails before g' e' rest h ha := by
    obtain ⟨rfl, hx⟩ | ⟨before, rfl, rfl⟩ := List.cons_eq_append_iff.1 h
    · cases hx
      exact fun s hc hears => hfail ha s hc hears.1
    · exact (hQ.fails before g' e' rest rfl ha).cons hstep
  good := List.forall_mem_cons.2 ⟨he, hQ.good⟩

theorem Script.seq (hP : Script c P xs .done) (hQ : Script c Q ys out) :
    Script c (fun s => halThen (P s) Q) (xs ++ ys) out where
  performs := by
    rw [List.map_append]
    exact hP.performs.seq hQ.performs
  fails before g e rest h ha := by
    obtain ⟨zs, rfl, hys⟩ | ⟨zs, hxs, hzs⟩ := List.append_eq_append_iff.1 h
    · rw [List.map_append, List.append_assoc]
      exact hP.performs.seq (hQ.fails zs g e rest hys ha)
    · cases zs with
      | nil =>
        rw [List.append_nil] at hxs
        rw [← hxs]
        exact hP.performs.seq (hQ.fails [] g e rest hzs.symm ha)
      | cons z zs =>
        cases hzs
        exact (hP.fails before g e zs hxs ha).seq_raised Q
  good := List.forall_mem_append.2 ⟨hP.good, hQ.good⟩

theorem Script.seq_raised (hP : Script c P xs (.raised err g)) (Q : State → HalRun) :
    Script c (fun s => halThen (P s) Q) xs (.raised err g) where
  performs := hP.performs.seq_raised Q
  fails before g' e rest h ha := (hP.fails before g' e rest h ha).seq_raised Q
  good := hP.good

/-- A part may read its parameters from the state it starts in. -/
theorem Script.of_eq (hP : Script c P xs out) (h : ∀ s, s.cfg = c → Q s = P s) :
    Script c Q xs out where
  performs s hc hears := (h s hc).trans (hP.performs s hc hears)
  fails before g e rest hx ha s hc hears := (h s hc).trans (hP.fails before g e rest hx ha s hc hears)
  good := hP.good

theorem Script.good_events (h : Script c P xs out) : ∀ e ∈ xs.map (·.2), failed e = false :=
  List.forall_mem_map.2 h.good

/-! ### Events of one stage -/

/-- The events, each at the stage `g`. -/
def atStage (g : Stage) (es : List HalEvent) : List (Stage × HalEvent) := es.map (g, ·)

@[simp] theorem atStage_map_snd (g : Stage) (es : List HalEvent) : (atStage g es).map (·.2) = es := by
  simp [atStage, Function.comp_def]

@[simp] theorem atStage_append (g : Stage) (es fs : List HalEvent) :
    atStage g (es ++ fs) = atStage g es ++ atStage g fs := List.map_append

/-! ### The HAL calls and send_command -/

theorem script_spiWrite (c : Params) (g : Stage) (b : Byte) :
    Script c (spiWrite g b) (atStage g [.spiWrite b .ok]) .done := by
  refine Script.cons rfl (fun s _ h => ?_) (fun _ s _ h => ?_) (Script.nil c .done) <;>
    (unfold spiWrite; rw [show nextAck s = _ from h]; rfl)

theorem script_pinWrite (c : Params) (g : Stage) (p : OutPin) (l : Level) :
    Script c (pinWrite g p l) (atStage g [.pinWrite p l .ok]) .done := by
  refine Script.cons rfl (fun s _ h => ?_) (fun _ s _ h => ?_) (Script.nil c .done) <;>
    (unfold pinWrite; rw [show nextAck s = _ from h]; rfl)

theorem script_halDelay (c : Params) (g : Stage) (ms : Nat) :
    Script c (halDelay ms) (atStage g [.delay ms]) .done :=
  Script.cons rfl (fun _ _ _ => rfl) (fun h => by cases h) (Script.nil c .done)

theorem script_sendBytes (c : Params) (g : Stage) (bs : List Byte) :
    Script c (sendBytes g bs) (atStage g (bs.map fun b => .spiWrite b .ok)) .done := by
  induction bs with
  | nil => exact Script.nil c .done
  | cons b bs ih => exact (script_spiWrite c g b).seq ih

/-- send_command (R103). -/
theorem script_sendCommand (c : Params) (g : Stage) (opc : Byte) (bs : List Byte) :
    Script c (sendCommand g opc bs) (atStage g (sendCommandEvents c opc bs)) .done := by
  refine Script.of_eq ((script_pinWrite c g .dc c.dcCmdLevel).seq
    ((script_spiWrite c g opc).seq
      ((script_pinWrite c g .dc (~~~ c.dcCmdLevel)).seq (script_sendBytes c g bs)))) ?_
  rintro s rfl
  rfl

/-- reset (R104). -/
theorem script_resetPulse (c : Params) :
    Script c resetPulse (atStage .reset (resetEvents c)) .done := by
  refine Script.of_eq ((script_pinWrite c .reset .rst c.rstActiveLevel).seq
    ((script_halDelay c .reset c.resetPulseMs).seq
      (script_pinWrite c .reset .rst (~~~ c.rstActiveLevel)))) ?_
  rintro s rfl
  rfl

/-! ### busy_poll (R105) -/

theorem not_level_ne (l : Level) : ~~~ l ≠ l := by revert l; decide

theorem pollRead_of_fail (h : nextBusy s = .fail) (g : Stage) (k : State → HalRun) :
    pollRead g k s = .raised .transportError g (perform s (.pinRead .fail)) := by
  unfold pollRead
  rw [h]
  rfl

theorem pollRead_of_level {l : Level} (h : nextBusy s = .level l) (g : Stage) (k : State → HalRun) :
    pollRead g k s = (if l = s.cfg.busyReadyLevel then HalRun.done else k)
      (perform s (.pinRead (.level l))) := by
  unfold pollRead
  rw [h]
  exact (apply_ite (fun f : State → HalRun => f (perform s (.pinRead (.level l)))) ..).symm

/-- A read: the ready level ends the poll. -/
theorem script_pollRead_ready (c : Params) (g : Stage) (k : State → HalRun) :
    Script c (pollRead g k) (atStage g [.pinRead (.level c.busyReadyLevel)]) .done := by
  refine Script.cons rfl (fun s hc h => ?_) (fun _ s _ h => pollRead_of_fail h g k) (Script.nil c .done)
  rw [pollRead_of_level h, hc, if_pos rfl]

/-- A read: the other level goes on. -/
theorem script_pollRead_notReady {k : State → HalRun} (hk : Script c k xs out) :
    Script c (pollRead g k) ((g, .pinRead (.level (~~~ c.busyReadyLevel))) :: xs) out := by
  refine Script.cons rfl (fun s hc h => ?_) (fun _ s _ h => pollRead_of_fail h g k) hk
  rw [pollRead_of_level h, hc, if_neg (not_level_ne _)]

/-- What the poll's loop does after a read that is not ready, `more` reads being left: the delay, then the loop. -/
def afterNotReady (err : Err) (g : Stage) (more : Nat) (s : State) : HalRun :=
  halThen (halDelay s.cfg.busyPollMs s) (pollLoop err g more)

theorem pollLoop_succ (err : Err) (g : Stage) (more : Nat) :
    pollLoop err g (more + 1) = pollRead g (afterNotReady err g more) := rfl

theorem waitEvents_succ (c : Params) (k : Nat) :
    waitEvents c (k + 1)
      = [.pinRead (.level (~~~ c.busyReadyLevel)), .delay c.busyPollMs] ++ waitEvents c k := by
  simp [waitEvents, List.replicate_succ]

/-- The k reads that are not ready, and the delays after them, leave a loop with k reads fewer. -/
theorem script_pollLoop_wait {n : Nat} (h : Script c (pollLoop err g n) xs out) (k : Nat) :
    Script c (pollLoop err g (n + k)) (atStage g (waitEvents c k) ++ xs) out := by
  induction k with
  | zero => exact h
  | succ k ih =>
    rw [waitEvents_succ, ← Nat.add_assoc, pollLoop_succ]
    refine script_pollRead_notReady (Script.of_eq ((script_halDelay c g c.busyPollMs).seq ih) ?_)
    rintro s rfl
    rfl

/-- The ready level at read k + 1 ends the poll. -/
theorem script_busyPoll_ready {k : Nat} (hk : k < c.busyMaxPolls) (err : Err) (g : Stage) :
    Script c (busyPoll err g) (atStage g (pollEvents c k)) .done := by
  have hlast (n : Nat) :
      Script c (pollLoop err g n) (atStage g [.pinRead (.level c.busyReadyLevel)]) .done := by
    cases n with
    | zero => exact script_pollRead_ready c g (.raised err g)
    | succ n => rw [pollLoop_succ]; exact script_pollRead_ready c g _
  rw [pollEvents, atStage_append]
  refine Script.of_eq (script_pollLoop_wait (hlast (c.busyMaxPolls - 1 - k)) k) ?_
  rintro s rfl
  rw [Nat.sub_add_cancel (by omega)]
  rfl

/-- BUSY_MAX_POLLS reads that are not ready raise the timeout. -/
theorem script_busyPoll_timeout (c : Params) (err : Err) (g : Stage) :
    Script c (busyPoll err g) (atStage g (timeoutEvents c)) (.raised err g) := by
  have hlast : Script c (pollLoop err g 0) (atStage g [.pinRead (.level (~~~ c.busyReadyLevel))])
      (.raised err g) :=
    script_pollRead_notReady (Script.nil c (.raised err g))
  rw [timeoutEvents, atStage_append]
  refine Script.of_eq (script_pollLoop_wait hlast (c.busyMaxPolls - 1)) ?_
  rintro s rfl
  rw [Nat.zero_add]
  rfl

/-! ### INIT_SEQ and LUT_SEQ (R106 to R108) -/

@[simp] theorem pollCount_cmd (opc : Byte) (payload : List Byte) (ps : List PanelStep) :
    pollCount (.cmd opc payload :: ps) = pollCount ps := by simp [pollCount]

@[simp] theorem pollCount_delay (ms : Nat) (ps : List PanelStep) :
    pollCount (.delay ms :: ps) = pollCount ps := by simp [pollCount]

@[simp] theorem pollCount_waitBusy (ps : List PanelStep) :
    pollCount (.waitBusy :: ps) = pollCount ps + 1 := by simp [pollCount]

theorem pollCount_append (ps qs : List PanelStep) :
    pollCount (ps ++ qs) = pollCount ps + pollCount qs := List.countP_append

/-- Induction over a sequence of steps together with the counts of its polls, one for each WAIT_BUSY. -/
theorem waits_induction
    {motive : (ps : List PanelStep) → (waits : List Nat) → waits.length = pollCount ps → Prop}
    (nil : motive [] [] rfl)
    (cmd : ∀ opc payload ps waits h, motive ps waits h →
      motive (.cmd opc payload :: ps) waits (by simp [h]))
    (delay : ∀ ms ps waits h, motive ps waits h → motive (.delay ms :: ps) waits (by simp [h]))
    (waitBusy : ∀ ps k waits h, motive ps waits h →
      motive (.waitBusy :: ps) (k :: waits) (by simp [h]))
    (ps : List PanelStep) (waits : List Nat) (h : waits.length = pollCount ps) :
    motive ps waits h := by
  induction ps generalizing waits with
  | nil =>
    obtain rfl := List.length_eq_zero_iff.1 h
    exact nil
  | cons p ps ih =>
    cases p with
    | cmd opc payload => exact cmd _ _ _ _ _ (ih waits (by simpa using h))
    | delay ms => exact delay _ _ _ _ (ih waits (by simpa using h))
    | waitBusy =>
      cases waits with
      | nil => simp at h
      | cons k waits => exact waitBusy _ _ _ _ (ih waits (by simpa using h))

theorem script_execSteps (err : Err) (g : Stage) {ps : List PanelStep} {waits : List Nat}
    (hlen : waits.length = pollCount ps) (hw : ∀ k ∈ waits, k < c.busyMaxPolls) :
    Script c (execSteps err g ps) (atStage g (stepsEvents c ps waits)) .done := by
  induction ps, waits, hlen using waits_induction with
  | nil => exact Script.nil c .done
  | cmd opc payload ps waits _ ih =>
    rw [stepsEvents, atStage_append]
    exact (script_sendCommand c g opc payload).seq (ih hw)
  | delay ms ps waits _ ih => exact (script_halDelay c g ms).seq (ih hw)
  | waitBusy ps k waits _ ih =>
    obtain ⟨hk, hwaits⟩ := List.forall_mem_cons.1 hw
    rw [stepsEvents, atStage_append]
    exact (script_busyPoll_ready hk err g).seq (ih hwaits)

theorem halThen_assoc (r : HalRun) (k m : State → HalRun) :
    halThen (halThen r k) m = halThen r fun s => halThen (k s) m := by
  cases r <;> rfl

theorem execSteps_append (err : Err) (g : Stage) (ps qs : List PanelStep) (s : State) :
    execSteps err g (ps ++ qs) s = halThen (execSteps err g ps s) (execSteps err g qs) := by
  induction ps generalizing s with
  | nil => rfl
  | cons p ps ih =>
    change halThen (execStep err g p s) (execSteps err g (ps ++ qs)) = _
    rw [funext ih, ← halThen_assoc]
    rfl

/-- A WAIT_BUSY that times out ends its sequence, the steps before it done. -/
theorem script_execSteps_timeout (err : Err) (g : Stage) {ps : List PanelStep} {waits : List Nat}
    (hlen : waits.length = pollCount ps) (hw : ∀ k ∈ waits, k < c.busyMaxPolls)
    (rest : List PanelStep) :
    Script c (execSteps err g (ps ++ .waitBusy :: rest))
      (atStage g (stepsEvents c ps waits) ++ atStage g (timeoutEvents c)) (.raised err g) :=
  Script.of_eq ((script_execSteps err g hlen hw).seq
    ((script_busyPoll_timeout c err g).seq_raised (execSteps err g rest)))
    fun s _ => execSteps_append err g ps (.waitBusy :: rest) s

/-! ### The HAL parts of the panel commands -/

theorem script_initPanel {waits : List Nat} (hlen : waits.length = pollCount c.initSeq)
    (hw : ∀ k ∈ waits, k < c.busyMaxPolls) :
    Script c initPanel (atStage .init (stepsEvents c c.initSeq waits)) .done := by
  refine Script.of_eq (script_execSteps .initTimeout .init hlen hw) ?_
  rintro s rfl
  rfl

theorem script_lutLoad {waits : List Nat} (hlen : waits.length = pollCount c.lutSeq)
    (hw : ∀ k ∈ waits, k < c.busyMaxPolls) :
    Script c lutLoad (atStage .lutLoad (stepsEvents c c.lutSeq waits)) .done := by
  refine Script.of_eq (script_execSteps .initTimeout .lutLoad hlen hw) ?_
  rintro s rfl
  rfl

/-- INITIALIZE: reset, init, lut_load, ready_wait (41_panel_ops.md R125). -/
theorem script_initializeRun {initWaits lutWaits : List Nat} {last : Nat}
    (h : WaitsFit c initWaits lutWaits last) :
    Script c initializeRun (atStage .reset (resetEvents c)
      ++ (atStage .init (stepsEvents c c.initSeq initWaits)
      ++ (atStage .lutLoad (stepsEvents c c.lutSeq lutWaits)
      ++ atStage .busyPoll (pollEvents c last)))) .done := by
  obtain ⟨hinit, hlut, hw⟩ := h
  simp only [List.forall_mem_append, List.forall_mem_singleton] at hw
  obtain ⟨⟨hwInit, hwLut⟩, hlast⟩ := hw
  exact (script_resetPulse c).seq ((script_initPanel hinit hwInit).seq
    ((script_lutLoad hlut hwLut).seq (script_busyPoll_ready hlast .initTimeout .busyPoll)))

/-- data_xfer and refresh's command, before refresh's busy poll (R110, R111). -/
theorem script_transferRun (bytes : List Byte) {es : List HalEvent}
    (hpoll : Script c (busyPoll .busyTimeout .busyPoll) (atStage .busyPoll es) out) :
    Script c (transferRun bytes) (atStage .dataXfer (sendCommandEvents c c.opcData bytes)
      ++ (atStage .refresh (sendCommandEvents c c.opcRefresh []) ++ atStage .busyPoll es)) out := by
  have hdata := script_sendCommand c .dataXfer c.opcData bytes
  have hrefresh := script_sendCommand c .refresh c.opcRefresh []
  refine Script.of_eq (hdata.seq (Script.of_eq (hrefresh.seq hpoll) (Q := refreshPanel) ?_)) ?_ <;>
  · rintro s rfl
    rfl

/-- sleep_seq (R112). -/
theorem script_sleepSeq (c : Params) : Script c sleepSeq (atStage .sleep (sleepEvents c)) .done := by
  refine Script.of_eq (script_sendCommand c .sleep c.opcSleep c.sleepPayload) ?_
  rintro s rfl
  rfl

end Sys2Proof.Machine
end

