-- ==== Sys2Proof/Proofs/EventLists.lean ====
section
/-! The event lists that statements are written in: their reads, their writes and their pins, and the busy poll's
three outcomes (40_panel_primitives.md R103 to R106). -/

namespace Sys2Proof.Machine

open Sys2Proof.Safety

variable {c : Params} {s : State} {e : HalEvent} {es : List HalEvent} {p : OutPin} {acks : List Ack}
  {reads : List BusyAnswer}

/-! ### ENV's queues for events without a FAIL -/

theorem answersAre_of_good (good : ∀ e ∈ es, failed e = false)
    (hacks : s.acks = List.replicate (writeCount es) .ok ++ acks)
    (hreads : s.busyReads = es.filterMap busyAnswer ++ reads) : AnswersAre s es acks reads :=
  ⟨by rw [filterMap_ackAnswer good]; exact hacks, hreads⟩

/-! ### Events that write no pin and no byte -/

theorem lastPinWrite_of_noWrites (h : ∀ e ∈ es, isWriteEvent e = false) (p : OutPin) :
    lastPinWrite p es = none := by
  cases hlast : lastPinWrite p es with
  | none => rfl
  | some w => exact absurd (h _ (lastPinWrite_mem hlast)) (by simp [isWriteEvent])

theorem writeCount_of_noWrites (h : ∀ e ∈ es, isWriteEvent e = false) : writeCount es = 0 :=
  List.countP_eq_zero.2 fun e he => by simp [h e he]

theorem filterMap_ackAnswer_of_noWrites (h : ∀ e ∈ es, isWriteEvent e = false) :
    es.filterMap ackAnswer = [] := by
  refine List.filterMap_eq_nil_iff.2 fun e he => ?_
  cases e with
  | spiWrite b a => exact absurd (h _ he) (by simp [isWriteEvent])
  | pinWrite p l a => exact absurd (h _ he) (by simp [isWriteEvent])
  | pinRead a => rfl
  | delay ms => rfl

theorem answersAre_of_noWrites (h : ∀ e ∈ es, isWriteEvent e = false)
    (hreads : s.busyReads = es.filterMap busyAnswer ++ reads) : AnswersAre s es s.acks reads :=
  ⟨by rw [filterMap_ackAnswer_of_noWrites h]; rfl, hreads⟩

/-- Reads and delays change TRACE and use up their answers. -/
theorem performAll_eq_of_noWrites (h : ∀ e ∈ es, isWriteEvent e = false)
    (hreads : s.busyReads = es.filterMap busyAnswer ++ reads) :
    performAll s es = { s with trace := s.trace ++ es, busyReads := reads } := by
  rw [performAll_eq_of_answersAre (answersAre_of_noWrites h hreads)
    fun p l hmem => absurd (h _ hmem) (by simp [isWriteEvent])]
  simp [pinAfter, lastPinWrite_of_noWrites h]

/-! ### A busy poll's events -/

theorem isWriteEvent_of_mem_waitEvents {k : Nat} (h : e ∈ waitEvents c k) : isWriteEvent e = false := by
  simp only [waitEvents, List.mem_flatten, List.mem_replicate] at h
  obtain ⟨pair, ⟨-, rfl⟩, he⟩ := h
  obtain rfl | rfl : e = .pinRead (.level (~~~ c.busyReadyLevel)) ∨ e = .delay c.busyPollMs := by
    simpa using he
  all_goals rfl

theorem isWriteEvent_of_mem_waitEvents_append {k : Nat} {a : BusyAnswer}
    (h : e ∈ waitEvents c k ++ [.pinRead a]) : isWriteEvent e = false := by
  obtain h | h := List.mem_append.1 h
  · exact isWriteEvent_of_mem_waitEvents h
  · rw [List.mem_singleton.1 h]; rfl

@[simp] theorem filterMap_busyAnswer_waitEvents (c : Params) (k : Nat) :
    (waitEvents c k).filterMap busyAnswer = List.replicate k (.level (~~~ c.busyReadyLevel)) := by
  induction k with
  | zero => rfl
  | succ k ih => rw [waitEvents_succ, List.filterMap_append, ih]; rfl

@[simp] theorem filterMap_busyAnswer_pollEvents (c : Params) (k : Nat) :
    (pollEvents c k).filterMap busyAnswer = busyAnswers c [k] := by
  simp [pollEvents, busyAnswers, busyAnswer]

theorem filterMap_busyAnswer_timeoutEvents (h : 1 ≤ c.busyMaxPolls) :
    (timeoutEvents c).filterMap busyAnswer
      = List.replicate c.busyMaxPolls (.level (~~~ c.busyReadyLevel)) := by
  obtain ⟨n, hn⟩ := Nat.exists_eq_add_of_le' h
  simp [timeoutEvents, busyAnswer, hn, List.replicate_succ']

/-! ### send_command's events -/

@[simp] theorem writeCount_sendCommandEvents (c : Params) (opc : Byte) (bs : List Byte) :
    writeCount (sendCommandEvents c opc bs) = 3 + bs.length := by
  have hbytes : (bs.map fun b => HalEvent.spiWrite b .ok).countP isWriteEvent = bs.length := by
    rw [List.countP_map]
    exact List.countP_eq_length.2 fun _ _ => rfl
  rw [sendCommandEvents, writeCount_append, writeCount, writeCount, hbytes]
  rfl

@[simp] theorem filterMap_busyAnswer_sendCommandEvents (c : Params) (opc : Byte) (bs : List Byte) :
    (sendCommandEvents c opc bs).filterMap busyAnswer = [] := by
  simp [sendCommandEvents, List.filterMap_cons, busyAnswer]

@[simp] theorem lastPinWrite_rst_sendCommandEvents (c : Params) (opc : Byte) (bs : List Byte) :
    lastPinWrite .rst (sendCommandEvents c opc bs) = none := by
  cases hlast : lastPinWrite .rst (sendCommandEvents c opc bs) with
  | none => rfl
  | some w => simpa [sendCommandEvents] using lastPinWrite_mem hlast

@[simp] theorem lastPinWrite_dc_sendCommandEvents (c : Params) (opc : Byte) (bs : List Byte) :
    lastPinWrite .dc (sendCommandEvents c opc bs) = some (~~~ c.dcCmdLevel, .ok) := by
  have hbytes : lastPinWrite .dc (bs.map fun b => .spiWrite b .ok) = none := by
    cases hlast : lastPinWrite .dc (bs.map fun b => .spiWrite b .ok) with
    | none => rfl
    | some w => simpa using lastPinWrite_mem hlast
  rw [sendCommandEvents, lastPinWrite_append, hbytes]
  rfl

/-! ### INIT_SEQ's and LUT_SEQ's events -/

theorem filterMap_busyAnswer_stepsEvents {ps : List PanelStep} {waits : List Nat}
    (h : waits.length = pollCount ps) :
    (stepsEvents c ps waits).filterMap busyAnswer = busyAnswers c waits := by
  induction ps, waits, h using waits_induction with
  | nil => rfl
  | cmd opc payload ps waits _ ih =>
    rw [stepsEvents, List.filterMap_append, filterMap_busyAnswer_sendCommandEvents, List.nil_append, ih]
  | delay ms ps waits _ ih => exact ih
  | waitBusy ps k waits _ ih =>
    rw [stepsEvents, List.filterMap_append, filterMap_busyAnswer_pollEvents, ih]
    simp [busyAnswers]

theorem stepsEvents_append (c : Params) {ps : List PanelStep} {waits : List Nat}
    (h : waits.length = pollCount ps) (qs : List PanelStep) (more : List Nat) :
    stepsEvents c (ps ++ qs) (waits ++ more) = stepsEvents c ps waits ++ stepsEvents c qs more := by
  induction ps, waits, h using waits_induction with
  | nil => rfl
  | cmd opc payload ps waits _ ih =>
    rw [List.cons_append, stepsEvents, stepsEvents, List.append_assoc, ih]
  | delay ms ps waits _ ih => rw [List.cons_append, stepsEvents, stepsEvents, List.cons_append, ih]
  | waitBusy ps k waits _ ih =>
    rw [List.cons_append, List.cons_append, stepsEvents, stepsEvents, List.append_assoc, ih]

end Sys2Proof.Machine

namespace Sys2Proof.Proofs

open Sys2Proof.Machine Sys2Proof.Safety

/-- Settles O43. Each case is one of the poll's scripts, run on reads that give its answers: the script that is ready
at read k + 1, the timeout's, and the first one's failure at its last read. -/
theorem busyPollIsBounded : Obligations.BusyPollIsBounded := by
  unfold Obligations.BusyPollIsBounded
  intro s e stage reads
  refine ⟨?ready, ?timeout, ?fail⟩
  case ready =>
    intro k hk hreads
    rw [← filterMap_busyAnswer_pollEvents] at hreads
    have hw : ∀ e ∈ pollEvents s.cfg k, isWriteEvent e = false :=
      fun _ => isWriteEvent_of_mem_waitEvents_append
    rw [← performAll_eq_of_noWrites hw hreads]
    have hrun := (script_busyPoll_ready hk e stage).performs
    rw [atStage_map_snd] at hrun
    exact hrun s rfl (answersAre_of_noWrites hw hreads).hears
  case timeout =>
    intro hmax hreads
    rw [← filterMap_busyAnswer_timeoutEvents hmax] at hreads
    have hw : ∀ e ∈ timeoutEvents s.cfg, isWriteEvent e = false :=
      fun _ => isWriteEvent_of_mem_waitEvents_append
    rw [← performAll_eq_of_noWrites hw hreads]
    have hrun := (script_busyPoll_timeout s.cfg e stage).performs
    rw [atStage_map_snd] at hrun
    exact hrun s rfl (answersAre_of_noWrites hw hreads).hears
  case fail =>
    intro j hj hreads
    have hanswers : s.busyReads
        = (waitEvents s.cfg j ++ [HalEvent.pinRead .fail]).filterMap busyAnswer ++ reads := by
      simpa [busyAnswer] using hreads
    have hw : ∀ e ∈ waitEvents s.cfg j ++ [.pinRead .fail], isWriteEvent e = false :=
      fun _ => isWriteEvent_of_mem_waitEvents_append
    rw [List.append_assoc, ← performAll_eq_of_noWrites hw hanswers]
    have hrun := (script_busyPoll_ready hj e stage).fails (atStage stage (waitEvents s.cfg j)) stage
      (.pinRead (.level s.cfg.busyReadyLevel)) [] (atStage_append ..) rfl
    rw [atStage_map_snd] at hrun
    exact hrun s rfl (answersAre_of_noWrites hw hanswers).hears

end Sys2Proof.Proofs
end

