-- ==== Sys2Proof/Proofs/HalErrors.lean ====
section
/-! Panel commands whose HAL part raises: a FAIL at any call and a panel that is never ready (40_panel_primitives.md
R100 to R112; 41_panel_ops.md R132; 60_exceptions.md R211, R218). -/

namespace Sys2Proof.Machine

open Sys2Proof.Safety

variable {c : Params} {s t : State} {i : Instr} {e : HalEvent} {es before : List HalEvent}
  {bytes : List Byte} {acks : List Ack} {reads : List BusyAnswer} {err : Err} {g : Stage}
  {xs : List (Stage × HalEvent)} {out : State → HalRun}

/-! ### A command past its validation -/

theorem displayStep_of_bufferIs (hidle : s.psSt = .idle) (h : BufferIs s bytes) :
    displayStep s = psFinish .psDisplay .idle (transferRun bytes s) := by
  obtain ⟨hlen, hend, hbytes, hread⟩ := h
  have hc : displayCheck s = none := (displayCheck_none_iff s).2 ⟨hidle, hlen, hend⟩
  have hr : readBytes s.mem (bufBase s) (bufLen s) = .ok bytes :=
    (readBytes_ok_iff ..).2 ⟨hbytes, hread⟩
  unfold displayStep
  rw [hc, hr]

theorem length_of_bufferIs (h : BufferIs s bytes) : bytes.length = expectedLen s.cfg := by
  obtain ⟨hlen, -, hbytes, -⟩ := h
  exact hbytes.trans hlen

/-- A command past its validation is its HAL part and an end (41_panel_ops.md R125 to R129). -/
theorem exec_of_reachesHal (h : ReachesHal s bytes i) :
    exec i s = .next (psFinish i (stateAfterSuccess i) (halPart bytes i s)) := by
  cases i with
  | icConvert => exact h.elim
  | psInitialize => rfl
  | psDisplay =>
    obtain ⟨hidle, hbuf⟩ := h
    exact congrArg _ (displayStep_of_bufferIs hidle hbuf)
  | psClear =>
    obtain ⟨hne, -⟩ | ⟨-, hstep⟩ := clearStep_cases s
    · exact absurd h hne
    · exact congrArg _ hstep
  | psSleep =>
    obtain ⟨hne, -⟩ | ⟨-, hstep⟩ := sleepStep_cases s
    · exact absurd h hne
    · exact congrArg _ hstep
  | psTeardown =>
    obtain ⟨-, hstep⟩ | ⟨hne, -⟩ := teardownStep_cases s
    · exact congrArg _ hstep
    · exact absurd h hne

/-- The staged events of a command are the script of its HAL part (41_panel_ops.md R125 to R129). -/
theorem script_halPart {initWaits lutWaits : List Nat} {last : Nat}
    (h : WaitsFit c initWaits lutWaits last) (bytes : List Byte) (i : Instr) :
    Script c (halPart bytes i) (stagedEvents c bytes initWaits lutWaits last i) .done := by
  have hlast : last < c.busyMaxPolls := h.2.2 last (by simp)
  have htransfer (bs : List Byte) : Script c (transferRun bs)
      (atStage .dataXfer (sendCommandEvents c c.opcData bs)
        ++ atStage .refresh (sendCommandEvents c c.opcRefresh [])
        ++ atStage .busyPoll (pollEvents c last)) .done := by
    rw [List.append_assoc]
    exact script_transferRun bs (script_busyPoll_ready hlast ..)
  cases i with
  | icConvert => exact Script.nil c .done
  | psInitialize =>
    have hrun := script_initializeRun h
    rw [← List.append_assoc, ← List.append_assoc] at hrun
    exact hrun
  | psDisplay => exact htransfer bytes
  | psClear =>
    refine Script.of_eq (htransfer (whiteBuffer c)) ?_
    rintro s rfl
    rfl
  | psSleep => exact script_sleepSeq c
  | psTeardown => exact script_sleepSeq c

/-! ### A raise of the HAL part -/

theorem panelFrame_psRaise (h : HalFrame s t) (i : Instr) (err : Err) (g : Stage) :
    PanelFrame s (psRaise i err g t) := by
  unfold HalFrame at h
  unfold PanelFrame
  rw [h]
  rfl

/-- The raise of a HAL part that is given its answers, as the error completion of the command. -/
theorem exec_of_performs_raised (hreach : ReachesHal s bytes i)
    (hrun : Performs s.cfg (halPart bytes i) es (.raised err g)) (h : AnswersAre s es acks reads) :
    exec i s = .next (psRaise i err g (performAll s es)) := by
  rw [exec_of_reachesHal hreach, hrun s rfl h.hears]
  rfl

/-- The same completion, field by field (41_panel_ops.md R132; 60_exceptions.md R211). -/
theorem exists_exec_of_performs_raised (hreach : ReachesHal s bytes i)
    (hrun : Performs s.cfg (halPart bytes i) es (.raised err g)) (h : AnswersAre s es acks reads)
    (herr : validationError err = false) :
    ∃ t, exec i s = .next t ∧ PanelFrame s t ∧ t.trace = s.trace ++ es ∧ t.acks = acks
      ∧ t.busyReads = reads ∧ t.psErr = err ∧ t.psStage = g
      ∧ t.psSt = (if i = .psTeardown then .uninitialized else .faulted)
      ∧ t.psDone = true ∧ t.psPend = .none := by
  obtain ⟨hacks, hreads⟩ : AnswersAre (performAll s es) [] acks reads := h.rest
  refine ⟨_, exec_of_performs_raised hreach hrun h,
    panelFrame_psRaise (halStep_performAll s es).1 i err g, performAll_trace s es, hacks, hreads, rfl,
    rfl, ?_, rfl, rfl⟩
  simp [psRaise, psStateAfterError, herr]

/-! ### A FAIL at some call -/

/-- The queues of FailsAfter give the answers before the failed call and its FAIL. -/
theorem answersAre_of_failsAfter (good : ∀ e ∈ before, failed e = false) (he : isAnswered e = true)
    (h : FailsAfter s before e acks reads) : AnswersAre s (before ++ [withFail e]) acks reads := by
  obtain ⟨hacks, hreads⟩ := h
  rw [← filterMap_ackAnswer good] at hacks
  unfold AnswersAre
  rw [List.filterMap_append, List.filterMap_append, hacks, hreads, List.append_assoc,
    List.append_assoc]
  cases e with
  | delay ms => cases he
  | spiWrite b a => exact ⟨rfl, rfl⟩
  | pinWrite p l a => exact ⟨rfl, rfl⟩
  | pinRead a => exact ⟨rfl, rfl⟩

/-! ### A FAIL at the first call -/

theorem performs_first_failed {P : State → HalRun} (h : Script c P ((g, e) :: xs) out)
    (he : isAnswered e = true) : Performs c P [withFail e] (.raised .transportError g) :=
  h.fails [] g e xs rfl he

theorem performs_psInitialize_first_failed (c : Params) :
    Performs c (halPart [] .psInitialize) [.pinWrite .rst c.rstActiveLevel .fail]
      (.raised .transportError .reset) :=
  (performs_first_failed (script_resetPulse c) rfl).seq_raised _

theorem performs_psDisplay_first_failed (c : Params) (bytes : List Byte) :
    Performs c (halPart bytes .psDisplay) [.pinWrite .dc c.dcCmdLevel .fail]
      (.raised .transportError .dataXfer) := by
  have hdata := performs_first_failed (script_sendCommand c .dataXfer c.opcData bytes) rfl
  rintro s rfl hears
  exact hdata.seq_raised refreshPanel s rfl hears

theorem performs_psClear_first_failed (c : Params) :
    Performs c (halPart [] .psClear) [.pinWrite .dc c.dcCmdLevel .fail]
      (.raised .transportError .dataXfer) := by
  rintro s rfl hears
  exact performs_psDisplay_first_failed s.cfg (whiteBuffer s.cfg) s rfl hears

theorem performs_sleepSeq_first_failed (c : Params) :
    Performs c sleepSeq [.pinWrite .dc c.dcCmdLevel .fail] (.raised .transportError .sleep) :=
  performs_first_failed (script_sleepSeq c) rfl

/-- A command whose first PinWrite fails emits that event alone. -/
theorem exists_exec_of_first_failed {p : OutPin} {l : Level} (hreach : ReachesHal s bytes i)
    (hrun : Performs s.cfg (halPart bytes i) [.pinWrite p l .fail] (.raised .transportError g))
    (hacks : s.acks = .fail :: acks) :
    ∃ t, exec i s = .next t ∧ PanelFrame s t ∧ t.trace = s.trace ++ [.pinWrite p l .fail]
      ∧ t.acks = acks ∧ t.psErr = .transportError ∧ t.psStage = g
      ∧ t.psSt = (if i = .psTeardown then .uninitialized else .faulted)
      ∧ t.psDone = true ∧ t.psPend = .none := by
  have hanswers : AnswersAre s [.pinWrite p l .fail] acks s.busyReads := ⟨hacks, rfl⟩
  obtain ⟨t, hexec, hframe, htrace, htacks, -, hend⟩ :=
    exists_exec_of_performs_raised hreach hrun hanswers rfl
  exact ⟨t, hexec, hframe, htrace, htacks, hend⟩

/-! ### A panel that is never ready -/

theorem writeCount_timeoutEvents (c : Params) : writeCount (timeoutEvents c) = 0 :=
  writeCount_of_noWrites fun _ => isWriteEvent_of_mem_waitEvents_append

/-- The queues of a panel that times out after the events `es`. -/
theorem answersAre_timeout (good : ∀ e ∈ es ++ timeoutEvents s.cfg, failed e = false)
    (hmax : 1 ≤ s.cfg.busyMaxPolls) (hacks : s.acks = List.replicate (writeCount es) .ok ++ acks)
    (hreads : s.busyReads = es.filterMap busyAnswer
      ++ (List.replicate s.cfg.busyMaxPolls (.level (~~~ s.cfg.busyReadyLevel)) ++ reads)) :
    AnswersAre s (es ++ timeoutEvents s.cfg) acks reads := by
  refine answersAre_of_good good ?_ ?_
  · rw [writeCount_append, writeCount_timeoutEvents]
    exact hacks
  · rw [List.filterMap_append, filterMap_busyAnswer_timeoutEvents hmax, List.append_assoc]
    exact hreads

/-- CLEAR and DISPLAY on a panel that is never ready (R111; 41_panel_ops.md R126, R127). -/
theorem exec_of_transfer_timeout (hreach : ReachesHal s bytes i) {bs : List Byte}
    (hi : i ≠ .psTeardown) (hpart : halPart bytes i s = transferRun bs s) (hmax : 1 ≤ s.cfg.busyMaxPolls)
    (hacks : s.acks = List.replicate (3 + bs.length + 3) .ok ++ acks)
    (hreads : s.busyReads
      = List.replicate s.cfg.busyMaxPolls (.level (~~~ s.cfg.busyReadyLevel)) ++ reads) :
    exec i s = .next { s with
      psSt := .faulted, psDone := true, psErr := .busyTimeout, psStage := .busyPoll, psPend := .none,
      trace := s.trace ++ sendCommandEvents s.cfg s.cfg.opcData bs
        ++ sendCommandEvents s.cfg s.cfg.opcRefresh [] ++ timeoutEvents s.cfg,
      dcOut := ~~~ s.cfg.dcCmdLevel, acks := acks, busyReads := reads } := by
  have hscript := script_transferRun bs (script_busyPoll_timeout s.cfg .busyTimeout .busyPoll)
  have hrun := hscript.performs
  have hgood := hscript.good_events
  simp only [List.map_append, atStage_map_snd, ← List.append_assoc] at hrun hgood
  have hanswers := answersAre_timeout (acks := acks) (reads := reads) hgood hmax
    (by simpa [writeCount_append] using hacks) (by simpa [List.filterMap_append] using hreads)
  have hpins (p : OutPin) : lastPinWrite p (timeoutEvents s.cfg) = none :=
    lastPinWrite_of_noWrites (fun _ => isWriteEvent_of_mem_waitEvents_append) p
  rw [exec_of_reachesHal hreach, hpart, hrun s rfl hanswers.hears,
    performAll_eq_of_answersAre hanswers (pinWrite_fail_not_mem hgood)]
  simp [psFinish, psRaise, psStateAfterError, validationError, hi, pinAfter, lastPinWrite_append,
    hpins]

/-- INITIALIZE on a panel that is never ready at the poll of its script (41_panel_ops.md R125, R132). -/
theorem exec_psInitialize_of_timeout (hscript : Script s.cfg initializeRun xs (.raised .initTimeout g))
    (hxs : xs.map (·.2) = es ++ timeoutEvents s.cfg) (hmax : 1 ≤ s.cfg.busyMaxPolls)
    (hacks : s.acks = List.replicate (writeCount es) .ok ++ acks)
    (hreads : s.busyReads = es.filterMap busyAnswer
      ++ (List.replicate s.cfg.busyMaxPolls (.level (~~~ s.cfg.busyReadyLevel)) ++ reads)) :
    ∃ t : State, exec .psInitialize s = .next t ∧ PanelFrame s t
      ∧ t.trace = s.trace ++ (es ++ timeoutEvents s.cfg) ∧ t.acks = acks ∧ t.busyReads = reads
      ∧ t.psSt = .faulted ∧ t.psDone = true ∧ t.psErr = .initTimeout ∧ t.psStage = g
      ∧ t.psPend = .none := by
  have hrun := hscript.performs
  have hgood := hscript.good_events
  rw [hxs] at hrun hgood
  obtain ⟨t, hexec, hframe, htrace, htacks, htreads, herr, hstage, hst, hdone, hpend⟩ :=
    exists_exec_of_performs_raised (i := .psInitialize) (bytes := []) trivial hrun
      (answersAre_timeout hgood hmax hacks hreads) rfl
  exact ⟨t, hexec, hframe, htrace, htacks, htreads, hst, hdone, herr, hstage, hpend⟩

/-- INITIALIZE whose init times out in a WAIT_BUSY of INIT_SEQ (R107). -/
theorem script_initializeRun_init_timeout {ps rest : List PanelStep} {waits : List Nat}
    (hseq : c.initSeq = ps ++ .waitBusy :: rest) (hlen : waits.length = pollCount ps)
    (hw : ∀ k ∈ waits, k < c.busyMaxPolls) :
    Script c initializeRun (atStage .reset (resetEvents c) ++ (atStage .init (stepsEvents c ps waits)
      ++ atStage .init (timeoutEvents c))) (.raised .initTimeout .init) := by
  have hsteps := script_execSteps_timeout (c := c) .initTimeout .init hlen hw rest
  refine (script_resetPulse c).seq (Script.seq_raised (Script.of_eq hsteps ?_) _)
  rintro s rfl
  rw [← hseq]
  rfl

/-- INITIALIZE whose lut_load times out in a WAIT_BUSY of LUT_SEQ (R108). -/
theorem script_initializeRun_lut_timeout {ps rest : List PanelStep} {initWaits waits : List Nat}
    (hseq : c.lutSeq = ps ++ .waitBusy :: rest) (hinit : initWaits.length = pollCount c.initSeq)
    (hwInit : ∀ k ∈ initWaits, k < c.busyMaxPolls) (hlen : waits.length = pollCount ps)
    (hw : ∀ k ∈ waits, k < c.busyMaxPolls) :
    Script c initializeRun (atStage .reset (resetEvents c)
      ++ (atStage .init (stepsEvents c c.initSeq initWaits)
      ++ (atStage .lutLoad (stepsEvents c ps waits) ++ atStage .lutLoad (timeoutEvents c))))
      (.raised .initTimeout .lutLoad) := by
  have hsteps := script_execSteps_timeout (c := c) .initTimeout .lutLoad hlen hw rest
  refine (script_resetPulse c).seq ((script_initPanel hinit hwInit).seq
    (Script.seq_raised (Script.of_eq hsteps ?_) _))
  rintro s rfl
  rw [← hseq]
  rfl

/-- INITIALIZE whose ready_wait times out (R109). -/
theorem script_initializeRun_ready_timeout {initWaits lutWaits : List Nat}
    (hinit : initWaits.length = pollCount c.initSeq)
    (hwInit : ∀ k ∈ initWaits, k < c.busyMaxPolls) (hlut : lutWaits.length = pollCount c.lutSeq)
    (hwLut : ∀ k ∈ lutWaits, k < c.busyMaxPolls) :
    Script c initializeRun (atStage .reset (resetEvents c)
      ++ (atStage .init (stepsEvents c c.initSeq initWaits)
      ++ (atStage .lutLoad (stepsEvents c c.lutSeq lutWaits) ++ atStage .busyPoll (timeoutEvents c))))
      (.raised .initTimeout .busyPoll) :=
  (script_resetPulse c).seq ((script_initPanel hinit hwInit).seq
    ((script_lutLoad hlut hwLut).seq (script_busyPoll_timeout c .initTimeout .busyPoll)))

/-- The reads of INITIALIZE before the poll that times out. -/
theorem filterMap_busyAnswer_reset_steps {ps : List PanelStep} {waits : List Nat}
    (h : waits.length = pollCount ps) :
    (resetEvents c ++ stepsEvents c ps waits).filterMap busyAnswer = busyAnswers c waits := by
  rw [List.filterMap_append, filterMap_busyAnswer_stepsEvents h]
  rfl

/-- The counts of two sequences run one after the other, taken apart. -/
theorem exists_waits_append {ps qs : List PanelStep} {waits : List Nat}
    (h : waits.length = pollCount (ps ++ qs)) :
    ∃ ws vs, waits = ws ++ vs ∧ ws.length = pollCount ps ∧ vs.length = pollCount qs := by
  rw [pollCount_append] at h
  refine ⟨waits.take (pollCount ps), waits.drop (pollCount ps), by simp, ?_, ?_⟩
  · rw [List.length_take]; omega
  · rw [List.length_drop]; omega

end Sys2Proof.Machine

namespace Sys2Proof.Proofs

open Sys2Proof.Machine Sys2Proof.Safety

/-- Settles O42. A FAIL can only stand last in any run's events, whatever the answers; and the staged events are the
script of the command's HAL part, which says what a FAIL at each of its calls raises. -/
theorem failedAnswerEndsCommand : Obligations.FailedAnswerEndsCommand := by
  unfold Obligations.FailedAnswerEndsCommand
  refine ⟨?last, ?stages⟩
  case last =>
    intro s t i es hi hexec htrace hfaults
    obtain ⟨fs, hfs, hlast⟩ := exec_failIsLast hi hexec hfaults
    obtain rfl : es = fs := List.append_cancel_left (htrace.symm.trans hfs)
    exact hlast
  case stages =>
    intro s i bytes initWaits lutWaits last k stage e acks reads hreach hfit hk hanswered before hfails
    have hscript := script_halPart hfit bytes i
    obtain ⟨hlt, hget⟩ := List.getElem?_eq_some_iff.1 hk
    have hsplit : stagedEvents s.cfg bytes initWaits lutWaits last i
        = (stagedEvents s.cfg bytes initWaits lutWaits last i).take k
          ++ (stage, e) :: (stagedEvents s.cfg bytes initWaits lutWaits last i).drop (k + 1) := by
      rw [← hget, List.cons_getElem_drop_succ, List.take_append_drop]
    have hgood : ∀ e ∈ before, failed e = false :=
      List.forall_mem_map.2 fun x hx => hscript.good x (List.mem_of_mem_take hx)
    rw [List.append_assoc]
    exact exists_exec_of_performs_raised hreach (hscript.fails _ stage e _ hsplit hanswered)
      (answersAre_of_failsAfter hgood hanswered hfails) rfl

/-- Settles O44. Each clause is a script that ends in the timeout of a busy poll, on queues that give its answers. -/
theorem neverReadyPanelTimesOut : Obligations.NeverReadyPanelTimesOut := by
  unfold Obligations.NeverReadyPanelTimesOut
  intro s acks reads hmax
  refine ⟨?transfer, ?init, ?lut, ?ready⟩
  case transfer =>
    intro hidle hacks hreads
    refine ⟨?clear, fun bytes hbuf => ?display⟩
    case clear =>
      exact exec_of_transfer_timeout (i := .psClear) (bytes := []) (bs := whiteBuffer s.cfg) hidle
        (by decide) rfl hmax (by rw [whiteBuffer, List.length_replicate]; exact hacks) hreads
    case display =>
      have hlen : bytes.length = expectedLen s.cfg := length_of_bufferIs hbuf
      exact exec_of_transfer_timeout (i := .psDisplay) (bytes := bytes) ⟨hidle, hbuf⟩ (by decide) rfl
        hmax (by rw [hlen]; exact hacks) hreads
  case init =>
    intro ps rest waits hseq hlen hw es hacks hreads
    rw [← filterMap_busyAnswer_reset_steps hlen] at hreads
    exact exec_psInitialize_of_timeout (script_initializeRun_init_timeout hseq hlen hw)
      (by simp [es]) hmax hacks hreads
  case lut =>
    intro ps rest waits hseq hlen hw es hacks hreads
    rw [← filterMap_busyAnswer_reset_steps hlen] at hreads
    obtain ⟨ws, vs, rfl, hws, hvs⟩ := exists_waits_append hlen
    obtain ⟨hwInit, hwLut⟩ := List.forall_mem_append.1 hw
    exact exec_psInitialize_of_timeout (script_initializeRun_lut_timeout hseq hws hwInit hvs hwLut)
      (by simp [es, stepsEvents_append _ hws]) hmax hacks hreads
  case ready =>
    intro waits hlen hw es hacks hreads
    rw [← filterMap_busyAnswer_reset_steps hlen] at hreads
    obtain ⟨ws, vs, rfl, hws, hvs⟩ := exists_waits_append hlen
    obtain ⟨hwInit, hwLut⟩ := List.forall_mem_append.1 hw
    exact exec_psInitialize_of_timeout (script_initializeRun_ready_timeout hws hwInit hvs hwLut)
      (by simp [es, stepsEvents_append _ hws]) hmax hacks hreads

/-- Settles O45. The first call of each command's first primitive fails, and the raise ends the command. -/
theorem firstCallFailureIsReported : Obligations.FirstCallFailureIsReported := by
  unfold Obligations.FirstCallFailureIsReported
  intro s acks hacks
  refine ⟨?reset, fun hidle => ?noOperands, fun bytes hidle hbuf => ?display⟩
  case reset =>
    exact exists_exec_of_first_failed trivial (performs_psInitialize_first_failed s.cfg) hacks
  case noOperands =>
    have hclear := exists_exec_of_first_failed (i := .psClear) hidle
      (performs_psClear_first_failed s.cfg) hacks
    have hsleep := exists_exec_of_first_failed (i := .psSleep) (bytes := []) hidle
      (performs_sleepSeq_first_failed s.cfg) hacks
    have hteardown := exists_exec_of_first_failed (i := .psTeardown) (bytes := []) hidle
      (performs_sleepSeq_first_failed s.cfg) hacks
    exact List.forall_mem_cons.2
      ⟨hclear, List.forall_mem_cons.2 ⟨hsleep, List.forall_mem_singleton.2 hteardown⟩⟩
  case display =>
    exact exists_exec_of_first_failed ⟨hidle, hbuf⟩ (performs_psDisplay_first_failed s.cfg bytes) hacks

end Sys2Proof.Proofs
end

