-- ==== Sys2Proof/Proofs/PanelChecks.lean ====
section
/-! The validation of the panel commands: the state they refuse, DISPLAY's checks in order, and CLEAR against DISPLAY
once both are past it (41_panel_ops.md R123, R127, R128). -/

namespace Sys2Proof.Machine

variable {s : State} {i : Instr} {err : Err}

/-- A validation error changes PS_STATUS and PS_PEND alone (41_panel_ops.md R132; 60_exceptions.md R211). -/
theorem psRaise_of_validationError (h : validationError err = true) (i : Instr) (s : State) :
    psRaise i err .validate s
      = { s with psDone := true, psErr := err, psStage := .validate, psPend := .none } := by
  unfold psRaise psStateAfterError
  rw [if_pos h]

/-! ### DISPLAY's checks (R123) -/

theorem displayCheck_of_not_idle (h : s.psSt ≠ .idle) : displayCheck s = some .invalidState := by
  unfold displayCheck
  rw [if_pos h]

theorem displayCheck_of_length (hidle : s.psSt = .idle) (h : bufLen s ≠ expectedLen s.cfg) :
    displayCheck s = some .bufferSizeMismatch := by
  unfold displayCheck
  rw [if_neg (not_not.2 hidle), if_pos h]

theorem displayCheck_of_bounds (hidle : s.psSt = .idle) (hlen : bufLen s = expectedLen s.cfg)
    (h : s.cfg.memSize < bufBase s + bufLen s) : displayCheck s = some .bufferSizeMismatch := by
  unfold displayCheck
  rw [if_neg (not_not.2 hidle), if_neg (not_not.2 hlen), if_pos h]

/-- The check that fails is the whole outcome of a DISPLAY. -/
theorem exec_psDisplay_of_check (h : displayCheck s = some err) :
    exec .psDisplay s = .next { s with
      psDone := true, psErr := err, psStage := .validate, psPend := .none } := by
  have hval : validationError err = true := by
    obtain rfl | rfl := displayCheck_some h <;> rfl
  obtain ⟨e, hc, hstep⟩ | ⟨a, hc, -⟩ | ⟨bytes, hc, -⟩ := displayStep_cases s
  · obtain rfl : err = e := by simpa [h] using hc
    exact congrArg _ (hstep.trans (psRaise_of_validationError hval ..))
  · simp [h] at hc
  · simp [h] at hc

/-! ### CLEAR and SLEEP outside IDLE (R127, R128) -/

theorem clearStep_of_not_idle (h : s.psSt ≠ .idle) :
    clearStep s = psRaise .psClear .invalidState .validate s := by
  obtain ⟨-, hstep⟩ | ⟨hidle, -⟩ := clearStep_cases s
  · exact hstep
  · exact absurd hidle h

theorem sleepStep_of_not_idle (h : s.psSt ≠ .idle) :
    sleepStep s = psRaise .psSleep .invalidState .validate s := by
  obtain ⟨-, hstep⟩ | ⟨hidle, -⟩ := sleepStep_cases s
  · exact hstep
  · exact absurd hidle h

/-! ### The end of a command -/

/-- A HAL error of any command but TEARDOWN ends in FAULTED (R132). -/
theorem psStateAfterError_of_ne_teardown (h : i ≠ .psTeardown) (err : Err) (st : HandleState) :
    psStateAfterError i err st = if validationError err then st else .faulted := by
  unfold psStateAfterError
  rw [if_neg h]

/-- Past its validation a command's name plays no part in how it ends, TEARDOWN apart. -/
theorem psFinish_eq_of_ne_teardown {j : Instr} (hi : i ≠ .psTeardown) (hj : j ≠ .psTeardown)
    (st : HandleState) (r : HalRun) : psFinish i st r = psFinish j st r := by
  cases r with
  | done s => rfl
  | raised e g s =>
    simp only [psFinish, psRaise, psStateAfterError_of_ne_teardown hi,
      psStateAfterError_of_ne_teardown hj]

end Sys2Proof.Machine

namespace Sys2Proof.Proofs

open Sys2Proof.Machine Sys2Proof.Safety

/-- Settles O36. Each of the three raises INVALID_STATE before its HAL part. -/
theorem wrongStateIsRefused : Obligations.WrongStateIsRefused := by
  unfold Obligations.WrongStateIsRefused
  intro s i hi hne
  simp only [List.mem_cons, List.not_mem_nil, or_false] at hi
  obtain rfl | rfl | rfl := hi
  · exact exec_psDisplay_of_check (displayCheck_of_not_idle hne)
  · exact congrArg _ ((clearStep_of_not_idle hne).trans (psRaise_of_validationError rfl ..))
  · exact congrArg _ ((sleepStep_of_not_idle hne).trans (psRaise_of_validationError rfl ..))

/-- Settles O37: one clause for each check, in its order. -/
theorem displayChecksInOrder : Obligations.DisplayChecksInOrder := by
  unfold Obligations.DisplayChecksInOrder
  intro s
  refine ⟨fun hne => ?state, fun hidle hlen => ?length, fun hidle hlen hend => ?bounds⟩
  case state => exact exec_psDisplay_of_check (displayCheck_of_not_idle hne)
  case length => exact exec_psDisplay_of_check (displayCheck_of_length hidle hlen)
  case bounds => exact exec_psDisplay_of_check (displayCheck_of_bounds hidle hlen hend)

/-- Settles O35. Past their validation both run the same transfer of EXPECTED_LEN white bytes, and neither's end
depends on which of the two it is. -/
theorem clearEqualsDisplayOfWhite : Obligations.ClearEqualsDisplayOfWhite := by
  unfold Obligations.ClearEqualsDisplayOfWhite
  intro s hidle hbuf
  have hclear : exec .psClear s
      = .next (psFinish .psClear .idle (transferRun (whiteBuffer s.cfg) s)) :=
    exec_of_reachesHal (i := .psClear) (bytes := []) hidle
  have hdisplay : exec .psDisplay s
      = .next (psFinish .psDisplay .idle (transferRun (whiteBuffer s.cfg) s)) :=
    exec_of_reachesHal (i := .psDisplay) ⟨hidle, hbuf⟩
  rw [hclear, hdisplay, psFinish_eq_of_ne_teardown (j := .psDisplay) (by decide) (by decide)]

end Sys2Proof.Proofs
end

