-- ==== Sys2Proof/Proofs/PanelSuccess.lean ====
section
/-! Panel commands all of whose answers are good: the whole next state (41_panel_ops.md R125 to R129). -/

namespace Sys2Proof.Machine

open Sys2Proof.Safety

variable {c : Params} {s t : State} {i : Instr} {es : List HalEvent} {bytes : List Byte}
  {acks : List Ack} {reads : List BusyAnswer} {xs : List (Stage × HalEvent)}

/-! ### The pins and the writes of the event lists -/

theorem lastPinWrite_pollEvents (c : Params) (k : Nat) (p : OutPin) :
    lastPinWrite p (pollEvents c k) = none :=
  lastPinWrite_of_noWrites (fun _ => isWriteEvent_of_mem_waitEvents_append) p

/-- The steps of INIT_SEQ and LUT_SEQ leave the reset pin alone (R106). -/
theorem lastPinWrite_rst_stepsEvents {ps : List PanelStep} {waits : List Nat}
    (h : waits.length = pollCount ps) : lastPinWrite .rst (stepsEvents c ps waits) = none := by
  induction ps, waits, h using waits_induction with
  | nil => rfl
  | cmd opc payload ps waits _ ih =>
    rw [stepsEvents, lastPinWrite_append, ih, lastPinWrite_rst_sendCommandEvents, Option.or_none]
  | delay ms ps waits _ ih =>
    rw [stepsEvents, lastPinWrite_cons, ih]
    rfl
  | waitBusy ps k waits _ ih =>
    rw [stepsEvents, lastPinWrite_append, ih, lastPinWrite_pollEvents, Option.or_none]

theorem lastPinWrite_rst_initializeEvents {waits : List Nat} {last : Nat}
    (h : waits.length = pollCount (c.initSeq ++ c.lutSeq)) :
    lastPinWrite .rst (initializeEvents c waits last) = some (~~~ c.rstActiveLevel, .ok) := by
  rw [initializeEvents, lastPinWrite_append, lastPinWrite_append, lastPinWrite_pollEvents,
    lastPinWrite_rst_stepsEvents h]
  rfl

theorem lastPinWrite_rst_transferEvents (c : Params) (bs : List Byte) (k : Nat) :
    lastPinWrite .rst (transferEvents c bs k) = none := by
  simp [transferEvents, lastPinWrite_append, lastPinWrite_pollEvents]

theorem lastPinWrite_dc_transferEvents (c : Params) (bs : List Byte) (k : Nat) :
    lastPinWrite .dc (transferEvents c bs k) = some (~~~ c.dcCmdLevel, .ok) := by
  simp [transferEvents, lastPinWrite_append, lastPinWrite_pollEvents]

/-! ### The reads of the event lists -/

theorem filterMap_busyAnswer_initializeEvents {waits : List Nat} {last : Nat}
    (h : waits.length = pollCount (c.initSeq ++ c.lutSeq)) :
    (initializeEvents c waits last).filterMap busyAnswer = busyAnswers c (waits ++ [last]) := by
  rw [initializeEvents, List.filterMap_append, filterMap_busyAnswer_reset_steps h,
    filterMap_busyAnswer_pollEvents]
  exact List.flatMap_append.symm

theorem filterMap_busyAnswer_transferEvents (c : Params) (bs : List Byte) (k : Nat) :
    (transferEvents c bs k).filterMap busyAnswer = busyAnswers c [k] := by
  simp [transferEvents]

/-! ### Commands that succeed -/

/-- A command whose HAL part follows a script to its end, on queues that give the script's answers. -/
theorem exec_of_script_done (hreach : ReachesHal s bytes i)
    (hscript : Script s.cfg (halPart bytes i) xs .done) (hxs : xs.map (·.2) = es)
    (hacks : s.acks = List.replicate (writeCount es) .ok ++ acks)
    (hreads : s.busyReads = es.filterMap busyAnswer ++ reads) :
    exec i s = .next { s with
      psSt := stateAfterSuccess i, psDone := true, psErr := .none, psStage := .none, psPend := .none,
      trace := s.trace ++ es, rstOut := pinAfter .rst es s.rstOut, dcOut := pinAfter .dc es s.dcOut,
      acks := acks, busyReads := reads } := by
  have hrun := hscript.performs
  have hgood := hscript.good_events
  rw [hxs] at hrun hgood
  have hanswers := answersAre_of_good hgood hacks hreads
  rw [exec_of_reachesHal hreach, hrun s rfl hanswers.hears,
    performAll_eq_of_answersAre hanswers (pinWrite_fail_not_mem hgood)]
  rfl

/-- DISPLAY and CLEAR on a panel that gets ready (R126, R127). -/
theorem exec_of_transfer_ready (hreach : ReachesHal s bytes i) {bs : List Byte} {wait : Nat}
    (hi : stateAfterSuccess i = .idle)
    (hpart : ∀ t, t.cfg = s.cfg → halPart bytes i t = transferRun bs t)
    (hwait : wait < s.cfg.busyMaxPolls)
    (hacks : s.acks = List.replicate (writeCount (transferEvents s.cfg bs wait)) .ok ++ acks)
    (hreads : s.busyReads = busyAnswers s.cfg [wait] ++ reads) :
    exec i s = .next { s with
      psSt := .idle, psDone := true, psErr := .none, psStage := .none, psPend := .none,
      trace := s.trace ++ transferEvents s.cfg bs wait, dcOut := ~~~ s.cfg.dcCmdLevel,
      acks := acks, busyReads := reads } := by
  have hscript := (script_transferRun bs
    (script_busyPoll_ready hwait .busyTimeout .busyPoll)).of_eq hpart
  rw [← filterMap_busyAnswer_transferEvents s.cfg bs] at hreads
  rw [exec_of_script_done hreach hscript (by simp [transferEvents]) hacks hreads, hi]
  simp [pinAfter, lastPinWrite_rst_transferEvents, lastPinWrite_dc_transferEvents]

/-- SLEEP and TEARDOWN from IDLE (R128, R129). -/
theorem exec_of_sleepSeq (hreach : ReachesHal s [] i) (hpart : halPart [] i = sleepSeq)
    (hacks : s.acks = List.replicate (writeCount (sleepEvents s.cfg)) .ok ++ acks) :
    exec i s = .next { s with
      psSt := stateAfterSuccess i, psDone := true, psErr := .none, psStage := .none, psPend := .none,
      trace := s.trace ++ sleepEvents s.cfg, dcOut := ~~~ s.cfg.dcCmdLevel, acks := acks } := by
  have hscript := script_sleepSeq s.cfg
  rw [← hpart] at hscript
  have hreads : s.busyReads = (sleepEvents s.cfg).filterMap busyAnswer ++ s.busyReads := by
    simp [sleepEvents]
  rw [exec_of_script_done hreach hscript (atStage_map_snd ..) hacks hreads]
  simp [pinAfter, sleepEvents]

/-! ### TEARDOWN (R129) -/

theorem teardownStep_of_not_idle (h : s.psSt ≠ .idle) :
    teardownStep s = psCompleteOk .uninitialized s := by
  obtain ⟨hidle, -⟩ | ⟨-, hstep⟩ := teardownStep_cases s
  · exact absurd hidle h
  · exact hstep

/-- TEARDOWN succeeds, or raises TRANSPORT_ERROR in sleep_seq. -/
theorem teardownStep_outcomes (s : State) :
    (∃ u, teardownStep s = psCompleteOk .uninitialized u) ∨
    (s.psSt = .idle ∧ ∃ u, teardownStep s = psRaise .psTeardown .transportError .sleep u) := by
  obtain ⟨hidle, hstep⟩ | ⟨-, hstep⟩ := teardownStep_cases s
  · have hraises := raisesIn_sleepSeq s
    obtain ⟨u, hrun, hfin⟩ | ⟨e, g, u, hrun, hfin⟩ :=
      psFinish_cases .psTeardown .uninitialized (sleepSeq s)
    · exact .inl ⟨u, hstep.trans hfin⟩
    · rw [hrun] at hraises
      obtain ⟨rfl, rfl⟩ : e = .transportError ∧ g = .sleep := by
        simpa [HalRun.RaisesIn] using hraises
      exact .inr ⟨hidle, u, hstep.trans hfin⟩
  · exact .inl ⟨s, hstep⟩

end Sys2Proof.Machine

namespace Sys2Proof.Proofs

open Sys2Proof.Machine Sys2Proof.Safety

/-- Settles O30. The events are INITIALIZE's script, its polls' counts split between INIT_SEQ and LUT_SEQ. -/
theorem initializeCompletes : Obligations.InitializeCompletes := by
  unfold Obligations.InitializeCompletes
  intro s waits last acks reads hlen hw hacks hreads
  rw [← filterMap_busyAnswer_initializeEvents hlen] at hreads
  have hrst := lastPinWrite_rst_initializeEvents (last := last) hlen
  obtain ⟨ws, vs, rfl, hws, hvs⟩ := exists_waits_append hlen
  have hscript := script_initializeRun ⟨hws, hvs, hw⟩
  rw [exec_of_script_done (i := .psInitialize) (bytes := []) trivial hscript
    (by simp [initializeEvents, stepsEvents_append _ hws]) hacks hreads]
  simp only [pinAfter, hrst]
  rfl

/-- Settles O31: the transfer of the buffer that `BufferIs` gives. -/
theorem displayCompletes : Obligations.DisplayCompletes := by
  unfold Obligations.DisplayCompletes
  intro s bytes wait acks reads hidle hbuf
  exact exec_of_transfer_ready (i := .psDisplay) ⟨hidle, hbuf⟩ rfl fun _ _ => rfl

/-- Settles O32: the transfer of the white buffer, which reads nothing of MEM. -/
theorem clearCompletes : Obligations.ClearCompletes := by
  unfold Obligations.ClearCompletes
  intro s wait acks reads hidle
  refine exec_of_transfer_ready (i := .psClear) (bytes := []) hidle rfl fun t hcfg => ?_
  rw [← hcfg]
  rfl

/-- Settles O33: sleep_seq is all of SLEEP's HAL part. -/
theorem sleepCompletes : Obligations.SleepCompletes := by
  unfold Obligations.SleepCompletes
  intro s acks hidle
  exact exec_of_sleepSeq (i := .psSleep) hidle rfl

/-- Settles O34. The last clause is `teardownStep_outcomes`: success, or the one error sleep_seq can raise. -/
theorem teardownCompletes : Obligations.TeardownCompletes := by
  unfold Obligations.TeardownCompletes
  refine ⟨rfl, ?fromIdle, ?elsewhere, ?always⟩
  case fromIdle =>
    intro s acks hidle
    exact exec_of_sleepSeq (i := .psTeardown) hidle rfl
  case elsewhere => exact fun s hne => congrArg _ (teardownStep_of_not_idle hne)
  case always =>
    rintro s t hexec
    obtain rfl : teardownStep s = t := by simpa [exec, execTeardown] using hexec
    obtain ⟨u, h⟩ | ⟨hidle, u, h⟩ := teardownStep_outcomes s <;> rw [h]
    · exact ⟨rfl, rfl, rfl, .inl ⟨rfl, rfl⟩⟩
    · exact ⟨rfl, rfl, rfl, .inr ⟨hidle, rfl, rfl⟩⟩

end Sys2Proof.Proofs
end

