-- ==== Sys2Proof/Proofs/PanelOutcomes.lean ====
section
/-! Every outcome of a panel command, whatever ENV answers: what it leaves unchanged, and PS_ST and TRACE after it
(41_panel_ops.md R124, R130, R132; 60_exceptions.md R226). -/

namespace Sys2Proof.Machine

open Sys2Proof.Safety

variable {s t : State} {i : Instr} {bytes : List Byte} {err : Err}

/-! ### The outcomes -/

/-- The outcomes of a panel command: its HAL part on the buffer it read, a validation error, an unwritten byte, or
TEARDOWN's success without HAL calls (R123 to R129). -/
inductive PanelOutcome (i : Instr) (s : State) : State → Prop
  | hal {bytes : List Byte} (reaches : ReachesHal s bytes i) :
    PanelOutcome i s (psFinish i (stateAfterSuccess i) (halPart bytes i s))
  | refused {err : Err} (validation : validationError err = true) (listed : err ≠ .illegalCommand) :
    PanelOutcome i s (psRaise i err .validate s)
  | unwritten (a : Nat) : PanelOutcome i s (psUnwritten a s)
  | silent (teardown : i = .psTeardown) : PanelOutcome i s (psCompleteOk .uninitialized s)

/-- DISPLAY past its checks has the buffer it read (R123, R124). -/
theorem bufferIs_of_readBytes (hc : displayCheck s = none)
    (hr : readBytes s.mem (bufBase s) (bufLen s) = .ok bytes) : s.psSt = .idle ∧ BufferIs s bytes := by
  obtain ⟨hidle, hlen, hend⟩ := (displayCheck_none_iff s).1 hc
  obtain ⟨hbytes, hread⟩ := (readBytes_ok_iff ..).1 hr
  exact ⟨hidle, hlen, hend, hbytes, hread⟩

theorem panelOutcome_of_exec (hi : i ∈ panelCommands) (h : exec i s = .next t) :
    PanelOutcome i s t := by
  cases i with
  | icConvert => simp [panelCommands] at hi
  | psInitialize => cases h; exact .hal (bytes := []) trivial
  | psDisplay =>
    cases h
    obtain ⟨err, hc, hstep⟩ | ⟨a, -, -, hstep⟩ | ⟨bytes, hc, hr, hstep⟩ := displayStep_cases s <;>
      rw [hstep]
    · obtain rfl | rfl := displayCheck_some hc <;> exact .refused rfl (by decide)
    · exact .unwritten a
    · exact .hal (i := .psDisplay) (bufferIs_of_readBytes hc hr)
  | psClear =>
    cases h
    obtain ⟨-, hstep⟩ | ⟨hidle, hstep⟩ := clearStep_cases s <;> rw [hstep]
    · exact .refused rfl (by decide)
    · exact .hal (i := .psClear) (bytes := []) hidle
  | psSleep =>
    cases h
    obtain ⟨-, hstep⟩ | ⟨hidle, hstep⟩ := sleepStep_cases s <;> rw [hstep]
    · exact .refused rfl (by decide)
    · exact .hal (i := .psSleep) (bytes := []) hidle
  | psTeardown =>
    cases h
    obtain ⟨hidle, hstep⟩ | ⟨-, hstep⟩ := teardownStep_cases s <;> rw [hstep]
    · exact .hal (i := .psTeardown) (bytes := []) hidle
    · exact .silent rfl

/-- A reserved word has one outcome (30_encoding.md R83). -/
theorem eq_psRaiseIllegal_of_completePs {x : Illegal} (hd : decode .ps s.psCmdl = .error x)
    (h : completePs s = .next t) : t = psRaiseIllegal s := by
  obtain ⟨-, -, hc⟩ | ⟨i, hi, -⟩ := completePs_cases s
  · exact (Host.Outcome.next.inj (hc.symm.trans h)).symm
  · simp [hd] at hi

/-! ### What a panel command leaves unchanged -/

theorem panelFrame_psCompleteOk (h : HalFrame s t) (st : HandleState) :
    PanelFrame s (psCompleteOk st t) := by
  unfold HalFrame at h
  unfold PanelFrame
  rw [h]
  rfl

theorem panelFrame_psFinish {r : HalRun} (h : HalFrame s r.state) (i : Instr) (st : HandleState) :
    PanelFrame s (psFinish i st r) := by
  cases r with
  | done u => exact panelFrame_psCompleteOk h st
  | raised e g u => exact panelFrame_psRaise h i e g

theorem mem_of_panelFrame (h : PanelFrame s t) : t.mem = s.mem := by
  unfold PanelFrame at h
  rw [h]

theorem halStep_halPart (bytes : List Byte) (i : Instr) (s : State) :
    HalStep s (halPart bytes i s).state := by
  cases i with
  | icConvert => exact HalStep.refl s
  | psInitialize => exact halStep_initializeRun s
  | psDisplay => exact halStep_transferRun ..
  | psClear => exact halStep_transferRun ..
  | psSleep => exact halStep_sleepSeq s
  | psTeardown => exact halStep_sleepSeq s

theorem PanelOutcome.panelFrame (h : PanelOutcome i s t) (hf : t.faults = s.faults) :
    PanelFrame s t := by
  cases h with
  | hal => exact panelFrame_psFinish (halStep_halPart ..).1 ..
  | refused => exact panelFrame_psRaise (HalStep.refl s).1 ..
  | unwritten a => simp at hf
  | silent => exact panelFrame_psCompleteOk (HalStep.refl s).1 _

/-! ### PS_ST and TRACE after each outcome -/

/-- The errors of the HAL parts, with their stages (40_panel_primitives.md R103 to R112). -/
def halPairs : List (Err × Stage) := legalPsPairs.filter fun p => halError p.1

theorem raisesIn_halPart (bytes : List Byte) (i : Instr) (s : State) :
    (halPart bytes i s).RaisesIn halPairs := by
  have htransfer (bs : List Byte) : (transferRun bs s).RaisesIn halPairs :=
    raisesIn_halThen (raisesIn_sendCommand (by decide) ..) fun _ =>
      raisesIn_halThen (raisesIn_sendCommand (by decide) ..) fun _ =>
        raisesIn_busyPoll (by decide) (by decide) _
  cases i with
  | icConvert => exact raisesIn_done ..
  | psInitialize =>
    exact raisesIn_halThen (raisesIn_resetPulse (by decide) s) fun _ =>
      raisesIn_halThen (raisesIn_execSteps (by decide) (by decide) ..) fun _ =>
        raisesIn_halThen (raisesIn_execSteps (by decide) (by decide) ..) fun _ =>
          raisesIn_busyPoll (by decide) (by decide) _
  | psDisplay => exact htransfer bytes
  | psClear => exact htransfer _
  | psSleep => exact raisesIn_sendCommand (by decide) ..
  | psTeardown => exact raisesIn_sendCommand (by decide) ..

/-- How the HAL part of a command ends: in success, or in a HAL error. -/
theorem psFinish_halPart_cases (bytes : List Byte) (i : Instr) (s : State) :
    (∃ u, psFinish i (stateAfterSuccess i) (halPart bytes i s) = psCompleteOk (stateAfterSuccess i) u) ∨
    (∃ err g u, halError err = true ∧
      psFinish i (stateAfterSuccess i) (halPart bytes i s) = psRaise i err g u) := by
  have hraises := raisesIn_halPart bytes i s
  obtain ⟨u, -, hfin⟩ | ⟨err, g, u, hrun, hfin⟩ :=
    psFinish_cases i (stateAfterSuccess i) (halPart bytes i s)
  · exact .inl ⟨u, hfin⟩
  · rw [hrun] at hraises
    exact .inr ⟨err, g, u, (List.mem_filter.1 hraises).2, hfin⟩

theorem PanelOutcome.completes (h : PanelOutcome i s t) (hf : t.faults = s.faults) :
    t.psDone = true ∧ t.psPend = .none := by
  cases h with
  | @hal bytes =>
    obtain ⟨u, hfin⟩ | ⟨err, g, u, -, hfin⟩ := psFinish_halPart_cases bytes i s <;> rw [hfin] <;>
      exact ⟨rfl, rfl⟩
  | refused => exact ⟨rfl, rfl⟩
  | unwritten a => simp at hf
  | silent => exact ⟨rfl, rfl⟩

theorem PanelOutcome.trace_prefix (h : PanelOutcome i s t) : s.trace <+: t.trace := by
  cases h with
  | hal =>
    rw [psFinish_trace]
    exact (halStep_halPart ..).2
  | refused => exact List.prefix_refl _
  | unwritten a => exact List.prefix_refl _
  | silent => exact List.prefix_refl _

/-- PS_STATUS.ERR decides where PS_ST and TRACE end (R130, R132): success, a validation error other than
ILLEGAL_COMMAND, or a HAL error. -/
theorem PanelOutcome.error_cases (h : PanelOutcome i s t) (hf : t.faults = s.faults) :
    (t.psErr = .none ∧ t.psSt = stateAfterSuccess i) ∨
    (validationError t.psErr = true ∧ t.psErr ≠ .illegalCommand ∧ t.psSt = s.psSt ∧
      t.trace = s.trace) ∨
    (halError t.psErr = true ∧ t.psSt = if i = .psTeardown then .uninitialized else .faulted) := by
  cases h with
  | @hal bytes =>
    obtain ⟨u, hfin⟩ | ⟨err, g, u, herr, hfin⟩ := psFinish_halPart_cases bytes i s <;> rw [hfin]
    · exact .inl ⟨rfl, rfl⟩
    · exact .inr (.inr ⟨herr, psStateAfterError_of_halError herr i u.psSt⟩)
  | refused hval hlisted =>
    rw [psRaise_of_validationError hval]
    exact .inr (.inl ⟨hval, hlisted, rfl, rfl⟩)
  | unwritten a => simp at hf
  | silent hi => exact .inl ⟨rfl, by rw [hi]; rfl⟩

/-! ### The errors as lists (R132) -/

theorem mem_halErrors_iff (err : Err) :
    err ∈ [Err.transportError, .initTimeout, .busyTimeout] ↔ halError err = true := by
  cases err <;> decide

theorem mem_validationErrors_iff (err : Err) :
    err ∈ [Err.illegalCommand, .invalidState, .bufferSizeMismatch] ↔ validationError err = true := by
  cases err <;> decide

theorem halError_of_validationError (h : validationError err = true) : halError err = false := by
  revert h
  cases err <;> decide

/-- The errors a panel command reports: ILLEGAL_COMMAND is a reserved word's alone. -/
theorem mem_panelErrors_of_cases
    (h : err = .none ∨ (validationError err = true ∧ err ≠ .illegalCommand) ∨ halError err = true) :
    err ∈ [Err.none, .invalidState, .bufferSizeMismatch, .transportError, .initTimeout,
      .busyTimeout] := by
  revert h
  cases err <;> decide

theorem stateAfterSuccess_eq (hi : i ∈ panelCommands) : stateAfterSuccess i
    = if i = .psSleep then .asleep else if i = .psTeardown then .uninitialized else .idle := by
  cases i with
  | icConvert => simp [panelCommands] at hi
  | _ => rfl

end Sys2Proof.Machine

namespace Sys2Proof.Proofs

open Sys2Proof.Machine Sys2Proof.Safety

/-- Settles O39. MEM is a field of the frame. -/
theorem panelCommandFrame : Obligations.PanelCommandFrame := by
  unfold Obligations.PanelCommandFrame
  intro s t i hi hexec hfaults
  have hframe : PanelFrame s t := (panelOutcome_of_exec hi hexec).panelFrame hfaults
  exact ⟨hframe, fun a => by rw [mem_of_panelFrame hframe]⟩

/-- Settles O40. The three cases of `PanelOutcome.error_cases` are the clauses on PS_ST and TRACE, and exclude each
other. -/
theorem panelStateAfterCommand : Obligations.PanelStateAfterCommand := by
  unfold Obligations.PanelStateAfterCommand
  refine ⟨?commands, ?reserved⟩
  case commands =>
    intro s t i hi hexec hfaults
    have hout : PanelOutcome i s t := panelOutcome_of_exec hi hexec
    obtain ⟨hdone, hpend⟩ := hout.completes hfaults
    obtain ⟨es, hes⟩ := hout.trace_prefix
    refine ⟨hdone, hpend, ⟨es, hes.symm⟩, ?_⟩
    rw [mem_validationErrors_iff, mem_halErrors_iff, ← stateAfterSuccess_eq hi]
    obtain ⟨herr, hst⟩ | ⟨hval, hlisted, hst, htrace⟩ | ⟨hhal, hst⟩ := hout.error_cases hfaults
    · refine ⟨fun _ => hst, ?_, ?_, mem_panelErrors_of_cases (.inl herr)⟩ <;>
        simp [herr, validationError, halError]
    · have hne : t.psErr ≠ .none := by
        intro herr
        simp [herr, validationError] at hval
      exact ⟨fun herr => absurd herr hne, fun _ => ⟨hst, htrace⟩,
        by simp [halError_of_validationError hval],
        mem_panelErrors_of_cases (.inr (.inl ⟨hval, hlisted⟩))⟩
    · have hne : t.psErr ≠ .none := by
        intro herr
        simp [herr, halError] at hhal
      exact ⟨fun herr => absurd herr hne, by simp [validationError_of_halError hhal],
        fun _ => hst, mem_panelErrors_of_cases (.inr (.inr hhal))⟩
  case reserved =>
    intro s t x hd hexec
    obtain rfl := eq_psRaiseIllegal_of_completePs hd hexec
    exact ⟨rfl, rfl, rfl⟩

end Sys2Proof.Proofs
end

