-- ==== Sys2Proof/Proofs/PanelEventBounds.lean ====
section
/-! How many events a panel command emits, whatever ENV answers: R131's table, part by part (40_panel_primitives.md R103
to R112; 41_panel_ops.md R131). -/

namespace Sys2Proof.Machine

open Sys2Proof.Safety

variable {c : Params} {s t : State} {i : Instr} {bytes : List Byte} {g : Stage} {m n : Nat}
  {P Q : State → HalRun}

/-! ### How much a part of a command emits -/

/-- With parameters `c`, which it keeps, the part `P` emits at most `n` events, whatever ENV answers. -/
def EmitsAtMost (c : Params) (n : Nat) (P : State → HalRun) : Prop :=
  ∀ s, s.cfg = c → (P s).state.cfg = c ∧ (P s).state.trace.length ≤ s.trace.length + n

theorem EmitsAtMost.mono (h : EmitsAtMost c m P) (hmn : m ≤ n) : EmitsAtMost c n P := by
  intro s hc
  obtain ⟨hcfg, hlen⟩ := h s hc
  exact ⟨hcfg, by omega⟩

/-- A part may read its parameters from the state it starts in. -/
theorem EmitsAtMost.of_eq (h : EmitsAtMost c n P) (hPQ : ∀ s, s.cfg = c → Q s = P s) :
    EmitsAtMost c n Q := by
  intro s hc
  rw [hPQ s hc]
  exact h s hc

theorem EmitsAtMost.seq (hP : EmitsAtMost c m P) (hQ : EmitsAtMost c n Q) :
    EmitsAtMost c (m + n) (fun s => halThen (P s) Q) := by
  intro s hc
  obtain ⟨hcfg, hlen⟩ := hP s hc
  obtain ⟨t, hrun, h⟩ | ⟨e, g, t, hrun, h⟩ := halThen_cases (P s) Q <;>
    (rw [hrun] at hcfg hlen; simp only [h])
  · obtain ⟨hcfg', hlen'⟩ := hQ t hcfg
    rw [HalRun.state_done] at hlen
    exact ⟨hcfg', by omega⟩
  · exact ⟨hcfg, by rw [HalRun.state_raised] at hlen ⊢; omega⟩

theorem emitsAtMost_done (c : Params) : EmitsAtMost c 0 .done := fun _ hc => ⟨hc, Nat.le_refl _⟩

theorem emitsAtMost_raised (c : Params) (err : Err) (g : Stage) :
    EmitsAtMost c 0 (.raised err g) := fun _ hc => ⟨hc, Nat.le_refl _⟩

/-! ### The HAL calls and the primitives -/

theorem emitsAtMost_halDelay (c : Params) (ms : Nat) : EmitsAtMost c 1 (halDelay ms) :=
  fun _ hc => ⟨hc, by simp [halDelay]⟩

theorem emitsAtMost_spiWrite (c : Params) (g : Stage) (b : Byte) :
    EmitsAtMost c 1 (spiWrite g b) := by
  intro s hc
  obtain ⟨-, h⟩ | ⟨-, h⟩ := spiWrite_cases g b s <;> rw [h] <;> simp [hc]

theorem emitsAtMost_pinWrite (c : Params) (g : Stage) (p : OutPin) (l : Level) :
    EmitsAtMost c 1 (pinWrite g p l) := by
  intro s hc
  obtain ⟨-, h⟩ | ⟨-, h⟩ := pinWrite_cases g p l s <;> rw [h] <;> simp [hc]

theorem emitsAtMost_sendBytes (c : Params) (g : Stage) (bs : List Byte) :
    EmitsAtMost c bs.length (sendBytes g bs) := by
  induction bs with
  | nil => exact emitsAtMost_done c
  | cons b bs ih =>
    exact ((emitsAtMost_spiWrite c g b).seq ih).mono (by rw [List.length_cons]; omega)

/-- send_command: three calls and the payload (R103). -/
theorem emitsAtMost_sendCommand (c : Params) (g : Stage) (opc : Byte) (bs : List Byte) :
    EmitsAtMost c (3 + bs.length) (sendCommand g opc bs) := by
  have hcalls := (emitsAtMost_pinWrite c g .dc c.dcCmdLevel).seq
    ((emitsAtMost_spiWrite c g opc).seq
      ((emitsAtMost_pinWrite c g .dc (~~~ c.dcCmdLevel)).seq (emitsAtMost_sendBytes c g bs)))
  refine (hcalls.mono (by omega)).of_eq ?_
  rintro s rfl
  rfl

/-- reset: two writes and a delay (R104). -/
theorem emitsAtMost_resetPulse (c : Params) : EmitsAtMost c 3 resetPulse := by
  have hcalls := (emitsAtMost_pinWrite c .reset .rst c.rstActiveLevel).seq
    ((emitsAtMost_halDelay c c.resetPulseMs).seq
      (emitsAtMost_pinWrite c .reset .rst (~~~ c.rstActiveLevel)))
  refine hcalls.of_eq ?_
  rintro s rfl
  rfl

theorem emitsAtMost_pollRead (g : Stage) (h : EmitsAtMost c n Q) :
    EmitsAtMost c (1 + n) (pollRead g Q) := by
  intro s hc
  obtain ⟨-, hrun⟩ | ⟨l, -, -, hrun⟩ | ⟨l, -, -, hrun⟩ := pollRead_cases g Q s <;> rw [hrun]
  · exact ⟨by simp [hc], by simp⟩
  · exact ⟨by simp [hc], by simp⟩
  · obtain ⟨hcfg, hlen⟩ := h (emit (.pinRead (.level l)) (takeBusy s)) (by simp [hc])
    have htrace : (emit (.pinRead (.level l)) (takeBusy s)).trace.length = s.trace.length + 1 := by
      simp
    exact ⟨hcfg, by omega⟩

/-- A read, and for each further one a delay before it (R105). -/
theorem emitsAtMost_pollLoop (c : Params) (timeout : Err) (g : Stage) (more : Nat) :
    EmitsAtMost c (2 * more + 1) (pollLoop timeout g more) := by
  induction more with
  | zero => exact emitsAtMost_pollRead g (emitsAtMost_raised c timeout g)
  | succ more ih =>
    have hafter : EmitsAtMost c (1 + (2 * more + 1)) (afterNotReady timeout g more) := by
      refine ((emitsAtMost_halDelay c c.busyPollMs).seq ih).of_eq ?_
      rintro s rfl
      rfl
    rw [pollLoop_succ]
    exact (emitsAtMost_pollRead g hafter).mono (by omega)

theorem emitsAtMost_busyPoll (hmax : 1 ≤ c.busyMaxPolls) (timeout : Err) (g : Stage) :
    EmitsAtMost c (2 * c.busyMaxPolls - 1) (busyPoll timeout g) := by
  refine ((emitsAtMost_pollLoop c timeout g (c.busyMaxPolls - 1)).mono (by omega)).of_eq ?_
  rintro s rfl
  rfl

theorem emitsAtMost_execStep (hmax : 1 ≤ c.busyMaxPolls) (timeout : Err) (g : Stage)
    (p : PanelStep) : EmitsAtMost c (stepBound c p) (execStep timeout g p) := by
  cases p with
  | cmd opc payload => exact emitsAtMost_sendCommand c g opc payload
  | delay ms => exact emitsAtMost_halDelay c ms
  | waitBusy => exact emitsAtMost_busyPoll hmax timeout g

theorem emitsAtMost_execSteps (hmax : 1 ≤ c.busyMaxPolls) (timeout : Err) (g : Stage)
    (ps : List PanelStep) :
    EmitsAtMost c (ps.map (stepBound c)).sum (execSteps timeout g ps) := by
  induction ps with
  | nil => exact emitsAtMost_done c
  | cons p ps ih =>
    rw [List.map_cons, List.sum_cons]
    exact (emitsAtMost_execStep hmax timeout g p).seq ih

/-! ### The HAL parts of the panel commands -/

theorem emitsAtMost_sleepSeq (c : Params) :
    EmitsAtMost c (3 + c.sleepPayload.length) sleepSeq := by
  refine (emitsAtMost_sendCommand c .sleep c.opcSleep c.sleepPayload).of_eq ?_
  rintro s rfl
  rfl

theorem emitsAtMost_transferRun (hmax : 1 ≤ c.busyMaxPolls) (bs : List Byte) :
    EmitsAtMost c ((3 + bs.length) + 3 + (2 * c.busyMaxPolls - 1)) (transferRun bs) := by
  have hcalls := (emitsAtMost_sendCommand c .dataXfer c.opcData bs).seq
    ((emitsAtMost_sendCommand c .refresh c.opcRefresh []).seq
      (emitsAtMost_busyPoll hmax .busyTimeout .busyPoll) |>.of_eq (Q := refreshPanel) ?refresh)
  case refresh =>
    rintro s rfl
    rfl
  refine (hcalls.mono (by rw [List.length_nil]; omega)).of_eq ?_
  rintro s rfl
  rfl

theorem emitsAtMost_initializeRun (hmax : 1 ≤ c.busyMaxPolls) :
    EmitsAtMost c (eventBound c .psInitialize) initializeRun := by
  have hinit : EmitsAtMost c (c.initSeq.map (stepBound c)).sum initPanel := by
    refine (emitsAtMost_execSteps hmax .initTimeout .init c.initSeq).of_eq ?_
    rintro s rfl
    rfl
  have hlut : EmitsAtMost c (c.lutSeq.map (stepBound c)).sum lutLoad := by
    refine (emitsAtMost_execSteps hmax .initTimeout .lutLoad c.lutSeq).of_eq ?_
    rintro s rfl
    rfl
  have hready : EmitsAtMost c (2 * c.busyMaxPolls - 1) readyWait :=
    emitsAtMost_busyPoll hmax .initTimeout .busyPoll
  refine ((emitsAtMost_resetPulse c).seq (hinit.seq (hlut.seq hready))).mono ?_
  rw [eventBound, List.map_append, List.sum_append]
  omega

/-- R131's table, `bytes` being DISPLAY's buffer. -/
theorem emitsAtMost_halPart (hmax : 1 ≤ c.busyMaxPolls) (i : Instr)
    (hbytes : i = .psDisplay → bytes.length = expectedLen c) :
    EmitsAtMost c (eventBound c i) (halPart bytes i) := by
  cases i with
  | icConvert => exact emitsAtMost_done c
  | psInitialize => exact emitsAtMost_initializeRun hmax
  | psDisplay =>
    rw [eventBound, ← hbytes rfl]
    exact emitsAtMost_transferRun hmax bytes
  | psClear =>
    have hlen : (whiteBuffer c).length = expectedLen c := List.length_replicate
    rw [eventBound, ← hlen]
    refine (emitsAtMost_transferRun hmax (whiteBuffer c)).of_eq ?_
    rintro s rfl
    rfl
  | psSleep => exact emitsAtMost_sleepSeq c
  | psTeardown => exact emitsAtMost_sleepSeq c

/-- BUSY_MAX_POLLS of well-formed parameters (00_scope.md R7, R8). -/
theorem one_le_busyMaxPolls_of_wf (h : c.wf = true) : 1 ≤ c.busyMaxPolls := by
  simp only [Params.wf, inRange, Bool.and_eq_true, decide_eq_true_eq] at h
  omega

theorem length_of_reachesHal_psDisplay (h : ReachesHal s bytes .psDisplay) :
    bytes.length = expectedLen s.cfg := by
  obtain ⟨-, hbuf⟩ := h
  exact length_of_bufferIs hbuf

theorem PanelOutcome.trace_length_le (h : PanelOutcome i s t) (hwf : s.cfg.wf = true) :
    t.trace.length ≤ s.trace.length + eventBound s.cfg i := by
  cases h with
  | hal hreach =>
    have hbound := emitsAtMost_halPart (one_le_busyMaxPolls_of_wf hwf) i
      fun hi => length_of_reachesHal_psDisplay (hi ▸ hreach)
    rw [psFinish_trace]
    exact (hbound s rfl).2
  | refused => exact Nat.le_add_right ..
  | unwritten a => exact Nat.le_add_right ..
  | silent => exact Nat.le_add_right ..

end Sys2Proof.Machine

namespace Sys2Proof.Proofs

open Sys2Proof.Machine Sys2Proof.Safety

/-- Settles O41: `PanelOutcome.trace_length_le`, and a reserved word's one outcome. -/
theorem panelEventsAreBounded : Obligations.PanelEventsAreBounded := by
  unfold Obligations.PanelEventsAreBounded
  refine ⟨?commands, ?reserved⟩
  case commands =>
    exact fun s t i hwf hi hexec => (panelOutcome_of_exec hi hexec).trace_length_le hwf
  case reserved =>
    intro s t x hd hexec
    rw [eq_psRaiseIllegal_of_completePs hd hexec, psRaiseIllegal_trace]

end Sys2Proof.Proofs
end

