-- ==== Sys2Proof/Proofs/Issue.lean ====
section
/-! The host's writes to the command registers: an issue latches the word, and a write to a pending engine is a hazard
(42_convert.md R150; 41_panel_ops.md R120; 70_reset_and_hazards.md R240, R242). -/

namespace Sys2Proof.Machine

open Sys2Proof.Safety

variable {s : State} {r : Reg} {e : Engine} {w : Word} {i : Instr}

/-! ### The hazards between the engines, on numbers (R242) -/

theorem decodesTo_iff_encode : decodesTo e w i = true ↔ encode i = (e, w) := by
  rw [← decode_ok_iff_encode]
  unfold decodesTo
  cases decode e w <;> simp

theorem decodesTo_iff_toNat (i : Instr) (w : Word) :
    decodesTo (encode i).1 w i = true ↔ w.toNat = (encode i).2.toNat := by
  rw [decodesTo_iff_encode, ← BitVec.toNat_eq, Prod.ext_iff, eq_comm (a := w)]
  exact and_iff_right rfl

theorem decodesTo_icConvert_iff (w : Word) : decodesTo .ic w .icConvert = true ↔ w.toNat = 1 :=
  decodesTo_iff_toNat .icConvert w

theorem decodesTo_psDisplay_iff (w : Word) : decodesTo .ps w .psDisplay = true ↔ w.toNat = 2 :=
  decodesTo_iff_toNat .psDisplay w

theorem convertPending_iff (s : State) :
    convertPending s = true ↔ s.icPend = .pending ∧ s.icCmdl.toNat = 1 := by
  rw [convertPending, Bool.and_eq_true, decide_eq_true_iff, decodesTo_icConvert_iff]

theorem displayPending_iff (s : State) :
    displayPending s = true ↔ s.psPend = .pending ∧ s.psCmdl.toNat = 2 := by
  rw [displayPending, Bool.and_eq_true, decide_eq_true_iff, decodesTo_psDisplay_iff]

theorem crossEngineHazard_icCmd_iff (w : Word) (s : State) :
    crossEngineHazard .icCmd w s = true ↔
      w.toNat = 1 ∧ s.psPend = .pending ∧ s.psCmdl.toNat = 2 ∧ TargetMeetsBuffer s := by
  rw [crossEngineHazard, Bool.and_eq_true, Bool.and_eq_true, decodesTo_icConvert_iff,
    displayPending_iff, regionsOverlap_dst_buf_iff, and_assoc, and_assoc]

theorem crossEngineHazard_psCmd_iff (w : Word) (s : State) :
    crossEngineHazard .psCmd w s = true ↔
      w.toNat = 2 ∧ s.icPend = .pending ∧ s.icCmdl.toNat = 1 ∧ TargetMeetsBuffer s := by
  rw [crossEngineHazard, Bool.and_eq_true, Bool.and_eq_true, decodesTo_psDisplay_iff,
    convertPending_iff, regionsOverlap_buf_dst_iff, and_assoc, and_assoc]

/-! ### The outcomes of a write to a mapped register -/

/-- A write to a register of a pending engine, read-only registers apart (R240). -/
theorem hostStep_regWrite_pending (hr : regAccess r ≠ .ro)
    (hp : enginePending (regEngine r) s = true) (w : Word) :
    hostStep (.regWrite (regOffset r) w) s =
      recordFault (.hazard .regWritePending (regOffset r).toNat) s := by
  have hhazard : regWriteHazard r s = true := by simp [regWriteHazard, hr, hp]
  change regWriteStep (regOffset r) w s = _
  rw [regWriteStep, regAt_regOffset]
  exact if_pos hhazard

/-- A write that is no hazard takes place. -/
theorem hostStep_regWrite_of_no_hazard (hp : enginePending (regEngine r) s = false)
    (hcross : crossEngineHazard r w s = false) :
    hostStep (.regWrite (regOffset r) w) s = regStore r w s := by
  change regWriteStep (regOffset r) w s = _
  rw [regWriteStep, regAt_regOffset]
  simp only [regWriteHazard_of_not_pending hp, hcross, Bool.false_eq_true, if_false]

theorem enginePending_ic_of_pending (h : s.icPend = .pending) : enginePending .ic s = true :=
  decide_eq_true h

theorem enginePending_ps_of_pending (h : s.psPend = .pending) : enginePending .ps s = true :=
  decide_eq_true h

end Sys2Proof.Machine

namespace Sys2Proof.Proofs

open Sys2Proof.Machine Sys2Proof.Safety

/-- Settles O50. With nothing pending and no hazard between the engines the write is `icIssue` or `psIssue`; while
the engine is pending it is REG_WRITE_PENDING. -/
theorem issueLatchesWord : Obligations.IssueLatchesWord := by
  unfold Obligations.IssueLatchesWord
  intro s w
  refine ⟨fun hidle hcross => ?icIssue, fun hidle hcross => ?psIssue, fun hp => ?icHazard,
    fun hp => ?psHazard⟩
  case icIssue =>
    rw [← crossEngineHazard_icCmd_iff, Bool.not_eq_true] at hcross
    exact hostStep_regWrite_of_no_hazard (r := .icCmd) (enginePending_ic_of_none hidle) hcross
  case psIssue =>
    rw [← crossEngineHazard_psCmd_iff, Bool.not_eq_true] at hcross
    exact hostStep_regWrite_of_no_hazard (r := .psCmd) (enginePending_ps_of_none hidle) hcross
  case icHazard =>
    exact hostStep_regWrite_pending (r := .icCmd) (by decide) (enginePending_ic_of_pending hp) w
  case psHazard =>
    exact hostStep_regWrite_pending (r := .psCmd) (by decide) (enginePending_ps_of_pending hp) w

end Sys2Proof.Proofs
end

