-- ==== Sys2Proof/Proofs/ConvertOutcomes.lean ====
section
/-! The outcomes of a CONVERT: the first check that fails, the store of a ready one, and what each leaves unchanged
(42_convert.md R151, R152, R154, R157). -/

namespace Sys2Proof.Machine

open Sys2Proof.Safety

variable {s : State} {m : ColorMode} {src : List Byte} {e : Err} {cause : BitVec 4}

/-! ### The first check that fails (R152) -/

/-- The error and cause of the first entry of a list of checks that fails, or `none`. -/
def firstFailure : List (Bool × Err × BitVec 4) → Option (Err × BitVec 4)
  | [] => none
  | (failed, p) :: rest => if failed then some p else firstFailure rest

@[simp] theorem firstFailure_nil : firstFailure [] = none := rfl

@[simp] theorem firstFailure_cons (failed : Bool) (p : Err × BitVec 4)
    (rest : List (Bool × Err × BitVec 4)) :
    firstFailure ((failed, p) :: rest) = if failed then some p else firstFailure rest := rfl

theorem firstFailure_of_getElem? {checks : List (Bool × Err × BitVec 4)} {k : Nat}
    {p : Err × BitVec 4} (hk : checks[k]? = some (true, p))
    (hbefore : ∀ c ∈ checks.take k, c.1 = false) : firstFailure checks = some p := by
  induction checks generalizing k with
  | nil => simp at hk
  | cons c rest ih =>
    cases k with
    | zero =>
      obtain rfl : c = (true, p) := by simpa using hk
      rfl
    | succ k =>
      obtain ⟨hc, hrest⟩ : c.1 = false ∧ ∀ c ∈ rest.take k, c.1 = false := by
        simpa using hbefore
      obtain ⟨failed, q⟩ := c
      obtain rfl : failed = false := hc
      exact ih (by simpa using hk) hrest

/-- Two regions that are not empty overlap when each begins before the other one ends. -/
theorem regionsOverlap_of_nonempty {lo hi lo' hi' : Nat} (h : lo < hi) (h' : lo' < hi') :
    regionsOverlap ⟨lo, hi⟩ ⟨lo', hi'⟩ = true ↔ lo < hi' ∧ lo' < hi := by
  rw [regionsOverlap, decide_eq_true_iff]
  dsimp only
  omega

theorem srcLen_pos (hw : srcWidth s ≠ 0) (hh : srcHeight s ≠ 0) : 0 < srcLen s := by
  have hbpp : 0 < bytesPerPixel (srcFormat s) := by
    unfold bytesPerPixel
    split <;> decide
  exact Nat.mul_pos (Nat.mul_pos (Nat.pos_of_ne_zero hw) (Nat.pos_of_ne_zero hh)) hbpp

theorem bufferLen_pos {w h : Nat} (hw : w ≠ 0) (hh : h ≠ 0) (m : ColorMode) :
    0 < bufferLen w h m := by
  have hstride : 0 < stride w m := by
    cases m <;> simp only [stride, bpp] <;> omega
  exact Nat.mul_pos hstride (Nat.pos_of_ne_zero hh)

theorem ditherField_eq_three_iff (s : State) : ditherField s = 3 ↔ s.icMode.toNat / 16 % 4 = 3 := by
  rw [← ditherField_toNat, BitVec.toNat_eq]
  rfl

/-- CMODE is a legal code when it stands for a color mode (44_color_reduce_dither.md R180). -/
theorem colorOfCode_colorField_iff (s : State) (m : ColorMode) :
    colorOfCode (colorField s) = some m ↔ s.icMode.toNat % 16 = (colorCode m).toNat := by
  rw [← colorField_toNat, ← BitVec.toNat_eq]
  constructor
  · intro h
    unfold colorOfCode at h
    split_ifs at h with h0 h1 <;> cases h <;> assumption
  · intro h
    rw [h, colorOfCode_colorCode]

/-- FMT is reserved when it names neither RGB888 nor L8 (10_state.md R27). -/
theorem two_le_srcFormat_iff (s : State) :
    2 ≤ (srcFormat s).toNat ↔ srcFormat s ≠ 0 ∧ srcFormat s ≠ 1 := by
  rw [Ne, Ne, srcFormat_eq_zero_iff, srcFormat_eq_one_iff, ← srcFormat_toNat]
  omega

/-- SRC_LEN as the list of checks writes it. -/
theorem srcLen_eq_listed (s : State) :
    srcWidth s * srcHeight s * (if (srcFormat s).toNat = 0 then 3 else 1) = srcLen s := by
  simp only [srcLen, bytesPerPixel, srcFormat_eq_zero_iff, srcFormat_toNat]

/-- LEN as the list of checks writes it. -/
theorem bufferLen_eq_listed (hm : s.icMode.toNat % 16 = (colorCode m).toNat) :
    (dstWidth s * (s.icMode.toNat % 16 + 1) + 7) / 8 * dstHeight s
      = bufferLen (dstWidth s) (dstHeight s) m := by
  rw [bufferLen, stride, ← targetBits_eq hm, targetBits]

/-- Checks 3 to 10 in the model are those of the list, for the color mode CMODE stands for. -/
theorem convertChecksFrom3_eq_firstFailure (hm : s.icMode.toNat % 16 = (colorCode m).toNat) :
    convertChecksFrom3 m s = firstFailure ((convertCheckList s).drop 2) := by
  have hsrcBase : s.icSrcBase.toNat = srcBase s := rfl
  have hdstBase : s.icDstBase.toNat = dstBase s := rfl
  have hdstCap : s.icDstCap.toNat = dstCap s := rfl
  have hoverlap (h4 : ¬(srcWidth s = 0 ∨ srcHeight s = 0))
      (h6 : ¬(dstWidth s = 0 ∨ dstHeight s = 0)) :=
    regionsOverlap_of_nonempty
      (Nat.lt_add_of_pos_right (n := srcBase s) (srcLen_pos (not_or.1 h4).1 (not_or.1 h4).2))
      (Nat.lt_add_of_pos_right (n := dstBase s) (bufferLen_pos (not_or.1 h6).1 (not_or.1 h6).2 m))
  simp only [convertCheckList, ← srcWidth_eq, ← srcHeight_eq, ← dstWidth_eq, ← dstHeight_eq,
    ← srcFormat_toNat, bufferLen_eq_listed hm, srcLen_eq_listed, two_le_srcFormat_iff, hsrcBase,
    hdstBase, hdstCap, List.drop_succ_cons, List.drop_zero, firstFailure_cons, firstFailure_nil,
    Bool.or_eq_true, Bool.and_eq_true, beq_iff_eq, decide_eq_true_iff, convertChecksFrom3]
  split_ifs with h3 h4 h5 h6 h7 h8 h9 hregions hbases hbases
  any_goals rfl
  · exact absurd ((hoverlap h4 h6).1 hregions) hbases
  · exact absurd ((hoverlap h4 h6).2 hbases) hregions

/-- CMODE codes from 2 on stand for no color mode (44_color_reduce_dither.md R180). -/
theorem colorOfCode_colorField_eq_none (h : 2 ≤ s.icMode.toNat % 16) :
    colorOfCode (colorField s) = none := by
  refine Option.eq_none_iff_forall_ne_some.2 fun m hm => ?_
  have hcode : s.icMode.toNat % 16 = (colorCode m).toNat := (colorOfCode_colorField_iff s m).1 hm
  have hbits : bpp m ≤ 2 := by cases m <;> decide
  rw [bpp_eq_colorCode_add_one] at hbits
  omega

/-- CONVERT's validation reports the first check of R152 that fails. -/
theorem convertCheck_of_firstFailure {p : Err × BitVec 4}
    (h : firstFailure (convertCheckList s) = some p) : convertCheck s = .error p := by
  have hlist : firstFailure (convertCheckList s) =
      if ditherField s = 3 then some (.illegalCommand, 2)
      else if 2 ≤ s.icMode.toNat % 16 then some (.unsupportedColorMode, 1)
      else firstFailure ((convertCheckList s).drop 2) := by
    simp only [ditherField_eq_three_iff, convertCheckList, firstFailure_cons, List.drop_succ_cons,
      List.drop_zero, beq_iff_eq, decide_eq_true_iff]
  rw [hlist] at h
  unfold convertCheck
  split_ifs at h ⊢ with hdither hmode
  · exact congrArg Except.error (Option.some.inj h)
  · rw [colorOfCode_colorField_eq_none hmode]
    exact congrArg Except.error (Option.some.inj h)
  · obtain ⟨m, hm⟩ := exists_colorCode_eq (not_le.1 hmode)
    rw [← convertChecksFrom3_eq_firstFailure hm] at h
    rw [(colorOfCode_colorField_iff s m).2 hm]
    simp only [h]

/-! ### The outcomes -/

theorem exec_icConvert_of_error (h : convertCheck s = .error (e, cause)) :
    exec .icConvert s = .next (icRaiseConvert e cause s) := by
  change Host.Outcome.next (convertStep s) = _
  rw [convertStep, h]

theorem convertCheck_of_ready (h : ConvertReady s m src) : convertCheck s = .ok m := by
  obtain ⟨hchecks, hmode, -⟩ := h
  exact convertCheck_ok_of_checks hchecks hmode

theorem readBytes_of_ready (h : ConvertReady s m src) :
    readBytes s.mem (srcBase s) (srcLen s) = .ok src := by
  obtain ⟨-, -, hsrc⟩ := h
  rw [SourceIs, sourceBytes_eq] at hsrc
  exact (readBytes_ok_iff ..).2 hsrc

theorem exec_icConvert_of_ready (h : ConvertReady s m src) :
    exec .icConvert s = .next (convertStore m src s) := by
  change Host.Outcome.next (convertStep s) = _
  rw [convertStep, convertCheck_of_ready h]
  simp only [readBytes_of_ready h]

theorem eq_convertStore_of_ready (h : ConvertReady s m src) {t : State}
    (hexec : exec .icConvert s = .next t) : t = convertStore m src s := by
  rw [exec_icConvert_of_ready h] at hexec
  exact (Host.Outcome.next.inj hexec).symm

/-! ### The store of a CONVERT that succeeds (R151, R157) -/

theorem icMode_of_convertCheck_ok (h : convertCheck s = .ok m) :
    s.icMode.toNat % 16 = (colorCode m).toNat := by
  obtain ⟨-, hcolor, -⟩ := (convertCheck_ok_iff s m).1 h
  exact (colorOfCode_colorField_iff s m).1 hcolor

/-- LEN fits IC_OUT_LEN, since it is at most DST_CAP (R152, check 8). -/
theorem convertStore_icOutLen (h : convertCheck s = .ok m) :
    (convertStore m src s).icOutLen.toNat = targetLen s := by
  rw [targetLen_eq (icMode_of_convertCheck_ok h)]
  obtain ⟨-, -, hrest⟩ := (convertCheck_ok_iff s m).1 h
  obtain ⟨-, -, -, -, -, -, -, -, hcap, -⟩ := (convertChecksFrom3_none_iff m s).1 hrest
  exact Nat.mod_eq_of_lt (hcap.trans_lt s.icDstCap.isLt)

theorem length_convertBytes_of_ok (h : convertCheck s = .ok m) (src : List Byte) :
    (convertBytes m src s).length = targetLen s := by
  rw [length_convertBytes, targetLen_eq (icMode_of_convertCheck_ok h)]

theorem read_convertStore_inside (h : convertCheck s = .ok m) {k : Nat} (hk : k < targetLen s) :
    Memory.read (convertStore m src s).mem (s.icDstBase.toNat + k) = (convertBytes m src s)[k]? :=
  read_writeBytes_inside s.mem (dstBase s) _ (by rwa [length_convertBytes_of_ok h])

theorem read_convertStore_outside (h : convertCheck s = .ok m) {a : Nat}
    (ha : a < s.icDstBase.toNat ∨ s.icDstBase.toNat + targetLen s ≤ a) :
    Memory.read (convertStore m src s).mem a = Memory.read s.mem a :=
  read_writeBytes_outside s.mem (a := dstBase s) _ (by rwa [length_convertBytes_of_ok h])

/-- Only FLOYD_STEINBERG uses the line buffers (10_state.md R44). -/
theorem reduce_buffers {dither : BitVec 2} (h : dither = 0 ∨ dither = 1) (n dw : Nat)
    (p : List (List Nat)) (b : LineBuffers) : (reduce n dw dither p b).2 = b := by
  obtain rfl | rfl := h <;> rfl

theorem convertStore_lineBuffers (hok : convertCheck s = .ok m)
    (h : s.icMode.toNat / 16 % 4 ≠ 2) :
    (convertStore m src s).fsCur = s.fsCur ∧ (convertStore m src s).fsNxt = s.fsNxt := by
  obtain ⟨hne3, -, -⟩ := (convertCheck_ok_iff s m).1 hok
  have hdither : ditherField s = 0 ∨ ditherField s = 1 := by
    rw [← ditherField_toNat] at h
    revert h hne3
    generalize ditherField s = d
    revert d
    decide
  have hbuf : (convertLevels m src s).2 = ⟨s.fsCur, s.fsNxt⟩ := reduce_buffers hdither ..
  exact ⟨congrArg LineBuffers.cur hbuf, congrArg LineBuffers.nxt hbuf⟩

end Sys2Proof.Machine

namespace Sys2Proof.Proofs

open Sys2Proof.Machine Sys2Proof.Safety

/-- Settles O12: `convertCheck_of_firstFailure`, and the error completion of the check it reports. -/
theorem convertReportsFirstFailedCheck : Obligations.ConvertReportsFirstFailedCheck := by
  unfold Obligations.ConvertReportsFirstFailedCheck
  intro s k e cause hfails hbefore
  exact exec_icConvert_of_error
    (convertCheck_of_firstFailure (firstFailure_of_getElem? hfails hbefore))

/-- Settles O14. The next state is `convertStore`; its clauses are the lemmas about that store. -/
theorem convertCompletes : Obligations.ConvertCompletes := by
  unfold Obligations.ConvertCompletes
  intro s m src hready
  have hok : convertCheck s = .ok m := convertCheck_of_ready hready
  exact ⟨convertStore m src s, exec_icConvert_of_ready hready, rfl, rfl, rfl, rfl, rfl, rfl,
    convertStore_icOutLen hok, length_convertBytes_of_ok hok src,
    fun k hk => read_convertStore_inside hok hk, fun a ha => read_convertStore_outside hok ha⟩

/-- Settles O17, by the outcomes of a CONVERT: an error changes IC_STATUS, IC_PEND and IC_OUT_LEN alone, a fault is
excluded, and a success is `convertStore`. -/
theorem convertFrameHolds : Obligations.ConvertFrameHolds := by
  unfold Obligations.ConvertFrameHolds
  intro s t hexec hfaults
  obtain rfl : convertStep s = t := Host.Outcome.next.inj hexec
  obtain ⟨e, c, -, hstep⟩ | ⟨m, a, -, -, hstep⟩ | ⟨m, src, hok, -, hstep⟩ := convertStep_cases s <;>
    rw [hstep] at hfaults ⊢
  case inl => exact ⟨rfl, fun _ => ⟨rfl, rfl⟩, fun _ _ => rfl⟩
  case inr.inl => simp [icUnwritten] at hfaults
  case inr.inr =>
    have hmode : s.icMode.toNat % 16 < 2 := by
      rw [icMode_of_convertCheck_ok hok]
      cases m <;> decide
    exact ⟨rfl, convertStore_lineBuffers hok,
      fun a ha => read_convertStore_outside hok (ha hmode)⟩

end Sys2Proof.Proofs
end

