-- ==== Sys2Proof/Proofs/ConvertDeterminism.lean ====
section
/-! The levels of CONVERT do not depend on what the line buffers held before: Floyd–Steinberg reads only the first DW
entries, which it clears first (42_convert.md R156; 44_color_reduce_dither.md R186). -/

namespace Sys2Proof.Machine

open Sys2Proof.Safety

variable {n dw x : Nat} {b b' : LineBuffers}

/-! ### The first DW entries of the line buffers -/

/-- The entries of columns 0 .. DW-1 alone. -/
def LineBuffers.columns (dw : Nat) (b : LineBuffers) : LineBuffers := ⟨b.cur.take dw, b.nxt.take dw⟩

theorem entryAt_take (hx : x < dw) (l : List (BitVec 16)) :
    entryAt (l.take dw) x = entryAt l x := by
  simp [entryAt, List.getD_eq_getElem?_getD, hx]

theorem take_addEntry (hx : x < dw) (l : List (BitVec 16)) (d : Int) :
    (addEntry l x d).take dw = addEntry (l.take dw) x d := by
  rw [addEntry, addEntry, entryAt_take hx, List.take_set]

theorem columns_diffuse (hx : x < dw) (e : Int) (b : LineBuffers) :
    (diffuse dw x e b).columns dw = diffuse dw x e (b.columns dw) := by
  have hleft : x - 1 < dw := by omega
  by_cases hright : x + 1 < dw <;> by_cases hfirst : 1 ≤ x <;>
    simp [LineBuffers.columns, diffuse, hright, hfirst, take_addEntry, hx, hleft]

/-- A row within the width reads and writes only its first DW entries. -/
theorem fsRow_columns {row : List Nat} (hrow : x + row.length ≤ dw) (b : LineBuffers) :
    fsRow n dw x row (b.columns dw) =
      ((fsRow n dw x row b).1, (fsRow n dw x row b).2.columns dw) := by
  induction row generalizing x b with
  | nil => rfl
  | cons luma rest ih =>
    rw [List.length_cons] at hrow
    have hx : x < dw := by omega
    have hvalue : fsValue luma x (b.columns dw) = fsValue luma x b := by
      rw [fsValue, fsValue, LineBuffers.columns, entryAt_take hx]
    simp only [fsRow, hvalue, ← columns_diffuse hx, ih (x := x + 1) (by omega)]

theorem columns_nextRow (h : dw ≤ b.nxt.length) :
    (nextRow dw b).columns dw = ⟨b.nxt.take dw, List.replicate dw 0⟩ := by
  simp [LineBuffers.columns, nextRow, h]

/-! ### The length of FS_NXT -/

theorem length_nxt_nextRow (h : dw ≤ b.nxt.length) : (nextRow dw b).nxt.length = b.nxt.length := by
  simp [nextRow, h]

theorem length_nxt_clearNext (dw : Nat) (b : LineBuffers) : dw ≤ (clearNext dw b).nxt.length := by
  simp [clearNext]

theorem length_nxt_diffuse (dw x : Nat) (e : Int) (b : LineBuffers) :
    (diffuse dw x e b).nxt.length = b.nxt.length := by
  unfold diffuse
  dsimp only
  split_ifs <;> simp only [length_addEntry]

theorem length_nxt_fsRow (n dw x : Nat) (row : List Nat) (b : LineBuffers) :
    (fsRow n dw x row b).2.nxt.length = b.nxt.length := by
  induction row generalizing x b with
  | nil => rfl
  | cons luma rest ih => exact (ih ..).trans (length_nxt_diffuse ..)

/-! ### The levels -/

/-- The rows of levels depend on FS_NXT's first DW entries alone. -/
theorem fsRows_congr {p : List (List Nat)} (hp : ∀ row ∈ p, row.length = dw)
    (hb : dw ≤ b.nxt.length) (hb' : dw ≤ b'.nxt.length) (hnxt : b.nxt.take dw = b'.nxt.take dw) :
    (fsRows n dw p b).1 = (fsRows n dw p b').1 := by
  induction p generalizing b b' with
  | nil => rfl
  | cons row rest ih =>
    obtain ⟨hrow, hrest⟩ := List.forall_mem_cons.1 hp
    have hcolumns : (nextRow dw b).columns dw = (nextRow dw b').columns dw := by
      rw [columns_nextRow hb, columns_nextRow hb', hnxt]
    have hruns := congrArg (fsRow n dw 0 row) hcolumns
    rw [fsRow_columns (by omega), fsRow_columns (by omega), Prod.mk.injEq] at hruns
    obtain ⟨hlevels, hbuffers⟩ := hruns
    have hlater := ih (b := (fsRow n dw 0 row (nextRow dw b)).2)
      (b' := (fsRow n dw 0 row (nextRow dw b')).2) hrest
      (by rwa [length_nxt_fsRow, length_nxt_nextRow hb])
      (by rwa [length_nxt_fsRow, length_nxt_nextRow hb']) (congrArg LineBuffers.nxt hbuffers)
    simp only [fsRows, hlevels, hlater]

theorem take_nxt_clearNext (dw : Nat) (b : LineBuffers) :
    (clearNext dw b).nxt.take dw = List.replicate dw 0 := by
  simp [clearNext]

/-- The levels are the same whatever the line buffers held before (R156). -/
theorem reduce_levels_congr (n : Nat) (dither : BitVec 2) {p : List (List Nat)}
    (hp : ∀ row ∈ p, row.length = dw) (b b' : LineBuffers) :
    (reduce n dw dither p b).1 = (reduce n dw dither p b').1 := by
  have hfs : (floydSteinberg n dw p b).1 = (floydSteinberg n dw p b').1 :=
    fsRows_congr hp (length_nxt_clearNext ..) (length_nxt_clearNext ..)
      (by rw [take_nxt_clearNext, take_nxt_clearNext])
  unfold reduce
  split_ifs
  · rfl
  · rfl
  · exact hfs

theorem length_row_of_mem_plane {dh : Nat} {f : Nat → Nat → Nat} {row : List Nat}
    (h : row ∈ plane dw dh f) : row.length = dw := by
  obtain ⟨y, -, rfl⟩ := List.mem_map.1 h
  simp

/-- The bytes are a function of SW, SH, FMT, DW, DH, CMODE, DITHER, FIT and the source bytes (R156). -/
theorem convertBytes_congr {s s' : State} (m : ColorMode) (src : List Byte)
    (hsrc : s.icSrcDim = s'.icSrcDim) (hfmt : srcFormat s = srcFormat s')
    (hdst : s.icDstDim = s'.icDstDim) (hdither : ditherField s = ditherField s')
    (hfit : fitField s = fitField s') : convertBytes m src s = convertBytes m src s' := by
  unfold convertBytes convertLevels dstWidth dstHeight srcWidth srcHeight
  rw [hsrc, hfmt, hdst, hdither, hfit]
  exact congrArg _ (reduce_levels_congr _ _ (fun row hrow => length_row_of_mem_plane hrow) _ _)

end Sys2Proof.Machine

namespace Sys2Proof.Proofs

open Sys2Proof.Machine Sys2Proof.Safety

/-- Settles O18. Both next states are `convertStore`, whose bytes agree by `convertBytes_congr`. -/
theorem convertIsDeterministic : Obligations.ConvertIsDeterministic := by
  unfold Obligations.ConvertIsDeterministic
  intro s₁ s₂ t₁ t₂ m src h₁ h₂ hsrc hfmt hdst hmode hexec₁ hexec₂
  obtain rfl := eq_convertStore_of_ready h₁ hexec₁
  obtain rfl := eq_convertStore_of_ready h₂ hexec₂
  have hok₁ : convertCheck s₁ = .ok m := convertCheck_of_ready h₁
  have hok₂ : convertCheck s₂ = .ok m := convertCheck_of_ready h₂
  have hbytes : convertBytes m src s₁ = convertBytes m src s₂ := by
    refine convertBytes_congr m src hsrc ?fmt hdst ?dither ?fit
    case fmt => rw [BitVec.toNat_eq, srcFormat_toNat, srcFormat_toNat, hfmt]
    case dither =>
      rw [BitVec.toNat_eq, ditherField_toNat, ditherField_toNat]
      omega
    case fit =>
      rw [BitVec.toNat_eq, fitField_toNat, fitField_toNat]
      omega
  have hlen : targetLen s₁ = targetLen s₂ := by
    rw [← length_convertBytes_of_ok hok₁ src, ← length_convertBytes_of_ok hok₂ src, hbytes]
  refine ⟨BitVec.eq_of_toNat_eq ?_, fun k hk => ?_⟩
  · rw [convertStore_icOutLen hok₁, convertStore_icOutLen hok₂, hlen]
  · rw [convertStore_icOutLen hok₁] at hk
    rw [read_convertStore_inside hok₁ hk, read_convertStore_inside hok₂ (hlen ▸ hk), hbytes]

end Sys2Proof.Proofs
end

