-- ==== Sys2Proof/Proofs/WhiteSource.lean ====
section
/-! A white image through the three stages of CONVERT: a white plane, white levels under every DITHER, and bytes 0xFF
(42_convert.md R159; 43_resize.md R176; 44_color_reduce_dither.md R189; 45_bitpack.md R203). -/

namespace Sys2Proof.Machine

open Sys2Proof.Safety

variable {n dw dh c q : Nat} {b : LineBuffers}

/-! ### Stage 1: the plane -/

/-- Every sampled index is inside the source (43_resize.md R176). -/
theorem sampleIndex_lt {s d i : Nat} (hs : s ≠ 0) (hi : i < d) : sampleIndex s d i < s := by
  refine Nat.div_lt_of_lt_mul ?_
  exact Nat.mul_lt_mul_of_pos_right hi (Nat.pos_of_ne_zero hs)

theorem inBox_iff (x y : Nat) (b : Box) :
    inBox b x y = true ↔ (b.ox ≤ x ∧ x < b.ox + b.w) ∧ b.oy ≤ y ∧ y < b.oy + b.h := by
  simp [inBox, and_assoc]

theorem plane_congr {f g : Nat → Nat → Nat} (h : ∀ x y, x < dw → y < dh → f x y = g x y) :
    plane dw dh f = plane dw dh g := by
  refine List.map_congr_left fun y hy => List.map_congr_left fun x hx => ?_
  exact h x y (List.mem_range.1 hx) (List.mem_range.1 hy)

theorem plane_const (dw dh c : Nat) :
    plane dw dh (fun _ _ => c) = List.replicate dh (List.replicate dw c) := by
  simp [plane]

/-- A source whose pixels are all white is resized to a white plane, under both fits (R159). -/
theorem resize_white {fmt : BitVec 2} {src : List Byte} {sw sh : Nat} (hsw : sw ≠ 0) (hsh : sh ≠ 0)
    (hsrc : ∀ sx sy, sx < sw → sy < sh → srcLuma fmt src sw sx sy = 255) (dw dh : Nat)
    (fit : BitVec 1) :
    resize fmt src sw sh dw dh fit = List.replicate dh (List.replicate dw 255) := by
  rw [← plane_const]
  refine plane_congr fun x y hx hy => ?_
  split
  · exact hsrc _ _ (sampleIndex_lt hsw hx) (sampleIndex_lt hsh hy)
  · unfold letterboxPixel
    dsimp only
    split
    case isTrue hbox =>
      obtain ⟨hxbox, hybox⟩ := (inBox_iff ..).1 hbox
      exact hsrc _ _ (sampleIndex_lt hsw (by omega)) (sampleIndex_lt hsh (by omega))
    case isFalse => rfl

/-! ### Stage 2: the levels -/

theorem reducePixels_const {f : Nat → Nat → Nat → Nat} (h : ∀ x y, f x y c = q) (dw dh : Nat) :
    reducePixels f (List.replicate dh (List.replicate dw c))
      = List.replicate dh (List.replicate dw q) := by
  have hrow (y : Nat) :
      (List.replicate dw c).mapIdx (fun x luma => f x y luma) = List.replicate dw q :=
    List.ext_getElem (by simp) fun x _ _ => by simp [h]
  exact List.ext_getElem (by simp [reducePixels]) fun y _ _ => by simp [reducePixels, hrow]

@[simp] theorem addEntry_zero (l : List (BitVec 16)) (x : Nat) : addEntry l x 0 = l := by
  rw [addEntry, entryAt, Int.add_zero, BitVec.ofInt_toInt]
  refine List.ext_getElem (by simp) fun i hi hi' => ?_
  rw [List.getElem_set]
  split
  case isTrue h =>
    subst h
    exact (List.getElem_eq_getD 0).symm
  case isFalse => rfl

/-- No error, nothing handed on. -/
@[simp] theorem diffuse_zero (dw x : Nat) (b : LineBuffers) : diffuse dw x 0 b = b := by
  simp [diffuse]

/-- A luma that is the nominal luma of its level passes Floyd–Steinberg unchanged where FS_CUR holds no error. -/
theorem fsRow_const (hlevel : fsq n c = q) (hluma : lev n q = c) {x k : Nat}
    (hcur : ∀ i, x ≤ i → i < x + k → entryAt b.cur i = 0) :
    fsRow n dw x (List.replicate k c) b = (List.replicate k q, b) := by
  induction k generalizing x with
  | zero => rfl
  | succ k ih =>
    have hvalue : fsValue c x b = c := by
      rw [fsValue, hcur x (le_refl x) (by omega), Int.add_zero]
    have hrest := ih (x := x + 1) fun i hi hi' => hcur i (by omega) (by omega)
    simp only [List.replicate_succ, fsRow, hvalue, hlevel, hluma, Int.sub_self, diffuse_zero, hrest]

theorem entryAt_of_take_zero {l : List (BitVec 16)} (h : l.take dw = List.replicate dw 0) {x : Nat}
    (hx : x < dw) : entryAt l x = 0 := by
  rw [← entryAt_take hx, h]
  simp [entryAt, List.getD_eq_getElem?_getD, hx]

theorem fsRows_const (hlevel : fsq n c = q) (hluma : lev n q = c) (dh : Nat)
    (hnxt : b.nxt.take dw = List.replicate dw 0) (hlen : dw ≤ b.nxt.length) :
    (fsRows n dw (List.replicate dh (List.replicate dw c)) b).1
      = List.replicate dh (List.replicate dw q) := by
  induction dh generalizing b with
  | zero => rfl
  | succ dh ih =>
    have hcolumns := columns_nextRow hlen
    have hcur : (nextRow dw b).cur.take dw = List.replicate dw 0 :=
      (congrArg LineBuffers.cur hcolumns).trans hnxt
    have hrow := fsRow_const (b := nextRow dw b) (dw := dw) (x := 0) (k := dw) hlevel hluma
      fun i _ hi => entryAt_of_take_zero hcur (by omega)
    have hrest := ih (b := nextRow dw b) (congrArg LineBuffers.nxt hcolumns)
      (by rwa [length_nxt_nextRow hlen])
    simp only [List.replicate_succ, fsRows, hrow, hrest]

theorem floydSteinberg_const (hlevel : fsq n c = q) (hluma : lev n q = c) (dw dh : Nat)
    (b : LineBuffers) :
    (floydSteinberg n dw (List.replicate dh (List.replicate dw c)) b).1
      = List.replicate dh (List.replicate dw q) :=
  fsRows_const hlevel hluma dh (take_nxt_clearNext dw b) (length_nxt_clearNext dw b)

/-- White is a fixed point under every DITHER (44_color_reduce_dither.md R189). -/
theorem reduce_white (m : ColorMode) (dw dh : Nat) (dither : BitVec 2) (b : LineBuffers) :
    (reduce (maxLevel m) dw dither (List.replicate dh (List.replicate dw 255)) b).1
      = List.replicate dh (List.replicate dw (maxLevel m)) := by
  have hnone : levelNone (maxLevel m) 255 = maxLevel m := by cases m <;> rfl
  have hordered (x y : Nat) : levelOrdered (maxLevel m) x y 255 = maxLevel m := by
    rw [levelOrdered, Nat.mul_comm, Nat.mul_add_div (by decide)]
    exact Nat.min_eq_left (Nat.le_add_right ..)
  have hlevel : fsq (maxLevel m) (255 : Nat) = maxLevel m := rfl
  have hluma : lev (maxLevel m) (maxLevel m) = 255 := by cases m <;> rfl
  unfold reduce
  split_ifs
  · exact reducePixels_const (fun _ _ => hnone) dw dh
  · exact reducePixels_const hordered dw dh
  · exact floydSteinberg_const hlevel hluma dw dh b

/-! ### Stage 3: the bytes -/

/-- Writing the level white into bits that are all 1 leaves them so. -/
theorem setPixel_white (m : ColorMode) (x l : Nat) :
    setPixel (bpp m) x (maxLevel m) (List.replicate l 0xFF) = List.replicate l 0xFF := by
  have hones : BitVec.ofNat 8 (maxLevel m) = pixelOnes (bpp m) := by cases m <;> rfl
  have hmask (mask : Byte) : (0xFF &&& (0xFF ^^^ mask)) ||| mask = 0xFF := by
    revert mask
    decide
  unfold setPixel
  dsimp only
  rw [hones]
  refine List.ext_getElem (by simp) fun i hi hi' => ?_
  rw [List.getElem_set]
  split
  case isTrue h =>
    rw [h, List.getD_eq_getElem _ _ hi', List.getElem_replicate, hmask]
  case isFalse => rfl

theorem packColumns_white (m : ColorMode) (x k l : Nat) :
    packColumns (bpp m) x (List.replicate k (maxLevel m)) (List.replicate l 0xFF)
      = List.replicate l 0xFF := by
  induction k generalizing x with
  | zero => rfl
  | succ k ih => rw [List.replicate_succ, packColumns, setPixel_white, ih]

/-- White levels pack to bytes 0xFF, pad bits among them (45_bitpack.md R203). -/
theorem pack_white (m : ColorMode) (dw dh : Nat) :
    pack m dw (List.replicate dh (List.replicate dw (maxLevel m)))
      = List.replicate (bufferLen dw dh m) 0xFF := by
  rw [pack, List.flatMap_replicate, packRow, packColumns_white, List.flatten_replicate_replicate,
    bufferLen, Nat.mul_comm]

/-! ### CONVERT -/

theorem convertBytes_white {s : State} {m : ColorMode} {src : List Byte}
    (hok : convertCheck s = .ok m)
    (hsrc : ∀ sx sy, sx < srcWidth s → sy < srcHeight s → sourceLuma s src sx sy = 255) :
    convertBytes m src s = List.replicate (targetLen s) 0xFF := by
  obtain ⟨-, -, hrest⟩ := (convertCheck_ok_iff s m).1 hok
  obtain ⟨-, hsw, hsh, -⟩ := (convertChecksFrom3_none_iff m s).1 hrest
  have hluma : ∀ sx sy, sx < srcWidth s → sy < srcHeight s →
      srcLuma (srcFormat s) src (srcWidth s) sx sy = 255 :=
    fun sx sy hx hy => (sourceLuma_eq ..).symm.trans (hsrc sx sy hx hy)
  rw [convertBytes, convertLevels, resize_white hsw hsh hluma, reduce_white, pack_white,
    targetLen_eq (icMode_of_convertCheck_ok hok)]

end Sys2Proof.Machine

namespace Sys2Proof.Proofs

open Sys2Proof.Machine Sys2Proof.Safety

/-- Settles O19. A white source is packed to bytes 0xFF by `convertBytes_white`, and LEN is EXPECTED_LEN for the
panel's width, height and mode. -/
theorem allWhiteSourceEqualsClear : Obligations.AllWhiteSourceEqualsClear := by
  unfold Obligations.AllWhiteSourceEqualsClear
  intro s t m src hready hmode hwidth hheight hwhite hexec
  obtain rfl := eq_convertStore_of_ready hready hexec
  have hok : convertCheck s = .ok m := convertCheck_of_ready hready
  have hbytes : convertBytes m src s = List.replicate (targetLen s) 0xFF :=
    convertBytes_white hok (by rwa [srcWidth_eq, srcHeight_eq])
  have hlen : expectedLen s.cfg = targetLen s := by
    rw [targetLen_eq (icMode_of_convertCheck_ok hok), dstWidth_eq_targetWidth,
      dstHeight_eq_targetHeight, expectedLen, hmode, hwidth, hheight]
  refine ⟨(readBytes_ok_iff ..).2 ⟨List.length_replicate, fun k hk => ?_⟩, rfl⟩
  rw [hlen] at hk ⊢
  rw [read_convertStore_inside hok hk, hbytes]

end Sys2Proof.Proofs
end

