-- ==== Sys2Proof/Proofs/LumaAndResize.lean ====
section
/-! Stage 1 of CONVERT: the luma of a source pixel, the LETTERBOX box, and the pixel each fit samples
(43_resize.md R171 to R178). -/

namespace Sys2Proof.Machine

/-! ### Luma (R171) -/

/-- The weights 77, 150 and 29 add up to 256. -/
@[simp] theorem lumaRgb_self (v : Nat) : lumaRgb v v v = v := by
  unfold lumaRgb
  omega

theorem lumaRgb_mono {r r' g g' b b' : Nat} (hr : r ≤ r') (hg : g ≤ g') (hb : b ≤ b') :
    lumaRgb r g b ≤ lumaRgb r' g' b' := by
  unfold lumaRgb
  gcongr

theorem srcByte_of_getElem? {src : List Byte} {k : Nat} {v : Byte} (h : src[k]? = some v) :
    srcByte src k = v.toNat := by
  rw [srcByte, List.getD_eq_getElem?_getD, h, Option.getD_some]

theorem srcLuma_rgb888 (src : List Byte) (sw sx sy : Nat) :
    srcLuma 0 src sw sx sy = lumaRgb (srcByte src (3 * (sy * sw + sx)))
      (srcByte src (3 * (sy * sw + sx) + 1)) (srcByte src (3 * (sy * sw + sx) + 2)) := by
  rw [Nat.mul_comm 3]
  rfl

theorem srcLuma_l8 (src : List Byte) (sw sx sy : Nat) :
    srcLuma 1 src sw sx sy = srcByte src (sy * sw + sx) := by
  rw [← Nat.mul_one (sy * sw + sx)]
  rfl

/-! ### The pixels of a plane -/

theorem getD_plane {dw dh x y : Nat} (f : Nat → Nat → Nat) (hx : x < dw) (hy : y < dh) :
    ((plane dw dh f).getD y []).getD x 0 = f x y := by
  simp [plane, List.getD_eq_getElem?_getD, hx, hy]

theorem resize_stretch (fmt : BitVec 2) (src : List Byte) (sw sh dw dh : Nat) :
    resize fmt src sw sh dw dh 0 = plane dw dh (stretchPixel fmt src sw sh dw dh) := rfl

theorem resize_letterbox (fmt : BitVec 2) (src : List Byte) (sw sh dw dh : Nat) :
    resize fmt src sw sh dw dh 1 = plane dw dh (letterboxPixel fmt src sw sh dw dh) := rfl

theorem sampleIndex_self {d : Nat} (hd : 1 ≤ d) (i : Nat) : sampleIndex d d i = i :=
  Nat.mul_div_cancel i hd

/-! ### The LETTERBOX box (R175) -/

theorem letterboxBox_of_widthLimited {sw sh dw dh : Nat} (h : dw * sh ≤ dh * sw) :
    letterboxBox sw sh dw dh
      = ⟨dw, max 1 (sh * dw / sw), (dw - dw) / 2, (dh - max 1 (sh * dw / sw)) / 2⟩ := by
  simp only [letterboxBox, letterboxSize, if_pos h]

theorem letterboxBox_of_heightLimited {sw sh dw dh : Nat} (h : ¬ dw * sh ≤ dh * sw) :
    letterboxBox sw sh dw dh
      = ⟨max 1 (sw * dh / sh), dh, (dw - max 1 (sw * dh / sh)) / 2, (dh - dh) / 2⟩ := by
  simp only [letterboxBox, letterboxSize, if_neg h]

theorem letterboxBox_eq (sw sh dw dh : Nat) :
    letterboxBox sw sh dw dh =
      let w2 := if dw * sh ≤ dh * sw then dw else max 1 (sw * dh / sh)
      let h2 := if dw * sh ≤ dh * sw then max 1 (sh * dw / sw) else dh
      ⟨w2, h2, (dw - w2) / 2, (dh - h2) / 2⟩ := by
  by_cases h : dw * sh ≤ dh * sw
  · simp only [letterboxBox_of_widthLimited h, if_pos h]
  · simp only [letterboxBox_of_heightLimited h, if_neg h]

/-- A scaled side that is never longer than the side it must fit in, as the other side limits the box. -/
theorem one_le_and_le_scaledSide {s d s' d' : Nat} (hd : 1 ≤ d) (h : d' * s ≤ d * s') :
    1 ≤ max 1 (s * d' / s') ∧ max 1 (s * d' / s') ≤ d := by
  have hscaled : s * d' / s' ≤ d := Nat.div_le_of_le_mul (by rwa [Nat.mul_comm s, Nat.mul_comm s'])
  exact ⟨Nat.le_max_left .., Nat.max_le.2 ⟨hd, hscaled⟩⟩

theorem letterboxBox_w_bounds (sw sh : Nat) {dw dh : Nat} (hdw : 1 ≤ dw) :
    1 ≤ (letterboxBox sw sh dw dh).w ∧ (letterboxBox sw sh dw dh).w ≤ dw := by
  by_cases h : dw * sh ≤ dh * sw
  · rw [letterboxBox_of_widthLimited h]
    exact ⟨hdw, le_rfl⟩
  · rw [letterboxBox_of_heightLimited h]
    exact one_le_and_le_scaledSide hdw (Nat.le_of_not_le h)

theorem letterboxBox_h_bounds (sw sh : Nat) {dw dh : Nat} (hdh : 1 ≤ dh) :
    1 ≤ (letterboxBox sw sh dw dh).h ∧ (letterboxBox sw sh dw dh).h ≤ dh := by
  by_cases h : dw * sh ≤ dh * sw
  · rw [letterboxBox_of_widthLimited h]
    exact one_le_and_le_scaledSide hdh h
  · rw [letterboxBox_of_heightLimited h]
    exact ⟨hdh, le_rfl⟩

/-- Half the free space, rounded down, before the image leaves as much or one more after it. -/
theorem margins_of_le {w d : Nat} (h : w ≤ d) :
    d = (d - w) / 2 + w + (d - w) / 2 ∨ d = (d - w) / 2 + w + ((d - w) / 2 + 1) := by
  omega

theorem letterboxBox_inside (sw sh : Nat) {dw dh : Nat} (hdw : 1 ≤ dw) (hdh : 1 ≤ dh) :
    (letterboxBox sw sh dw dh).ox + (letterboxBox sw sh dw dh).w ≤ dw
      ∧ (letterboxBox sw sh dw dh).oy + (letterboxBox sw sh dw dh).h ≤ dh := by
  have hw := margins_of_le (letterboxBox_w_bounds sw sh (dh := dh) hdw).2
  have hh := margins_of_le (letterboxBox_h_bounds sw sh (dw := dw) hdh).2
  have hox : (letterboxBox sw sh dw dh).ox = (dw - (letterboxBox sw sh dw dh).w) / 2 := rfl
  have hoy : (letterboxBox sw sh dw dh).oy = (dh - (letterboxBox sw sh dw dh).h) / 2 := rfl
  omega

/-- Equal aspect ratios: the box is the whole target. -/
theorem letterboxBox_of_sameAspect {sw sh dw dh : Nat} (hsw : 1 ≤ sw) (hdh : 1 ≤ dh)
    (h : dw * sh = dh * sw) : letterboxBox sw sh dw dh = ⟨dw, dh, 0, 0⟩ := by
  have hscaled : sh * dw / sw = dh := Nat.div_eq_of_eq_mul_left hsw (by rw [Nat.mul_comm, h])
  rw [letterboxBox_of_widthLimited h.le, hscaled, Nat.max_eq_right hdh, Nat.sub_self, Nat.sub_self]

theorem letterboxPixel_eq (fmt : BitVec 2) (src : List Byte) (sw sh dw dh x y : Nat) :
    letterboxPixel fmt src sw sh dw dh x y =
      let b := letterboxBox sw sh dw dh
      if b.ox ≤ x ∧ x < b.ox + b.w ∧ b.oy ≤ y ∧ y < b.oy + b.h then
        srcLuma fmt src sw ((x - b.ox) * sw / b.w) ((y - b.oy) * sh / b.h)
      else 255 := by
  simp only [letterboxPixel, inBox_iff, and_assoc, sampleIndex]

/-- Equal aspect ratios: LETTERBOX is STRETCH (R175). -/
theorem resize_letterbox_of_sameAspect (fmt : BitVec 2) (src : List Byte) {sw sh dw dh : Nat}
    (hsw : 1 ≤ sw) (hdh : 1 ≤ dh) (h : dw * sh = dh * sw) :
    resize fmt src sw sh dw dh 1 = resize fmt src sw sh dw dh 0 := by
  rw [resize_letterbox, resize_stretch]
  refine plane_congr fun x y hx hy => ?_
  rw [letterboxPixel_eq, letterboxBox_of_sameAspect hsw hdh h]
  simp [hx, hy, stretchPixel, sampleIndex]

end Sys2Proof.Machine

namespace Sys2Proof.Proofs

open Sys2Proof.Machine Sys2Proof.Safety

/-- Settles O21. Every index stays below the source by `sampleIndex_lt`, as a pixel inside the box is less than the
box's size away from its corner. -/
theorem sampledIndicesInRange : Obligations.SampledIndicesInRange := by
  unfold Obligations.SampledIndicesInRange
  intro sw sh dw dh hsw hsh hdw hdh
  have hsw' : sw ≠ 0 := Nat.ne_of_gt hsw
  have hsh' : sh ≠ 0 := Nat.ne_of_gt hsh
  obtain ⟨hright, hbottom⟩ := letterboxBox_inside sw sh hdw hdh
  refine ⟨fun x => sampleIndex_lt hsw', fun y => sampleIndex_lt hsh',
    (letterboxBox_w_bounds sw sh hdw).1, (letterboxBox_h_bounds sw sh hdh).1, hright, hbottom,
    fun x y hbox => ?_⟩
  obtain ⟨hx, hy⟩ := (inBox_iff ..).1 hbox
  exact ⟨sampleIndex_lt hsw' (Nat.sub_lt_left_of_lt_add hx.1 hx.2),
    sampleIndex_lt hsh' (Nat.sub_lt_left_of_lt_add hy.1 hy.2)⟩

/-- Settles O23. Each pixel is `stretchPixel` or `letterboxPixel` by `getD_plane`; the box is R175's by
`letterboxBox_eq`. -/
theorem resizeFollowsFit : Obligations.ResizeFollowsFit := by
  unfold Obligations.ResizeFollowsFit
  intro fmt src sw sh dw dh hsw hsh hdw hdh w2 h2 ox oy
  have hbox : letterboxBox sw sh dw dh = ⟨w2, h2, ox, oy⟩ := letterboxBox_eq sw sh dw dh
  have hw2 : w2 ≤ dw := by
    have hle := (letterboxBox_w_bounds sw sh (dh := dh) hdw).2
    rwa [hbox] at hle
  have hh2 : h2 ≤ dh := by
    have hle := (letterboxBox_h_bounds sw sh (dw := dw) hdh).2
    rwa [hbox] at hle
  refine ⟨fun x y hx hy => ⟨?stretch, ?letterbox⟩, margins_of_le hw2, margins_of_le hh2,
    resize_letterbox_of_sameAspect fmt src hsw hdh, ?sameSize⟩
  case stretch => exact getD_plane _ hx hy
  case letterbox =>
    rw [resize_letterbox, getD_plane _ hx hy, letterboxPixel_eq, hbox]
  case sameSize =>
    rintro rfl rfl x y hx hy
    rw [resize_stretch, getD_plane _ hx hy, stretchPixel, sampleIndex_self hsw,
      sampleIndex_self hsh]

/-- Settles O20. The formula is monotone and keeps gray, so the value for white bounds it. -/
theorem lumaOfPixel : Obligations.LumaOfPixel := by
  unfold Obligations.LumaOfPixel
  refine ⟨fun src sw sx sy r g b hr hg hb => ?rgb, fun src sw sx sy v hv => ?l8, lumaRgb_self,
    fun r g b hr hg hb => ?bound⟩
  case rgb =>
    rw [srcLuma_rgb888, srcByte_of_getElem? hr, srcByte_of_getElem? hg, srcByte_of_getElem? hb,
      lumaRgb]
  case l8 => rw [srcLuma_l8, srcByte_of_getElem? hv]
  case bound =>
    calc lumaRgb r g b ≤ lumaRgb 255 255 255 := lumaRgb_mono hr hg hb
      _ = 255 := lumaRgb_self 255

/-- Settles O22. Both fits fill one plane of DH rows of DW pixels. -/
theorem resizedPlaneShape : Obligations.ResizedPlaneShape := by
  unfold Obligations.ResizedPlaneShape
  intro fmt src sw sh dw dh fit
  exact ⟨length_resize .., fun _ hrow => length_row_of_mem_plane hrow⟩

end Sys2Proof.Proofs
end

