-- ==== Sys2Proof/Proofs/PixelDithers.lean ====
section
/-! The two reductions that treat each pixel alone: NONE and ORDERED (44_color_reduce_dither.md R184, R185). -/

namespace Sys2Proof.Machine

/-! ### The nominal luma of a level (R181) -/

@[simp] theorem lev_zero (n : Nat) : lev n 0 = 0 := Nat.zero_div n

@[simp] theorem lev_maxLevel (m : ColorMode) : lev (maxLevel m) (maxLevel m) = 255 := by
  cases m <;> rfl

/-- Levels are evenly spaced in luma, since n divides 255 in both modes. -/
theorem lev_eq_mul (m : ColorMode) (q : Nat) : lev (maxLevel m) q = 255 / maxLevel m * q := by
  cases m <;> simp only [lev, maxLevel] <;> omega

/-- Different levels are at least one step of luma apart. -/
theorem step_le_natAbs_lev_sub_lev (m : ColorMode) {q r : Nat} (h : r ≠ q) :
    255 / maxLevel m ≤ ((lev (maxLevel m) q : Int) - lev (maxLevel m) r).natAbs := by
  have hdist : 1 ≤ ((q : Int) - r).natAbs := by omega
  calc
    _ ≤ 255 / maxLevel m * ((q : Int) - r).natAbs := Nat.le_mul_of_pos_right _ hdist
    _ = ((lev (maxLevel m) q : Int) - lev (maxLevel m) r).natAbs := by
      rw [lev_eq_mul, lev_eq_mul, Nat.cast_mul, Nat.cast_mul, ← Int.mul_sub, Int.natAbs_mul,
        Int.natAbs_natCast]

/-! ### NONE (R184) -/

/-- The minimum of R184 never binds. -/
theorem levelNone_quotient_le (m : ColorMode) {luma : Nat} (h : luma ≤ 255) :
    (maxLevel m * luma + 127) / 255 ≤ maxLevel m := by
  cases m <;> simp only [maxLevel] <;> omega

theorem levelNone_eq (m : ColorMode) {luma : Nat} (h : luma ≤ 255) :
    levelNone (maxLevel m) luma = (maxLevel m * luma + 127) / 255 :=
  Nat.min_eq_right (levelNone_quotient_le m h)

theorem levelNone_one_eq_one_iff {luma : Nat} (h : luma ≤ 255) :
    levelNone 1 luma = 1 ↔ 128 ≤ luma := by
  unfold levelNone
  omega

theorem levelNone_three {luma : Nat} (h : luma ≤ 255) :
    levelNone 3 luma =
      if luma ≤ 42 then 0 else if luma ≤ 127 then 1 else if luma ≤ 212 then 2 else 3 := by
  unfold levelNone
  split_ifs <;> omega

theorem levelNone_black (m : ColorMode) : levelNone (maxLevel m) 0 = 0 := by cases m <;> rfl

theorem levelNone_white (m : ColorMode) : levelNone (maxLevel m) 255 = maxLevel m := by
  cases m <;> rfl

/-- A pixel is less than half a step of luma away from the nominal luma of its level. -/
theorem two_mul_natAbs_sub_lev_levelNone_lt (m : ColorMode) {luma : Nat} (h : luma ≤ 255) :
    2 * ((luma : Int) - lev (maxLevel m) (levelNone (maxLevel m) luma)).natAbs
      < 255 / maxLevel m := by
  rw [levelNone_eq m h]
  cases m <;> simp only [lev, maxLevel] <;> omega

/-- Every other level is more than half a step away, so the level given is the nearest. -/
theorem natAbs_sub_lev_levelNone_lt (m : ColorMode) {luma r : Nat} (h : luma ≤ 255)
    (hr : r ≠ levelNone (maxLevel m) luma) :
    ((luma : Int) - lev (maxLevel m) (levelNone (maxLevel m) luma)).natAbs
      < ((luma : Int) - lev (maxLevel m) r).natAbs := by
  have hnear := two_mul_natAbs_sub_lev_levelNone_lt m h
  have hapart := step_le_natAbs_lev_sub_lev m hr
  omega

/-! ### ORDERED (R185) -/

theorem bayerAt_mod (x y : Nat) : bayerAt (x % 4) (y % 4) = bayerAt x y := by
  rw [bayerAt, bayerAt, Nat.mod_mod, Nat.mod_mod]

theorem bayerAt_le (x y : Nat) : bayerAt x y ≤ 15 := by
  have hresidues : ∀ i < 4, ∀ j < 4, bayerAt i j ≤ 15 := by decide
  rw [← bayerAt_mod]
  exact hresidues _ (Nat.mod_lt x (by decide)) _ (Nat.mod_lt y (by decide))

/-- The upper half of the matrix's entries stands where x + y is odd. -/
theorem eight_le_bayerAt_iff (x y : Nat) : 8 ≤ bayerAt x y ↔ (x + y) % 2 = 1 := by
  have hresidues : ∀ i < 4, ∀ j < 4, 8 ≤ bayerAt i j ↔ (i + j) % 2 = 1 := by decide
  rw [← bayerAt_mod, hresidues _ (Nat.mod_lt x (by decide)) _ (Nat.mod_lt y (by decide))]
  omega

/-- The minimum of R185 never binds. -/
theorem levelOrdered_quotient_le (n x y : Nat) {luma : Nat} (h : luma ≤ 255) :
    (n * luma + (16 * bayerAt x y + 8)) / 255 ≤ n := by
  have hoffset := bayerAt_le x y
  have hluma : n * luma ≤ n * 255 := Nat.mul_le_mul_left n h
  omega

theorem levelOrdered_eq (n x y : Nat) {luma : Nat} (h : luma ≤ 255) :
    levelOrdered n x y luma = (n * luma + (16 * bayerAt x y + 8)) / 255 :=
  Nat.min_eq_right (levelOrdered_quotient_le n x y h)

theorem levelOrdered_black (n x y : Nat) : levelOrdered n x y 0 = 0 := by
  have hoffset := bayerAt_le x y
  rw [levelOrdered_eq n x y (Nat.zero_le 255)]
  omega

theorem levelOrdered_white (n x y : Nat) : levelOrdered n x y 255 = n := by
  have hoffset := bayerAt_le x y
  rw [levelOrdered_eq n x y (le_refl 255)]
  omega

theorem levelOrdered_one_eq_one_iff (x y : Nat) {luma : Nat} (h : luma ≤ 255) :
    levelOrdered 1 x y luma = 1 ↔ 247 - 16 * bayerAt x y ≤ luma := by
  have hoffset := bayerAt_le x y
  rw [levelOrdered_eq 1 x y h]
  omega

theorem levelOrdered_add_four_left (n x y luma : Nat) :
    levelOrdered n (x + 4) y luma = levelOrdered n x y luma := by
  rw [levelOrdered, levelOrdered, bayerAt, bayerAt, Nat.add_mod_right]

theorem levelOrdered_add_four_right (n x y luma : Nat) :
    levelOrdered n x (y + 4) luma = levelOrdered n x y luma := by
  rw [levelOrdered, levelOrdered, bayerAt, bayerAt, Nat.add_mod_right]

end Sys2Proof.Machine

namespace Sys2Proof.Proofs

open Sys2Proof.Machine

/-- Settles O24. The level's luma is less than half a step away and levels are a step apart, so no other level is as
near. -/
theorem noneRoundsToNearestLevel : Obligations.NoneRoundsToNearestLevel := by
  unfold Obligations.NoneRoundsToNearestLevel
  exact ⟨fun _ _ => rfl, fun _ => levelNone_one_eq_one_iff, fun _ => levelNone_three,
    fun m => ⟨levelNone_black m, levelNone_white m⟩,
    fun m _ h => ⟨levelNone_quotient_le m h, fun _ _ => natAbs_sub_lev_levelNone_lt m h⟩⟩

/-- Settles O25. The printed matrix is `bayerAt`; the flat 128 gives white where the entry is at least 8, which is
where x + y is odd. -/
theorem orderedFollowsBayerMatrix : Obligations.OrderedFollowsBayerMatrix := by
  unfold Obligations.OrderedFollowsBayerMatrix
  intro x y luma h m
  have hm : m = bayerAt x y := rfl
  refine ⟨fun n => rfl, levelOrdered_one_eq_one_iff x y h,
    fun c => ⟨levelOrdered_black .., levelOrdered_white .., levelOrdered_quotient_le _ x y h⟩,
    fun n => ⟨levelOrdered_add_four_left .., levelOrdered_add_four_right ..⟩, ?flat,
    eight_le_bayerAt_iff x y⟩
  case flat =>
    rw [levelOrdered_one_eq_one_iff x y (by decide), hm]
    omega

end Sys2Proof.Proofs
end

