-- ==== Sys2Proof/Proofs/FloydSteinberg.lean ====
section
/-! Floyd–Steinberg in 16-bit line buffers refines the scan over unbounded integers: no entry leaves -127 .. 127, so no
addition overflows (44_color_reduce_dither.md R186 to R188). -/

namespace Sys2Proof.Machine

open Sys2Proof.Safety

variable {dw x y j : Nat} {k k' : Nat → Nat} {b : LineBuffers} {r : ErrorRows} {e d : Int}
  {l : List (BitVec 16)} {f : Nat → Int} {m : ColorMode}

/-! ### A line buffer as a row of bounded integers -/

/-- A line buffer of `dw` entries that hold the integers of `f`, entry i at most `k i` in magnitude. -/
structure Represents (dw : Nat) (k : Nat → Nat) (l : List (BitVec 16)) (f : Nat → Int) : Prop where
  length_eq : l.length = dw
  entryAt_eq : entryAt l = f
  natAbs_le : ∀ i, (f i).natAbs ≤ k i

theorem Represents.mono (h : Represents dw k l f) (hk : ∀ i, k i ≤ k' i) :
    Represents dw k' l f :=
  { h with natAbs_le := fun i => (h.natAbs_le i).trans (hk i) }

theorem represents_replicate_zero (dw : Nat) (k : Nat → Nat) :
    Represents dw k (List.replicate dw 0) fun _ => 0 where
  length_eq := List.length_replicate
  entryAt_eq := by
    funext i
    by_cases h : i < dw <;> simp [entryAt, List.getD_eq_getElem?_getD, h]
  natAbs_le _ := Nat.zero_le _

theorem entryAt_set (hx : x < l.length) (w : BitVec 16) (i : Nat) :
    entryAt (l.set x w) i = if i = x then w.toInt else entryAt l i := by
  by_cases h : i = x
  · simp [entryAt, List.getD_eq_getElem?_getD, h, hx]
  · simp [entryAt, List.getD_eq_getElem?_getD, h, Ne.symm h]

/-- While the bounds fit 16 bits, addition in 16 bits is addition over the integers. -/
theorem Represents.addEntry (h : Represents dw k l f) (hd : d.natAbs ≤ j) (hy : y < dw)
    (hk : ∀ i, k i ≤ k' i) (hadd : k y + j ≤ k' y) (hfits : k' y < 2 ^ 15) :
    Represents dw k' (addEntry l y d) (addAt f y d) where
  length_eq := (length_addEntry ..).trans h.length_eq
  entryAt_eq := by
    have hbound := h.natAbs_le y
    have hsum : (BitVec.ofInt 16 (f y + d)).toInt = f y + d :=
      BitVec.toInt_ofInt_eq_self (by decide) (by omega) (by omega)
    funext i
    rw [Machine.addEntry, entryAt_set (h.length_eq ▸ hy), h.entryAt_eq, hsum, addAt]
    split
    case isTrue hi => rw [hi]
    case isFalse => rfl
  natAbs_le i := by
    have hi := h.natAbs_le i
    unfold addAt
    split
    case isTrue heq =>
      subst heq
      omega
    case isFalse => exact hi.trans (hk i)

/-- The same for an addition that is dropped where its column is outside the target. -/
theorem Represents.ite_addEntry (h : Represents dw k l f) (hd : d.natAbs ≤ j) (c : Prop)
    [Decidable c] (hy : c → y < dw) (hk : ∀ i, k i ≤ k' i) (hadd : c → k y + j ≤ k' y)
    (hfits : k' y < 2 ^ 15) :
    Represents dw k' (if c then Machine.addEntry l y d else l) (if c then addAt f y d else f) := by
  split
  case isTrue hc => exact h.addEntry hd (hy hc) hk (hadd hc) hfits
  case isFalse => exact h.mono hk

/-! ### The error of a pixel and its shares (R186, R188) -/

/-- For 0 < v < 255, fsq is the NONE rounding (R187). -/
theorem fsq_eq_levelNone (m : ColorMode) {luma : Nat} (h0 : 0 < luma) (h255 : luma < 255) :
    fsq (maxLevel m) luma = levelNone (maxLevel m) luma := by
  rw [levelNone_eq m h255.le, fsq, if_neg (by omega), if_neg (by omega), Int.toNat_natCast]

theorem natAbs_sub_lev_fsq_le (m : ColorMode) {v : Int} (hlo : -127 ≤ v) (hhi : v ≤ 382) :
    (v - lev (maxLevel m) (fsq (maxLevel m) v)).natAbs ≤ 127 := by
  by_cases h0 : v ≤ 0
  · rw [fsq, if_pos h0, lev_zero]
    omega
  by_cases h255 : 255 ≤ v
  · rw [fsq, if_neg h0, if_pos h255, lev_maxLevel]
    omega
  · obtain ⟨luma, rfl⟩ := Int.eq_ofNat_of_zero_le (a := v) (by omega)
    have hnear := two_mul_natAbs_sub_lev_levelNone_lt m (luma := luma) (by omega)
    have hstep : 255 / maxLevel m ≤ 255 := Nat.div_le_self ..
    rw [fsq_eq_levelNone m (by omega) (by omega)]
    omega

/-- The share k/16 of an error of at most 127, truncated toward zero. -/
theorem natAbs_share_le (he : e.natAbs ≤ 127) (k : Nat) :
    (Int.tdiv (k * e) 16).natAbs ≤ k * 127 / 16 := by
  rw [Int.natAbs_tdiv, Int.natAbs_mul, Int.natAbs_natCast]
  exact Nat.div_le_div_right (Nat.mul_le_mul_left k he)

/-! ### The entries when the scan reaches column x -/

/-- An entry of FS_CUR holds at most 69 = 23 + 39 + 7 from the row above, and at most 55 more once the scan has reached
its column. -/
def curBound (x i : Nat) : Nat := if i ≤ x then 124 else 69

/-- An entry of FS_NXT holds at most 69 once the scan has passed it, 0 before the scan comes near, and the bounds given
at the columns before, at and after x. -/
def nxtBound (before here after x i : Nat) : Nat :=
  if i + 1 < x then 69 else if i + 1 = x then before else if i = x then here
  else if i = x + 1 then after else 0

theorem curBound_le (x i : Nat) : curBound x i ≤ 124 := by
  unfold curBound
  split <;> decide

theorem curBound_mono (x i : Nat) : curBound x i ≤ curBound (x + 1) i := by
  unfold curBound
  split_ifs <;> omega

theorem nxtBound_le {before here after : Nat} (hbefore : before ≤ 69) (hhere : here ≤ 69)
    (hafter : after ≤ 69) (x i : Nat) : nxtBound before here after x i ≤ 69 := by
  unfold nxtBound
  split_ifs <;> omega

theorem nxtBound_mono {before here after before' here' after' : Nat} (hbefore : before ≤ before')
    (hhere : here ≤ here') (hafter : after ≤ after') (x i : Nat) :
    nxtBound before here after x i ≤ nxtBound before' here' after' x i := by
  unfold nxtBound
  split_ifs <;> omega

theorem nxtBound_before (before here after : Nat) (hx : 1 ≤ x) :
    nxtBound before here after x (x - 1) = before := by
  rw [nxtBound, if_neg (by omega), if_pos (by omega)]

theorem nxtBound_here (before here after x : Nat) : nxtBound before here after x x = here := by
  rw [nxtBound, if_neg (by omega), if_neg (by omega), if_pos rfl]

theorem nxtBound_after (before here after x : Nat) :
    nxtBound before here after x (x + 1) = after := by
  rw [nxtBound, if_neg (by omega), if_neg (by omega), if_neg (by omega), if_pos rfl]

/-- What stands at and after a column stands before and at the next one. -/
theorem nxtBound_succ (here after x i : Nat) :
    nxtBound 69 here after x i = nxtBound here after 0 (x + 1) i := by
  unfold nxtBound
  split_ifs <;> omega

/-- The line buffers hold the scan's integers, in the bounds they have when the scan reaches column x. -/
structure RefinesAt (dw x : Nat) (b : LineBuffers) (r : ErrorRows) : Prop where
  cur : Represents dw (curBound x) b.cur r.cur
  nxt : Represents dw (nxtBound 46 7 0 x) b.nxt r.nxt

/-- What a row hands down, at any column. -/
theorem RefinesAt.nxt_le (h : RefinesAt dw x b r) : Represents dw (fun _ => 69) b.nxt r.nxt :=
  h.nxt.mono (nxtBound_le (by decide) (by decide) (by decide) x)

/-- No entry passes 124, where 127 is R188's bound. -/
theorem RefinesAt.cur_le (h : RefinesAt dw x b r) : Represents dw (fun _ => 124) b.cur r.cur :=
  h.cur.mono (curBound_le x)

/-- A row starts with what the row above handed down, and has handed down nothing yet. -/
theorem refinesAt_zero (h : Represents dw (fun _ => 69) l f) :
    RefinesAt dw 0 ⟨l, List.replicate dw 0⟩ ⟨f, fun _ => 0⟩ where
  cur := h.mono fun i => by
    unfold curBound
    split <;> decide
  nxt := represents_replicate_zero ..

/-- The share to the right. -/
theorem RefinesAt.cur_diffuse (h : RefinesAt dw x b r) (he : e.natAbs ≤ 127) :
    Represents dw (curBound (x + 1)) (Machine.diffuse dw x e b).cur
      (exactDiffuse dw x e r).cur := by
  have hshare : (Int.tdiv (7 * e) 16).natAbs ≤ 55 := natAbs_share_le he 7
  refine h.cur.ite_addEntry hshare (x + 1 < dw) id (curBound_mono x) (fun _ => ?_) ?_
  · simp [curBound]
  · exact (curBound_le ..).trans_lt (by decide)

/-- The three shares to the row below: left, straight down, right. -/
theorem RefinesAt.nxt_diffuse (h : RefinesAt dw x b r) (hx : x < dw) (he : e.natAbs ≤ 127) :
    Represents dw (nxtBound 46 7 0 (x + 1)) (Machine.diffuse dw x e b).nxt
      (exactDiffuse dw x e r).nxt := by
  have hshareLeft : (Int.tdiv (3 * e) 16).natAbs ≤ 23 := natAbs_share_le he 3
  have hshareBelow : (Int.tdiv (5 * e) 16).natAbs ≤ 39 := natAbs_share_le he 5
  have hshareRight : (Int.tdiv (1 * e) 16).natAbs ≤ 7 := natAbs_share_le he 1
  have hfits {before here after : Nat} (hbefore : before ≤ 69) (hhere : here ≤ 69)
      (hafter : after ≤ 69) (i : Nat) : nxtBound before here after x i < 2 ^ 15 :=
    (nxtBound_le hbefore hhere hafter x i).trans_lt (by decide)
  have hleft := h.nxt.ite_addEntry (k' := nxtBound 69 7 0 x) hshareLeft (1 ≤ x) (y := x - 1)
    (fun _ => by omega) (nxtBound_mono (by decide) (by decide) (by decide) x)
    (fun hx1 => by rw [nxtBound_before _ _ _ hx1, nxtBound_before _ _ _ hx1])
    (hfits (by decide) (by decide) (by decide) _)
  have hbelow := hleft.addEntry (k' := nxtBound 69 46 0 x) hshareBelow hx
    (nxtBound_mono (by decide) (by decide) (by decide) x)
    (by rw [nxtBound_here, nxtBound_here])
    (hfits (by decide) (by decide) (by decide) _)
  have hright := hbelow.ite_addEntry (k' := nxtBound 69 46 7 x) hshareRight (x + 1 < dw) id
    (nxtBound_mono (by decide) (by decide) (by decide) x)
    (fun _ => by rw [nxtBound_after, nxtBound_after])
    (hfits (by decide) (by decide) (by decide) _)
  exact hright.mono fun i => (nxtBound_succ 46 7 x i).le

/-- The four assignments at a column. -/
theorem RefinesAt.diffuse (h : RefinesAt dw x b r) (hx : x < dw) (he : e.natAbs ≤ 127) :
    RefinesAt dw (x + 1) (Machine.diffuse dw x e b) (exactDiffuse dw x e r) :=
  ⟨h.cur_diffuse he, h.nxt_diffuse hx he⟩

/-- The columns of a row from x on. -/
theorem RefinesAt.row (h : RefinesAt dw x b r) {row : List Nat} (hluma : ∀ luma ∈ row, luma ≤ 255)
    (hrow : x + row.length ≤ dw) :
    (fsRow (maxLevel m) dw x row b).1 = (exactRow (maxLevel m) dw x row r).1
      ∧ RefinesAt dw (x + row.length) (fsRow (maxLevel m) dw x row b).2
          (exactRow (maxLevel m) dw x row r).2 := by
  induction row generalizing x b r with
  | nil => exact ⟨rfl, h⟩
  | cons luma rest ih =>
    obtain ⟨hhead, htail⟩ := List.forall_mem_cons.1 hluma
    rw [List.length_cons] at hrow ⊢
    have hvalue : luma + r.cur x = fsValue luma x b := by rw [fsValue, h.cur.entryAt_eq]
    have he : (fsValue luma x b - lev (maxLevel m) (fsq (maxLevel m) (fsValue luma x b))).natAbs
        ≤ 127 := by
      have hentry := h.cur_le.natAbs_le x
      exact natAbs_sub_lev_fsq_le m (by omega) (by omega)
    obtain ⟨hlevels, hend⟩ := ih (h.diffuse (by omega) he) htail (by omega)
    simp only [fsRow, exactRow, hvalue, ← fsq_eq_exactLevel]
    rw [Nat.add_comm rest.length, ← Nat.add_assoc]
    exact ⟨congrArg _ hlevels, hend⟩

/-! ### The rows -/

/-- The rows from one on whose FS_NXT holds what the row above handed down. -/
theorem fsRows_refines {p : List (List Nat)}
    (hp : ∀ row ∈ p, row.length = dw ∧ ∀ luma ∈ row, luma ≤ 255)
    (h : Represents dw (fun _ => 69) (b.nxt.take dw) f) :
    (fsRows (maxLevel m) dw p b).1 = exactRows (maxLevel m) dw p f
      ∧ (p ≠ [] → ∃ r, RefinesAt dw dw ((fsRows (maxLevel m) dw p b).2.columns dw) r) := by
  induction p generalizing b f with
  | nil => exact ⟨rfl, fun hne => absurd rfl hne⟩
  | cons row rest ih =>
    obtain ⟨⟨hwidth, hluma⟩, hrest⟩ := List.forall_mem_cons.1 hp
    have hnxt : dw ≤ b.nxt.length := by
      have := h.length_eq
      rw [List.length_take] at this
      omega
    have hcolumns := fsRow_columns (n := maxLevel m) (dw := dw) (x := 0) (row := row) (by omega)
      (nextRow dw b)
    rw [columns_nextRow hnxt] at hcolumns
    obtain ⟨hlevels, hend⟩ := (refinesAt_zero h).row (m := m) hluma (by omega)
    rw [hcolumns] at hlevels hend
    rw [hwidth, Nat.zero_add] at hend
    obtain ⟨hlater, hlast⟩ := ih hrest hend.nxt_le
    refine ⟨?levels, fun _ => ?last⟩
    case levels => simp only [fsRows, exactRows, ← hlevels, hlater]
    case last =>
      by_cases hnil : rest = []
      · subst hnil
        exact ⟨_, hend⟩
      · exact hlast hnil

/-- The whole scan, whatever the line buffers held: its levels, and the entries after the last row. -/
theorem floydSteinberg_refines {p : List (List Nat)} (b : LineBuffers)
    (hp : ∀ row ∈ p, row.length = dw ∧ ∀ luma ∈ row, luma ≤ 255) :
    (floydSteinberg (maxLevel m) dw p b).1 = exactFloydSteinberg (maxLevel m) dw p
      ∧ (p ≠ [] → ∃ r, RefinesAt dw dw ((floydSteinberg (maxLevel m) dw p b).2.columns dw) r) :=
  fsRows_refines hp (by
    rw [take_nxt_clearNext]
    exact represents_replicate_zero ..)

theorem Represents.entryAt_bounds (h : Represents dw k (l.take dw) f) (hk : k x ≤ 127)
    (hx : x < dw) : -127 ≤ entryAt l x ∧ entryAt l x ≤ 127 := by
  have hle := h.natAbs_le x
  rw [← h.entryAt_eq, entryAt_take hx] at hle
  omega

/-! ### Black under every dither (R189) -/

/-- Black is a fixed point under every DITHER. -/
theorem reduce_black (m : ColorMode) (dw dh : Nat) (dither : BitVec 2) (b : LineBuffers) :
    (reduce (maxLevel m) dw dither (List.replicate dh (List.replicate dw 0)) b).1
      = List.replicate dh (List.replicate dw 0) := by
  unfold reduce
  split_ifs
  · exact reducePixels_const (fun _ _ => levelNone_black m) dw dh
  · exact reducePixels_const (levelOrdered_black _) dw dh
  · exact floydSteinberg_const rfl (lev_zero _) dw dh b

end Sys2Proof.Machine

namespace Sys2Proof.Proofs

open Sys2Proof.Machine

/-- Settles O27, by the simulation `RefinesAt` of the scan over unbounded integers, column by column and row by row,
whose bounds keep every sum inside 16 bits. -/
theorem floydSteinbergFitsSixteenBits : Obligations.FloydSteinbergFitsSixteenBits := by
  unfold Obligations.FloydSteinbergFitsSixteenBits
  intro m dw p b hne hp
  obtain ⟨hlevels, hlast⟩ := floydSteinberg_refines (m := m) b hp
  obtain ⟨r, hend⟩ := hlast hne
  exact ⟨hlevels, fun x hx => ⟨hend.cur_le.entryAt_bounds (by decide) hx,
    hend.nxt_le.entryAt_bounds (by decide) hx⟩⟩

/-- Settles O26. White is `reduce_white`, black `reduce_black`. -/
theorem ditherKeepsBlackAndWhite : Obligations.DitherKeepsBlackAndWhite := by
  unfold Obligations.DitherKeepsBlackAndWhite
  exact fun m dw dh dither b _ => ⟨reduce_white m dw dh dither b, reduce_black m dw dh dither b⟩

end Sys2Proof.Proofs
end

