-- ==== Sys2Proof/Proofs/ConvertLevels.lean ====
section
/-! Stages 1 and 2 of CONVERT on the numbers in the registers: the luma plane, and the level of each pixel under the
DITHER that IC_MODE names (43_resize.md R171 to R175; 44_color_reduce_dither.md R182, R183). -/

namespace Sys2Proof.Machine

open Sys2Proof.Safety

variable {s : State} {m : ColorMode}

/-! ### Stage 1: the luma plane -/

theorem lumaAt_eq (s : State) (src : List Byte) (x y : Nat) :
    lumaAt s src x y =
      if fitField s = 0 then
        stretchPixel (srcFormat s) src (srcWidth s) (srcHeight s) (dstWidth s) (dstHeight s) x y
      else
        letterboxPixel (srcFormat s) src (srcWidth s) (srcHeight s) (dstWidth s) (dstHeight s)
          x y := by
  simp only [lumaAt, sourceLuma_eq, stretchPixel, sampleIndex, letterboxPixel_eq, letterboxBox_eq,
    fitField_eq_zero_iff, srcWidth_eq, srcHeight_eq, dstWidth_eq, dstHeight_eq]

/-- Stage 1 gives the luma plane of the register numbers. -/
theorem resize_eq_plane_lumaAt (s : State) (src : List Byte) :
    resize (srcFormat s) src (srcWidth s) (srcHeight s) (dstWidth s) (dstHeight s) (fitField s)
      = plane (targetWidth s) (targetHeight s) (lumaAt s src) := by
  rw [← dstWidth_eq_targetWidth, ← dstHeight_eq_targetHeight]
  exact plane_congr fun x y _ _ => (lumaAt_eq s src x y).symm

theorem srcByte_le (src : List Byte) (k : Nat) : srcByte src k ≤ 255 :=
  Nat.le_of_lt_succ (src.getD k 0).isLt

theorem srcLuma_le (fmt : BitVec 2) (src : List Byte) (sw sx sy : Nat) :
    srcLuma fmt src sw sx sy ≤ 255 := by
  unfold srcLuma
  split
  case isTrue =>
    calc
      _ ≤ lumaRgb 255 255 255 := lumaRgb_mono (srcByte_le ..) (srcByte_le ..) (srcByte_le ..)
      _ = 255 := lumaRgb_self 255
  case isFalse => exact srcByte_le ..

theorem letterboxPixel_le (fmt : BitVec 2) (src : List Byte) (sw sh dw dh x y : Nat) :
    letterboxPixel fmt src sw sh dw dh x y ≤ 255 := by
  unfold letterboxPixel
  dsimp only
  split
  · exact srcLuma_le ..
  · exact le_rfl

theorem lumaAt_le (s : State) (src : List Byte) (x y : Nat) : lumaAt s src x y ≤ 255 := by
  rw [lumaAt_eq]
  split
  · exact srcLuma_le ..
  · exact letterboxPixel_le ..

/-! ### Stage 2: the levels -/

theorem maxLevel_eq_of_color (h : s.icMode.toNat % 16 = (colorCode m).toNat) :
    (if s.icMode.toNat % 16 = 0 then 1 else 3) = maxLevel m := by
  rw [h]
  cases m <;> rfl

theorem ditherField_eq_zero_iff (s : State) : ditherField s = 0 ↔ s.icMode.toNat / 16 % 4 = 0 := by
  rw [← ditherField_toNat, BitVec.toNat_eq]
  rfl

theorem ditherField_eq_one_iff (s : State) : ditherField s = 1 ↔ s.icMode.toNat / 16 % 4 = 1 := by
  rw [← ditherField_toNat, BitVec.toNat_eq]
  rfl

/-- A reduction that treats each pixel alone maps a plane to a plane. -/
theorem reducePixels_plane (g : Nat → Nat → Nat → Nat) (dw dh : Nat) (luma : Nat → Nat → Nat) :
    reducePixels g (plane dw dh luma) = plane dw dh fun x y => g x y (luma x y) := by
  refine List.ext_getElem (by simp) fun y _ _ => List.ext_getElem ?_ fun x _ _ => ?_ <;>
    simp [reducePixels, plane]

/-- R186's scan of a plane of luma values is the one over unbounded integers (R188). -/
theorem floydSteinberg_plane (m : ColorMode) (dw dh : Nat) {luma : Nat → Nat → Nat}
    (hluma : ∀ x y, luma x y ≤ 255) (b : LineBuffers) :
    (floydSteinberg (maxLevel m) dw (plane dw dh luma) b).1
      = exactFloydSteinberg (maxLevel m) dw (plane dw dh luma) := by
  refine (floydSteinberg_refines b fun row hrow => ⟨length_row_of_mem_plane hrow, ?_⟩).1
  obtain ⟨y, -, rfl⟩ := List.mem_map.1 hrow
  intro c hc
  obtain ⟨x, -, rfl⟩ := List.mem_map.1 hc
  exact hluma x y

/-- The levels of stage 2 for the DITHER in IC_MODE, from the luma plane of the register numbers (R182, R183). -/
theorem convertLevels_eq (m : ColorMode) (src : List Byte) (s : State) :
    (convertLevels m src s).1 =
      if s.icMode.toNat / 16 % 4 = 0 then
        plane (targetWidth s) (targetHeight s) fun x y => levelNone (maxLevel m) (lumaAt s src x y)
      else if s.icMode.toNat / 16 % 4 = 1 then
        plane (targetWidth s) (targetHeight s) fun x y =>
          levelOrdered (maxLevel m) x y (lumaAt s src x y)
      else exactFloydSteinberg (maxLevel m) (targetWidth s)
        (plane (targetWidth s) (targetHeight s) (lumaAt s src)) := by
  rw [convertLevels, resize_eq_plane_lumaAt, dstWidth_eq_targetWidth, reduce]
  simp only [ditherField_eq_zero_iff, ditherField_eq_one_iff]
  split_ifs
  · exact reducePixels_plane ..
  · exact reducePixels_plane ..
  · exact floydSteinberg_plane m _ _ (lumaAt_le s src) _

end Sys2Proof.Machine

namespace Sys2Proof.Proofs

open Sys2Proof.Machine Sys2Proof.Safety

/-- Settles O16, by `convertLevels_eq`, pixel by pixel. -/
theorem convertLevelsFollowDither : Obligations.ConvertLevelsFollowDither := by
  unfold Obligations.ConvertLevelsFollowDither
  intro s m src x y hready dw dh n dither hx hy
  obtain ⟨-, hmode, -⟩ := hready
  have hn : n = maxLevel m := maxLevel_eq_of_color hmode
  rw [convertLevels_eq, hn]
  split_ifs
  · exact getD_plane _ hx hy
  · exact getD_plane _ hx hy
  · rfl

end Sys2Proof.Proofs
end

