-- ==== Sys2Proof/Proofs/BitPack.lean ====
section
/-! Stage 3 of CONVERT, bit by bit: which bits of a packed row a pixel holds, that no other pixel's write reaches them,
and that the bits past the last pixel keep the 1 they start with (45_bitpack.md R200 to R205). -/

namespace Sys2Proof.Machine

variable {b x q k i j dw : Nat} {m : ColorMode} {qs : List Nat} {bytes : List Byte}

/-! ### Pixels and bytes -/

/-- A row of DW levels that the color mode has (44_color_reduce_dither.md R181, R182). -/
def IsLevelRow (m : ColorMode) (dw : Nat) (qs : List Nat) : Prop :=
  qs.length = dw ∧ ∀ level ∈ qs, level ≤ maxLevel m

/-- The level white is all ones. -/
theorem maxLevel_eq (m : ColorMode) : maxLevel m = 2 ^ bpp m - 1 := by cases m <;> rfl

theorem lt_two_pow_bpp (h : q ≤ maxLevel m) : q < 2 ^ bpp m := by
  rw [maxLevel_eq] at h
  have := Nat.two_pow_pos (bpp m)
  omega

/-- A pixel's bits stand in one byte (R202). -/
theorem mod_eight_add_bpp_le (m : ColorMode) (x : Nat) : x * bpp m % 8 + bpp m ≤ 8 := by
  cases m <;> simp only [bpp] <;> omega

theorem mul_bpp_le_eight_mul_stride (m : ColorMode) (dw : Nat) : dw * bpp m ≤ 8 * stride dw m := by
  unfold stride
  omega

/-- The byte of a pixel is one of its row's STRIDE bytes. -/
theorem pixelByte_lt_stride (hx : x < dw) (m : ColorMode) : pixelByte (bpp m) x < stride dw m := by
  cases m <;> simp only [pixelByte, stride, bpp] <;> omega

theorem byte_ff_eq_allOnes : (0xFF : Byte) = BitVec.allOnes 8 := rfl

/-! ### The bits of a row, most significant first -/

/-- Bit i of a row of bytes: bits 8k to 8k + 7 are those of byte k, most significant first, so that pixel x of b bits
has bits x × b to x × b + b - 1 (R202). -/
def rowBit (bytes : List Byte) (i : Nat) : Bool := (bytes.getD (i / 8) 0).getMsbD (i % 8)

theorem getLsbD_getD (bytes : List Byte) (k : Nat) (hj : j < 8) :
    (bytes.getD k 0).getLsbD j = rowBit bytes (8 * k + (7 - j)) := by
  have hbyte : (8 * k + (7 - j)) / 8 = k := by omega
  have hbit : (8 * k + (7 - j)) % 8 = 7 - j := by omega
  have hback : 8 - 1 - (7 - j) = j := by omega
  rw [rowBit, hbyte, hbit, BitVec.getMsbD_eq_getLsbD, hback, decide_eq_true (by omega),
    Bool.true_and]

/-- Bit j of a pixel's mask before the shift (R204). -/
theorem getLsbD_pixelOnes (hb : b ≤ 8) : (pixelOnes b).getLsbD j = decide (j < b) := by
  rw [pixelOnes, BitVec.getLsbD_ofNat, Nat.one_shiftLeft, Nat.testBit_two_pow_sub_one,
    ← Bool.decide_and]
  exact decide_eq_decide.2 (by omega)

/-- The byte of a pixel after R204's step: the b bits from `shift` on are those of its level, the others are kept. -/
theorem getLsbD_replaceBits (hb : b ≤ 8) (hq : q < 2 ^ b) (w : Byte) (shift : Nat) (hj : j < 8) :
    ((w &&& (0xFF ^^^ (pixelOnes b <<< shift))) ||| (BitVec.ofNat 8 q <<< shift)).getLsbD j
      = if shift ≤ j ∧ j < shift + b then q.testBit (j - shift) else w.getLsbD j := by
  simp only [BitVec.getLsbD_or, BitVec.getLsbD_and, BitVec.getLsbD_xor, BitVec.getLsbD_shiftLeft,
    byte_ff_eq_allOnes, BitVec.getLsbD_allOnes, getLsbD_pixelOnes hb, BitVec.getLsbD_ofNat,
    decide_eq_true hj]
  by_cases hlow : j < shift
  · simp [hlow, hlow.not_ge]
  by_cases hhigh : j < shift + b
  · have : j - shift < b := by omega
    simp [hlow, hhigh, this, not_lt.1 hlow, (Nat.sub_le j shift).trans_lt hj]
  · have hzero : q.testBit (j - shift) = false :=
      Nat.testBit_lt_two_pow (hq.trans_le (Nat.pow_le_pow_right (by decide) (by omega)))
    have : ¬j - shift < b := by omega
    simp [hlow, hhigh, this, hzero]

/-! ### One step of R204's loop -/

theorem rowBit_setPixel (hq : q ≤ maxLevel m) (hx : x * bpp m / 8 < bytes.length) (i : Nat) :
    rowBit (setPixel (bpp m) x q bytes) i =
      if x * bpp m ≤ i ∧ i < x * bpp m + bpp m then q.testBit (x * bpp m + bpp m - 1 - i)
      else rowBit bytes i := by
  have hfits := mod_eight_add_bpp_le m x
  simp only [rowBit, setPixel, List.getD_eq_getElem?_getD, BitVec.getMsbD_eq_getLsbD]
  by_cases hbyte : i / 8 = x * bpp m / 8
  · have hj : 8 - 1 - i % 8 < 8 := by omega
    have hcond : pixelShift (bpp m) x ≤ 8 - 1 - i % 8
        ∧ 8 - 1 - i % 8 < pixelShift (bpp m) x + bpp m ↔
          x * bpp m ≤ i ∧ i < x * bpp m + bpp m := by
      unfold pixelShift
      omega
    have hsub : 8 - 1 - i % 8 - pixelShift (bpp m) x = x * bpp m + bpp m - 1 - i := by
      unfold pixelShift
      omega
    rw [hbyte, pixelByte, List.getElem?_set_self hx, Option.getD_some,
      getLsbD_replaceBits (by omega) (lt_two_pow_bpp hq) _ _ hj, hsub,
      decide_eq_true (Nat.mod_lt i (by decide)), Bool.true_and, Bool.true_and]
    exact if_congr hcond rfl rfl
  · have hout : ¬(x * bpp m ≤ i ∧ i < x * bpp m + bpp m) := by omega
    rw [if_neg hout, pixelByte, List.getElem?_set_ne (Ne.symm hbyte)]

/-! ### The columns of a row -/

/-- The columns from x on write no bit before column x's and none past the last column's. -/
theorem rowBit_packColumns_outside (hqs : ∀ level ∈ qs, level ≤ maxLevel m)
    (hroom : (x + qs.length) * bpp m ≤ 8 * bytes.length)
    (hi : i < x * bpp m ∨ (x + qs.length) * bpp m ≤ i) :
    rowBit (packColumns (bpp m) x qs bytes) i = rowBit bytes i := by
  induction qs generalizing x bytes with
  | nil => rfl
  | cons q rest ih =>
    obtain ⟨hq, hrest⟩ := List.forall_mem_cons.1 hqs
    rw [List.length_cons, ← Nat.add_assoc, Nat.add_right_comm] at hroom hi
    have hstart : (x + 1) * bpp m = x * bpp m + bpp m := Nat.succ_mul ..
    have hend : (x + 1) * bpp m ≤ (x + 1 + rest.length) * bpp m :=
      Nat.mul_le_mul_right _ (Nat.le_add_right ..)
    have hb : 0 < bpp m := by cases m <;> decide
    rw [packColumns, ih hrest (by rwa [length_setPixel]) (by omega),
      rowBit_setPixel hq (by omega), if_neg (by omega)]

/-- The bits of column x + c hold its level, most significant first. -/
theorem rowBit_packColumns_pixel (hqs : ∀ level ∈ qs, level ≤ maxLevel m)
    (hroom : (x + qs.length) * bpp m ≤ 8 * bytes.length) {c r : Nat} (hc : c < qs.length)
    (hr : r < bpp m) :
    rowBit (packColumns (bpp m) x qs bytes) ((x + c) * bpp m + r)
      = (qs.getD c 0).testBit (bpp m - 1 - r) := by
  induction qs generalizing x bytes c with
  | nil => exact absurd hc (Nat.not_lt_zero c)
  | cons q rest ih =>
    obtain ⟨hq, hrest⟩ := List.forall_mem_cons.1 hqs
    rw [List.length_cons, ← Nat.add_assoc, Nat.add_right_comm] at hroom
    have hroom' : (x + 1 + rest.length) * bpp m ≤ 8 * (setPixel (bpp m) x q bytes).length := by
      rwa [length_setPixel]
    have hstart : (x + 1) * bpp m = x * bpp m + bpp m := Nat.succ_mul ..
    have hend : (x + 1) * bpp m ≤ (x + 1 + rest.length) * bpp m :=
      Nat.mul_le_mul_right _ (Nat.le_add_right ..)
    rw [packColumns]
    cases c with
    | zero =>
      rw [Nat.add_zero x, rowBit_packColumns_outside hrest hroom' (by omega),
        rowBit_setPixel hq (by omega), if_pos (by omega), List.getD_cons_zero]
      congr 1
      omega
    | succ c =>
      rw [← Nat.add_assoc, Nat.add_right_comm, List.getD_cons_succ]
      exact ih hrest hroom' (Nat.lt_of_succ_lt_succ hc)

/-! ### A packed row (R203, R204) -/

theorem rowBit_replicate_ones (l : Nat) (hi : i < 8 * l) :
    rowBit (List.replicate l 0xFF) i = true := by
  rw [rowBit, List.getD_replicate (h := by omega), byte_ff_eq_allOnes,
    BitVec.getMsbD_allOnes, decide_eq_true (Nat.mod_lt i (by decide))]

theorem IsLevelRow.room (h : IsLevelRow m dw qs) :
    (0 + qs.length) * bpp m ≤ 8 * (List.replicate (stride dw m) (0xFF : Byte)).length := by
  obtain ⟨hlength, -⟩ := h
  rw [Nat.zero_add, hlength, List.length_replicate]
  exact mul_bpp_le_eight_mul_stride m dw

theorem rowBit_packRow_pixel (h : IsLevelRow m dw qs) (hx : x < dw) {r : Nat} (hr : r < bpp m) :
    rowBit (packRow m dw qs) (x * bpp m + r) = (qs.getD x 0).testBit (bpp m - 1 - r) := by
  have ⟨hlength, hlevels⟩ := h
  have hbit := rowBit_packColumns_pixel hlevels h.room (hlength ▸ hx) hr
  rwa [Nat.zero_add] at hbit

/-- Pad bits are 1 (R203). -/
theorem rowBit_packRow_pad (h : IsLevelRow m dw qs) (hi : dw * bpp m ≤ i)
    (hend : i < 8 * stride dw m) : rowBit (packRow m dw qs) i = true := by
  have ⟨hlength, hlevels⟩ := h
  have hpast : (0 + qs.length) * bpp m ≤ i := by rwa [Nat.zero_add, hlength]
  rw [packRow, rowBit_packColumns_outside hlevels h.room (.inr hpast),
    rowBit_replicate_ones _ hend]

/-- The b bits at a pixel's position are its level (R202). -/
theorem pixelField_packRow (h : IsLevelRow m dw qs) (hx : x < dw) :
    ((packRow m dw qs).getD (pixelByte (bpp m) x) 0).toNat / 2 ^ pixelShift (bpp m) x % 2 ^ bpp m
      = qs.getD x 0 := by
  have hfits := mod_eight_add_bpp_le m x
  have hlevel : qs.getD x 0 < 2 ^ bpp m := by
    have ⟨hlength, hlevels⟩ := h
    rw [List.getD_eq_getElem _ _ (hlength ▸ hx)]
    exact lt_two_pow_bpp (hlevels _ (List.getElem_mem _))
  refine Nat.eq_of_testBit_eq fun j => ?_
  rw [Nat.testBit_mod_two_pow, Nat.testBit_div_two_pow, BitVec.testBit_toNat]
  by_cases hj : j < bpp m
  · have hposition : 8 * pixelByte (bpp m) x + (7 - (j + pixelShift (bpp m) x))
        = x * bpp m + (bpp m - 1 - j) := by
      unfold pixelByte pixelShift
      omega
    have hback : bpp m - 1 - (bpp m - 1 - j) = j := by omega
    rw [decide_eq_true hj, Bool.true_and, getLsbD_getD _ _ (by unfold pixelShift; omega),
      hposition, rowBit_packRow_pixel h hx (by omega), hback]
  · rw [decide_eq_false hj, Bool.false_and, Nat.testBit_lt_two_pow]
    exact hlevel.trans_le (Nat.pow_le_pow_right (by decide) (not_lt.1 hj))

/-- A byte whose pixels are all white is 0xFF, its pad bits among them (R203). -/
theorem getD_packRow_white (h : IsLevelRow m dw qs) (hk : k < stride dw m)
    (hwhite : ∀ x, x < dw → pixelByte (bpp m) x = k → qs.getD x 0 = maxLevel m) :
    (packRow m dw qs).getD k 0 = 0xFF := by
  refine BitVec.eq_of_getLsbD_eq fun j hj => ?_
  rw [getLsbD_getD _ _ hj, byte_ff_eq_allOnes,
    BitVec.getLsbD_allOnes, decide_eq_true hj]
  by_cases hpad : dw * bpp m ≤ 8 * k + (7 - j)
  · exact rowBit_packRow_pad h hpad (by omega)
  · obtain ⟨x, r, hx, hr, hbyte, hi⟩ : ∃ x r, x < dw ∧ r < bpp m ∧ pixelByte (bpp m) x = k
        ∧ 8 * k + (7 - j) = x * bpp m + r := by
      refine ⟨(8 * k + (7 - j)) / bpp m, (8 * k + (7 - j)) % bpp m, ?_⟩
      cases m <;> simp only [bpp, pixelByte] at hpad ⊢ <;> omega
    rw [hi, rowBit_packRow_pixel h hx hr, hwhite x hx hbyte, maxLevel_eq,
      Nat.testBit_two_pow_sub_one, decide_eq_true (by omega)]

/-! ### A packed buffer (R201, R205) -/

/-- Row y fills bytes y × STRIDE to (y + 1) × STRIDE - 1. -/
theorem getElem?_pack (m : ColorMode) (dw : Nat) {q : List (List Nat)} {y : Nat}
    (hy : y < q.length) (hk : k < stride dw m) :
    (pack m dw q)[y * stride dw m + k]? = (packRow m dw (q.getD y []))[k]? := by
  induction q generalizing y with
  | nil => exact absurd hy (Nat.not_lt_zero y)
  | cons row rest ih =>
    rw [pack, List.flatMap_cons, ← pack]
    cases y with
    | zero =>
      rw [Nat.zero_mul, Nat.zero_add, List.getElem?_append_left (by rwa [length_packRow]),
        List.getD_cons_zero]
    | succ y =>
      have hsub : (y + 1) * stride dw m + k - stride dw m = y * stride dw m + k := by
        rw [Nat.succ_mul]
        omega
      rw [List.getElem?_append_right (by rw [length_packRow, Nat.succ_mul]; omega), length_packRow,
        hsub, List.getD_cons_succ, ih (Nat.lt_of_succ_lt_succ hy)]

/-- R205's shift and mask, as division and remainder. -/
theorem unpackPixel_eq (m : ColorMode) (dw : Nat) (bytes : List Byte) (x y : Nat) :
    unpackPixel m dw bytes x y
      = (bytes.getD (y * stride dw m + pixelByte (bpp m) x) 0).toNat / 2 ^ pixelShift (bpp m) x
        % 2 ^ bpp m := by
  have hones : (pixelOnes (bpp m)).toNat = 2 ^ bpp m - 1 := by cases m <;> rfl
  rw [unpackPixel, BitVec.toNat_and, BitVec.toNat_ushiftRight, hones,
    Nat.and_two_pow_sub_one_eq_mod, Nat.shiftRight_eq_div_pow]

theorem unpackPixel_pack {rows : List (List Nat)} (hrows : ∀ row ∈ rows, IsLevelRow m dw row)
    {y : Nat} (hx : x < dw) (hy : y < rows.length) :
    unpackPixel m dw (pack m dw rows) x y = (rows.getD y []).getD x 0 := by
  have hrow : IsLevelRow m dw (rows.getD y []) := by
    rw [List.getD_eq_getElem _ _ hy]
    exact hrows _ (List.getElem_mem hy)
  rw [unpackPixel_eq, List.getD_eq_getElem?_getD, getElem?_pack m dw hy (pixelByte_lt_stride hx m),
    ← List.getD_eq_getElem?_getD, pixelField_packRow hrow hx]

theorem getElem?_packRow (hk : k < stride dw m) (qs : List Nat) :
    (packRow m dw qs)[k]? = some ((packRow m dw qs).getD k 0) := by
  have hlength : k < (packRow m dw qs).length := by rwa [length_packRow]
  rw [List.getElem?_eq_getElem hlength, List.getD_eq_getElem _ _ hlength]

/-- The last byte of a packed row ends in ones, one for each pad bit (R203). -/
theorem getLsbD_last_packRow (h : IsLevelRow m dw qs) (hj : j < 8 * stride dw m - dw * bpp m) :
    ((packRow m dw qs).getD (stride dw m - 1) 0).getLsbD j = true := by
  have hstride : 8 * stride dw m < dw * bpp m + 8 := by
    unfold stride
    omega
  rw [getLsbD_getD _ _ (by omega)]
  exact rowBit_packRow_pad h (by omega) (by omega)

end Sys2Proof.Machine

namespace Sys2Proof.Proofs

open Sys2Proof.Machine

/-- Settles O28, by `unpackPixel_pack`: the row is found by `getElem?_pack`, the level by `pixelField_packRow`. -/
theorem unpackInvertsPack : Obligations.UnpackInvertsPack := by
  unfold Obligations.UnpackInvertsPack
  exact fun m dw q hrows x y hx hy => unpackPixel_pack hrows hx hy

/-- Settles O29, by `getLsbD_last_packRow` and `getD_packRow_white`. -/
theorem padBitsAreOne : Obligations.PadBitsAreOne := by
  unfold Obligations.PadBitsAreOne
  intro m dw row hdw hwidth hlevels
  have hrow : IsLevelRow m dw row := ⟨hwidth, hlevels⟩
  refine ⟨fun j hj => ⟨_, getElem?_packRow (by omega) row, getLsbD_last_packRow hrow hj⟩,
    fun k hk hwhite => ?_⟩
  rw [getElem?_packRow hk, getD_packRow_white hrow hk hwhite]

end Sys2Proof.Proofs
end

