-- ==== Sys2Proof/Proofs/PackedPixels.lean ====
section
/-! The packed levels in MEM: stage 2 hands legal levels to stage 3, and a CONVERT that succeeds leaves the bytes of
each packed row in the target (44_color_reduce_dither.md R182; 45_bitpack.md R201 to R203). -/

namespace Sys2Proof.Machine

open Sys2Proof.Safety

variable {s : State} {m : ColorMode} {dw : Nat} {src : List Byte}

theorem fsq_le (n : Nat) (v : Int) : fsq n v ≤ n := by
  unfold fsq
  split_ifs with hlow hhigh
  · exact Nat.zero_le n
  · exact le_rfl
  · have hv : v.toNat ≤ 254 := by omega
    have hmul : n * v.toNat ≤ n * 254 := Nat.mul_le_mul_left n hv
    omega

theorem isLevelRow_mapIdx {row : List Nat} (hrow : row.length = dw) {f : Nat → Nat → Nat}
    (hf : ∀ x luma, f x luma ≤ maxLevel m) : IsLevelRow m dw (row.mapIdx f) := by
  refine ⟨List.length_mapIdx.trans hrow, fun level hlevel => ?_⟩
  obtain ⟨x, hx, rfl⟩ := List.mem_mapIdx.1 hlevel
  exact hf ..

theorem isLevelRow_of_mem_reducePixels {f : Nat → Nat → Nat → Nat}
    (hf : ∀ x y luma, f x y luma ≤ maxLevel m) {p : List (List Nat)}
    (hp : ∀ row ∈ p, row.length = dw) {qs : List Nat} (hqs : qs ∈ reducePixels f p) :
    IsLevelRow m dw qs := by
  obtain ⟨y, hy, rfl⟩ := List.mem_mapIdx.1 hqs
  exact isLevelRow_mapIdx (hp _ (List.getElem_mem hy)) fun x => hf x y

theorem isLevelRow_fsRow (m : ColorMode) (dw x : Nat) (row : List Nat) (b : LineBuffers) :
    IsLevelRow m row.length (fsRow (maxLevel m) dw x row b).1 := by
  induction row generalizing x b with
  | nil => exact ⟨rfl, List.forall_mem_nil _⟩
  | cons luma rest ih =>
    obtain ⟨hlength, hlevels⟩ := ih (x + 1) _
    exact ⟨congrArg Nat.succ hlength, List.forall_mem_cons.2 ⟨fsq_le .., hlevels⟩⟩

theorem isLevelRow_of_mem_fsRows {p : List (List Nat)} (hp : ∀ row ∈ p, row.length = dw)
    {b : LineBuffers} {qs : List Nat} (hqs : qs ∈ (fsRows (maxLevel m) dw p b).1) :
    IsLevelRow m dw qs := by
  induction p generalizing b with
  | nil => exact absurd hqs List.not_mem_nil
  | cons row rest ih =>
    obtain ⟨hrow, hrest⟩ := List.forall_mem_cons.1 hp
    obtain rfl | hlater := List.mem_cons.1 hqs
    · exact hrow ▸ isLevelRow_fsRow ..
    · exact ih hrest hlater

theorem isLevelRow_of_mem_reduce {dither : BitVec 2} {p : List (List Nat)}
    (hp : ∀ row ∈ p, row.length = dw) {b : LineBuffers} {qs : List Nat}
    (hqs : qs ∈ (reduce (maxLevel m) dw dither p b).1) : IsLevelRow m dw qs := by
  unfold reduce at hqs
  split_ifs at hqs
  · exact isLevelRow_of_mem_reducePixels (fun _ _ _ => Nat.min_le_left ..) hp hqs
  · exact isLevelRow_of_mem_reducePixels (fun _ _ _ => Nat.min_le_left ..) hp hqs
  · exact isLevelRow_of_mem_fsRows hp hqs

/-- Stage 2 hands DH rows of DW levels to stage 3 (R182, R205). -/
theorem isLevelRow_convertLevels (m : ColorMode) (src : List Byte) (s : State) {y : Nat}
    (hy : y < targetHeight s) :
    IsLevelRow m (dstWidth s) ((convertLevels m src s).1.getD y []) := by
  rw [← dstHeight_eq_targetHeight, ← length_convertLevels m src s] at hy
  rw [List.getD_eq_getElem _ _ hy]
  exact isLevelRow_of_mem_reduce (fun _ hrow => length_row_of_mem_plane hrow)
    (List.getElem_mem hy)

/-- Byte k of row y of the target, after a CONVERT that succeeds (R201). -/
theorem read_convertStore_row (h : convertCheck s = .ok m) {y k : Nat} (hy : y < targetHeight s)
    (hk : k < targetRow s) :
    Memory.read (convertStore m src s).mem (s.icDstBase.toNat + (y * targetRow s + k))
      = some ((packRow m (dstWidth s) ((convertLevels m src s).1.getD y [])).getD k 0) := by
  have hinside : y * targetRow s + k < targetLen s :=
    calc
      _ < (y + 1) * targetRow s := by rw [Nat.succ_mul]; omega
      _ ≤ targetHeight s * targetRow s := Nat.mul_le_mul_right _ hy
      _ = targetLen s := Nat.mul_comm ..
  rw [read_convertStore_inside h hinside]
  rw [← dstHeight_eq_targetHeight, ← length_convertLevels m src s] at hy
  rw [targetRow_eq (icMode_of_convertCheck_ok h)] at hk ⊢
  rw [convertBytes, getElem?_pack m _ hy hk, getElem?_packRow hk]

end Sys2Proof.Machine

namespace Sys2Proof.Proofs

open Sys2Proof.Machine Sys2Proof.Safety

/-- Settles O15. The bytes of row y in MEM are those of `packRow` by `read_convertStore_row`; `pixelField_packRow` and
`getLsbD_last_packRow` say what their bits are. -/
theorem convertPixelsInMemory : Obligations.ConvertPixelsInMemory := by
  unfold Obligations.ConvertPixelsInMemory
  intro s t m src hready hexec y hy
  obtain rfl := eq_convertStore_of_ready hready hexec
  have hok : convertCheck s = .ok m := convertCheck_of_ready hready
  have hmode := icMode_of_convertCheck_ok hok
  have hrow := isLevelRow_convertLevels m src s hy
  refine ⟨fun x hx => ?pixel, fun j hj => ?pad⟩
  case pixel =>
    rw [← dstWidth_eq_targetWidth] at hx
    have hk : pixelByte (bpp m) x < targetRow s := by
      rw [targetRow_eq hmode]
      exact pixelByte_lt_stride hx m
    rw [Nat.add_assoc, targetBits_eq hmode]
    exact ⟨_, read_convertStore_row hok hy hk, pixelField_packRow hrow hx⟩
  case pad =>
    have hlast : s.icDstBase.toNat + (y + 1) * targetRow s - 1
        = s.icDstBase.toNat + (y * targetRow s + (targetRow s - 1)) := by
      rw [Nat.succ_mul]
      omega
    rw [hlast]
    refine ⟨_, read_convertStore_row hok hy (by omega), ?_⟩
    rw [← dstWidth_eq_targetWidth, targetBits_eq hmode, targetRow_eq hmode] at hj
    rw [targetRow_eq hmode]
    exact getLsbD_last_packRow hrow hj

end Sys2Proof.Proofs
end

