-- ==== Sys2Proof/Proofs/Fairness.lean ====
section
/-! Every step has a next state. A turn uses up one entry of the agenda and no other part of it, and once the agenda is
exhausted a step completes a pending engine, so that none stays pending (20_memory.md R71; 60_exceptions.md R210). -/

namespace Sys2Proof.Machine

open Sys2Proof.Safety

variable {s t : State} {i : Instr} {turn : Turn} {rest : List Turn}

/-! ### The host's transactions leave the agenda alone -/

@[simp] theorem regStore_agenda (r : Reg) (w : Word) (s : State) :
    (regStore r w s).agenda = s.agenda := by cases r <;> rfl

@[simp] theorem regWriteStep_agenda (off : Offset) (w : Word) (s : State) :
    (regWriteStep off w s).agenda = s.agenda := by
  obtain ⟨-, h⟩ | ⟨r, -, ⟨-, h⟩ | ⟨-, -, h⟩ | ⟨-, -, h⟩⟩ := regWriteStep_cases off w s <;> simp [h]

@[simp] theorem regReadStep_agenda (off : Offset) (s : State) :
    (regReadStep off s).agenda = s.agenda := by
  obtain ⟨-, h⟩ | ⟨r, -, h⟩ := regReadStep_cases off s <;> simp [h]

@[simp] theorem memWriteStep_agenda (a : Nat) (b : Byte) (s : State) :
    (memWriteStep a b s).agenda = s.agenda := by
  obtain ⟨-, h⟩ | ⟨-, -, h⟩ | ⟨-, -, h⟩ := memWriteStep_cases a b s <;> simp [h]

@[simp] theorem memReadStep_agenda (a : Nat) (s : State) :
    (memReadStep a s).agenda = s.agenda := by
  obtain ⟨-, h⟩ | ⟨-, -, h⟩ | ⟨-, -, b, -, h⟩ | ⟨-, -, -, h⟩ := memReadStep_cases a s <;> simp [h]

@[simp] theorem otherWidthStep_agenda (f : Fault) (isRead : Bool) (zero : Reply) (s : State) :
    (otherWidthStep f isRead zero s).agenda = s.agenda := by cases isRead <;> rfl

@[simp] theorem hostStep_agenda (x : Transaction) (s : State) :
    (hostStep x s).agenda = s.agenda := by
  cases x with
  | regWrite off w => exact regWriteStep_agenda ..
  | regRead off => exact regReadStep_agenda ..
  | memWrite a b => exact memWriteStep_agenda ..
  | memRead a => exact memReadStep_agenda ..
  | regOtherWidth off isRead => exact otherWidthStep_agenda ..
  | memManyBytes a isRead => exact otherWidthStep_agenda ..

/-! ### The completions -/

/-- `t` is a completion of IC from `s`, as far as turns go: IC is no longer pending, and neither the agenda nor PS_PEND
has changed. -/
structure CompletesIc (s t : State) : Prop where
  agenda : t.agenda = s.agenda
  icPend : t.icPend = .none
  psPend : t.psPend = s.psPend

/-- `t` is a completion of PS from `s`, as far as turns go. -/
structure CompletesPs (s t : State) : Prop where
  agenda : t.agenda = s.agenda
  icPend : t.icPend = s.icPend
  psPend : t.psPend = .none

/-- Every command has a next state from every state (60_exceptions.md R211, R216). -/
theorem exec_next (i : Instr) (s : State) : ∃ t, exec i s = .next t := by
  cases i <;> exact ⟨_, rfl⟩

theorem completesIc_convertStep (s : State) : CompletesIc s (convertStep s) := by
  obtain ⟨e, c, -, h⟩ | ⟨m, a, -, -, h⟩ | ⟨m, src, -, -, h⟩ := convertStep_cases s <;> rw [h] <;>
    exact ⟨rfl, rfl, rfl⟩

theorem completesPs_of_panelFrame (h : PanelFrame s t) (hpend : t.psPend = .none) :
    CompletesPs s t := by
  unfold PanelFrame at h
  exact ⟨by rw [h], by rw [h], hpend⟩

theorem psFinish_psPend (i : Instr) (st : HandleState) (r : HalRun) :
    (psFinish i st r).psPend = .none := by cases r <;> rfl

theorem PanelOutcome.completesPs (h : PanelOutcome i s t) : CompletesPs s t := by
  cases h with
  | hal =>
    exact completesPs_of_panelFrame (panelFrame_psFinish (halStep_halPart ..).1 ..)
      (psFinish_psPend ..)
  | refused => exact ⟨rfl, rfl, rfl⟩
  | unwritten a => exact ⟨rfl, rfl, rfl⟩
  | silent => exact ⟨rfl, rfl, rfl⟩

theorem completeIc_next (s : State) : ∃ t, completeIc s = .next t ∧ CompletesIc s t := by
  obtain ⟨x, -, h⟩ | ⟨i, hi, h⟩ := completeIc_cases s
  · exact ⟨_, h, rfl, rfl, rfl⟩
  · obtain rfl := decode_ic_ok hi
    exact ⟨_, h, completesIc_convertStep s⟩

theorem completePs_next (s : State) : ∃ t, completePs s = .next t ∧ CompletesPs s t := by
  obtain ⟨x, -, h⟩ | ⟨i, hi, h⟩ := completePs_cases s
  · exact ⟨_, h, rfl, rfl, rfl⟩
  · obtain ⟨t, ht⟩ := exec_next i s
    exact ⟨t, h.trans ht, (panelOutcome_of_exec (decode_ps_ok hi) ht).completesPs⟩

/-! ### One step -/

theorem takeTurn_next (turn : Turn) (s : State) :
    ∃ t, takeTurn turn s = .next t ∧ t.agenda = s.agenda := by
  cases turn with
  | host x => exact ⟨_, takeTurn_host x, hostStep_agenda x s⟩
  | ic =>
    cases hpend : s.icPend with
    | none => exact ⟨s, takeTurn_ic_of_none hpend, rfl⟩
    | pending =>
      obtain ⟨t, ht, hdone⟩ := completeIc_next s
      exact ⟨t, (takeTurn_ic_of_pending hpend).trans ht, hdone.agenda⟩
  | ps =>
    cases hpend : s.psPend with
    | none => exact ⟨s, takeTurn_ps_of_none hpend, rfl⟩
    | pending =>
      obtain ⟨t, ht, hdone⟩ := completePs_next s
      exact ⟨t, (takeTurn_ps_of_pending hpend).trans ht, hdone.agenda⟩

/-- A step with turns to come uses up exactly the next one. -/
theorem step_uses_turn (h : s.agenda = turn :: rest) : ∃ t, step s = .next t ∧ t.agenda = rest := by
  obtain ⟨t, ht, hagenda⟩ := takeTurn_next turn { s with agenda := rest }
  exact ⟨t, (step_of_agenda_cons h).trans ht, hagenda⟩

/-- How many engines have a pending command. -/
def pendingCount (s : State) : Nat := (enginePending .ic s).toNat + (enginePending .ps s).toNat

theorem pendingCount_le_two (s : State) : pendingCount s ≤ 2 :=
  Nat.add_le_add (Bool.toNat_le _) (Bool.toNat_le _)

theorem pendingCount_eq_zero_iff (s : State) :
    pendingCount s = 0 ↔ s.icPend = .none ∧ s.psPend = .none := by
  unfold pendingCount enginePending
  cases s.icPend <;> cases s.psPend <;> simp

theorem CompletesIc.pendingCount_lt (h : CompletesIc s t) (hpend : s.icPend = .pending) :
    pendingCount t < pendingCount s := by
  simp [pendingCount, enginePending, h.icPend, h.psPend, hpend]

theorem CompletesPs.pendingCount_lt (h : CompletesPs s t) (hpend : s.psPend = .pending) :
    pendingCount t < pendingCount s := by
  simp [pendingCount, enginePending, h.icPend, h.psPend, hpend]

/-- A step of an exhausted agenda completes a pending engine, if there is one (R210). -/
theorem step_drains (h : s.agenda = []) :
    ∃ t, step s = .next t ∧ t.agenda = [] ∧ pendingCount t ≤ pendingCount s - 1 := by
  rw [step_of_agenda_nil h]
  obtain ⟨d, hpend, hstep⟩ | ⟨d, hpend, hstep⟩ | ⟨hi, hp, hstep⟩ := drainStep_cases h
  · obtain ⟨t, ht, hdone⟩ := completeIc_next (turnState [] d s)
    exact ⟨t, hstep.trans ht, hdone.agenda, Nat.le_pred_of_lt (hdone.pendingCount_lt hpend)⟩
  · obtain ⟨t, ht, hdone⟩ := completePs_next (turnState [] d s)
    exact ⟨t, hstep.trans ht, hdone.agenda, Nat.le_pred_of_lt (hdone.pendingCount_lt hpend)⟩
  · have hzero : pendingCount s = 0 := (pendingCount_eq_zero_iff s).2 ⟨hi, hp⟩
    exact ⟨s, hstep, h, by omega⟩

/-! ### Runs -/

theorem run_succ_of_step {M : Host.Core} {u v : M.State} (h : M.step u = .next v) (n : Nat) :
    M.run (n + 1) u = M.run n v := by
  rw [Host.Core.run, h]

/-- A run of as many steps as the agenda has turns, and `n` more, comes to the state where the agenda is exhausted and
goes on from there. -/
theorem run_uses_agenda (s : State) (n : Nat) :
    ∃ t : State, t.agenda = [] ∧
      Host.Core.run core (s.agenda.length + n) s = Host.Core.run core n t := by
  induction h : s.agenda generalizing s with
  | nil => exact ⟨s, h, by rw [List.length_nil, Nat.zero_add]⟩
  | cons turn rest ih =>
    obtain ⟨u, hstep, hrest⟩ := step_uses_turn h
    obtain ⟨t, hnil, hrun⟩ := ih u hrest
    refine ⟨t, hnil, ?_⟩
    rw [List.length_cons, Nat.add_right_comm]
    exact (run_succ_of_step (M := core) hstep _).trans hrun

/-- From an exhausted agenda, as many steps as engines are pending leave none pending. -/
theorem run_drains {n : Nat} (h : s.agenda = []) (hn : pendingCount s ≤ n) :
    ∃ t : State, Host.Core.run core n s = .next t ∧ t.agenda = [] ∧ pendingCount t = 0 := by
  induction n generalizing s with
  | zero => exact ⟨s, rfl, h, Nat.le_zero.1 hn⟩
  | succ n ih =>
    obtain ⟨u, hstep, hnil, hcount⟩ := step_drains h
    obtain ⟨t, hrun, hend⟩ := ih hnil (by omega)
    exact ⟨t, (run_succ_of_step (M := core) hstep n).trans hrun, hend⟩

end Sys2Proof.Machine

namespace Sys2Proof.Proofs

open Sys2Proof.Machine

/-- Settles O6. `run_uses_agenda` exhausts the agenda, and two more steps drain the two engines by `run_drains`. -/
theorem pendingCommandsComplete : Obligations.PendingCommandsComplete := by
  unfold Obligations.PendingCommandsComplete
  intro s
  obtain ⟨u, hnil, hrun⟩ := run_uses_agenda s 2
  obtain ⟨t, hdrain, hagenda, hcount⟩ := run_drains hnil (pendingCount_le_two u)
  exact ⟨t, hrun.trans hdrain, hagenda, (pendingCount_eq_zero_iff t).1 hcount⟩

end Sys2Proof.Proofs
end

