-- ==== Sys2Proof/Proofs/EngineOrder.lean ====
section
/-! The two engines work on separate parts of the state. The HAL parts of the panel commands neither read nor write what
CONVERT may change, and CONVERT neither reads nor writes what a panel command may change, so a CONVERT and a panel
command without MEM operands commute (42_convert.md R157; 60_exceptions.md R226). -/

namespace Sys2Proof.Machine

open Sys2Proof.Safety

variable {s t : State} {i : Instr}

/-! ### The engines' parts of the state -/

/-- `s`, but what a CONVERT may change is as in `u`: `ConvertFrame` as an update. -/
def withConvertFields (u s : State) : State :=
  { s with
    mem := u.mem, faults := u.faults, icOutLen := u.icOutLen, icDone := u.icDone,
    icErr := u.icErr, icCause := u.icCause, icPend := u.icPend, fsCur := u.fsCur,
    fsNxt := u.fsNxt }

/-- `s`, but what a panel command may change is as in `u`: `PanelFrame` as an update. -/
def withPanelFields (u s : State) : State :=
  { s with
    psDone := u.psDone, psErr := u.psErr, psStage := u.psStage, psSt := u.psSt,
    psPend := u.psPend, trace := u.trace, rstOut := u.rstOut, dcOut := u.dcOut,
    acks := u.acks, busyReads := u.busyReads, draws := u.draws }

theorem convertFrame_iff : ConvertFrame s t ↔ t = withConvertFields t s := Iff.rfl

theorem panelFrame_iff : PanelFrame s t ↔ t = withPanelFields t s := Iff.rfl

/-- The two parts have no field in common. -/
theorem withPanelFields_withConvertFields (u v s : State) :
    withPanelFields v (withConvertFields u s) = withConvertFields u (withPanelFields v s) := rfl

/-! ### CONVERT and the panel's part -/

theorem convertCheck_withPanelFields (u s : State) :
    convertCheck (withPanelFields u s) = convertCheck s := rfl

theorem readSource_withPanelFields (u s : State) :
    readBytes (withPanelFields u s).mem (srcBase (withPanelFields u s))
      (srcLen (withPanelFields u s)) = readBytes s.mem (srcBase s) (srcLen s) := rfl

/-- CONVERT neither reads nor writes what a panel command may change. -/
theorem convertStep_withPanelFields (u s : State) :
    convertStep (withPanelFields u s) = withPanelFields u (convertStep s) := by
  unfold convertStep
  rw [convertCheck_withPanelFields]
  cases convertCheck s with
  | error e => rfl
  | ok m =>
    dsimp only
    rw [readSource_withPanelFields]
    cases readBytes s.mem (srcBase s) (srcLen s) with
    | error a => rfl
    | ok src => rfl

/-- The frame of every CONVERT, the faulting one too. -/
theorem convertFrame_convertStep (s : State) : ConvertFrame s (convertStep s) := by
  obtain ⟨e, c, -, h⟩ | ⟨m, a, -, -, h⟩ | ⟨m, src, -, -, h⟩ := convertStep_cases s <;> rw [h] <;> rfl

/-! ### The HAL and CONVERT's part -/

/-- The run with `f` applied to the state it ends in. -/
def HalRun.map (f : State → State) : HalRun → HalRun
  | .done s => .done (f s)
  | .raised e g s => .raised e g (f s)

/-- The part `P` of a panel command neither reads nor writes what CONVERT may change. -/
def IgnoresConvert (P : State → HalRun) : Prop :=
  ∀ u s, P (withConvertFields u s) = (P s).map (withConvertFields u)

theorem map_halThen {f : State → State} {r r' : HalRun} {k k' : State → HalRun}
    (hr : r' = r.map f) (hk : ∀ t, k' (f t) = (k t).map f) :
    halThen r' k' = (halThen r k).map f := by
  rw [hr]
  cases r with
  | done t => exact hk t
  | raised e g t => rfl

theorem takeAck_withConvertFields (u s : State) :
    takeAck (withConvertFields u s) = withConvertFields u (takeAck s) := by
  rw [takeAck, takeAck, show (withConvertFields u s).acks = s.acks from rfl]
  cases s.acks <;> rfl

theorem takeBusy_withConvertFields (u s : State) :
    takeBusy (withConvertFields u s) = withConvertFields u (takeBusy s) := by
  rw [takeBusy, takeBusy, show (withConvertFields u s).busyReads = s.busyReads from rfl]
  cases s.busyReads <;> rfl

/-- A HAL call does the same with its answer, whatever CONVERT has changed. -/
theorem perform_withConvertFields (u s : State) (e : HalEvent) :
    perform (withConvertFields u s) e = withConvertFields u (perform s e) := by
  cases e with
  | spiWrite b a => rw [perform, perform, takeAck_withConvertFields]; rfl
  | pinWrite p l a =>
    cases a <;> cases p <;> rw [perform, perform, takeAck_withConvertFields] <;> rfl
  | pinRead a => rw [perform, perform, takeBusy_withConvertFields]; rfl
  | delay ms => rfl

theorem spiWrite_ignoresConvert (g : Stage) (b : Byte) : IgnoresConvert (spiWrite g b) := by
  intro u s
  have hack : nextAck (withConvertFields u s) = nextAck s := rfl
  unfold spiWrite
  rw [hack]
  cases nextAck s with
  | ok => exact congrArg _ (perform_withConvertFields u s (.spiWrite b .ok))
  | fail => exact congrArg _ (perform_withConvertFields u s (.spiWrite b .fail))

theorem pinWrite_ignoresConvert (g : Stage) (p : OutPin) (l : Level) :
    IgnoresConvert (pinWrite g p l) := by
  intro u s
  have hack : nextAck (withConvertFields u s) = nextAck s := rfl
  unfold pinWrite
  rw [hack]
  cases nextAck s with
  | ok => exact congrArg _ (perform_withConvertFields u s (.pinWrite p l .ok))
  | fail => exact congrArg _ (perform_withConvertFields u s (.pinWrite p l .fail))

theorem halDelay_ignoresConvert (ms : Nat) : IgnoresConvert (halDelay ms) := fun _ _ => rfl

/-! ### The primitives -/

theorem sendBytes_ignoresConvert (g : Stage) (bs : List Byte) : IgnoresConvert (sendBytes g bs) := by
  induction bs with
  | nil => exact fun _ _ => rfl
  | cons b bs ih => exact fun u s => map_halThen (spiWrite_ignoresConvert g b u s) (ih u)

theorem sendCommand_ignoresConvert (g : Stage) (opc : Byte) (bs : List Byte) :
    IgnoresConvert (sendCommand g opc bs) := fun u s =>
  map_halThen (pinWrite_ignoresConvert g .dc s.cfg.dcCmdLevel u s) fun t =>
    map_halThen (spiWrite_ignoresConvert g opc u t) fun t =>
      map_halThen (pinWrite_ignoresConvert g .dc (~~~ s.cfg.dcCmdLevel) u t)
        (sendBytes_ignoresConvert g bs u)

theorem resetPulse_ignoresConvert : IgnoresConvert resetPulse := fun u s =>
  map_halThen (pinWrite_ignoresConvert .reset .rst s.cfg.rstActiveLevel u s) fun t =>
    map_halThen (halDelay_ignoresConvert s.cfg.resetPulseMs u t)
      (pinWrite_ignoresConvert .reset .rst (~~~ s.cfg.rstActiveLevel) u)

theorem pollRead_ignoresConvert (g : Stage) {k : State → HalRun} (hk : IgnoresConvert k) :
    IgnoresConvert (pollRead g k) := by
  intro u s
  have hbusy : nextBusy (withConvertFields u s) = nextBusy s := rfl
  have hcfg : (withConvertFields u s).cfg = s.cfg := rfl
  have hread (a : BusyAnswer) : emit (.pinRead a) (takeBusy (withConvertFields u s))
      = withConvertFields u (emit (.pinRead a) (takeBusy s)) :=
    perform_withConvertFields u s (.pinRead a)
  unfold pollRead
  rw [hbusy, hcfg]
  cases nextBusy s with
  | fail => exact congrArg _ (hread .fail)
  | level l =>
    dsimp only
    rw [hread]
    split
    · rfl
    · exact hk u _

theorem pollLoop_ignoresConvert (e : Err) (g : Stage) (n : Nat) :
    IgnoresConvert (pollLoop e g n) := by
  induction n with
  | zero => exact pollRead_ignoresConvert g (k := .raised e g) fun _ _ => rfl
  | succ n ih =>
    exact pollRead_ignoresConvert g fun u s =>
      map_halThen (halDelay_ignoresConvert s.cfg.busyPollMs u s) (ih u)

theorem busyPoll_ignoresConvert (e : Err) (g : Stage) : IgnoresConvert (busyPoll e g) :=
  fun u s => pollLoop_ignoresConvert e g (s.cfg.busyMaxPolls - 1) u s

theorem execStep_ignoresConvert (e : Err) (g : Stage) (p : PanelStep) :
    IgnoresConvert (execStep e g p) := by
  cases p with
  | cmd opc bs => exact sendCommand_ignoresConvert g opc bs
  | delay ms => exact halDelay_ignoresConvert ms
  | waitBusy => exact busyPoll_ignoresConvert e g

theorem execSteps_ignoresConvert (e : Err) (g : Stage) (ps : List PanelStep) :
    IgnoresConvert (execSteps e g ps) := by
  induction ps with
  | nil => exact fun _ _ => rfl
  | cons p ps ih => exact fun u s => map_halThen (execStep_ignoresConvert e g p u s) (ih u)

/-! ### The commands -/

theorem initializeRun_ignoresConvert : IgnoresConvert initializeRun := fun u s =>
  map_halThen (resetPulse_ignoresConvert u s) fun t =>
    map_halThen (execSteps_ignoresConvert .initTimeout .init t.cfg.initSeq u t) fun t =>
      map_halThen (execSteps_ignoresConvert .initTimeout .lutLoad t.cfg.lutSeq u t)
        (busyPoll_ignoresConvert .initTimeout .busyPoll u)

theorem transferRun_ignoresConvert (bs : List Byte) : IgnoresConvert (transferRun bs) := fun u s =>
  map_halThen (sendCommand_ignoresConvert .dataXfer s.cfg.opcData bs u s) fun t =>
    map_halThen (sendCommand_ignoresConvert .refresh t.cfg.opcRefresh [] u t)
      (busyPoll_ignoresConvert .busyTimeout .busyPoll u)

theorem sleepSeq_ignoresConvert : IgnoresConvert sleepSeq := fun u s =>
  sendCommand_ignoresConvert .sleep s.cfg.opcSleep s.cfg.sleepPayload u s

theorem halPart_ignoresConvert (bytes : List Byte) (i : Instr) : IgnoresConvert (halPart bytes i) := by
  cases i with
  | icConvert => exact fun _ _ => rfl
  | psInitialize => exact initializeRun_ignoresConvert
  | psDisplay => exact transferRun_ignoresConvert bytes
  | psClear => exact fun u s => transferRun_ignoresConvert (whiteBuffer s.cfg) u s
  | psSleep => exact sleepSeq_ignoresConvert
  | psTeardown => exact sleepSeq_ignoresConvert

theorem psFinish_map_withConvertFields (i : Instr) (st : HandleState) (u : State) (r : HalRun) :
    psFinish i st (r.map (withConvertFields u)) = withConvertFields u (psFinish i st r) := by
  cases r <;> rfl

/-- The panel commands that read no operand from MEM: all but DISPLAY (41_panel_ops.md R124). -/
def memlessCommands : List Instr := [.psInitialize, .psClear, .psSleep, .psTeardown]

/-- The end of a panel command without MEM operands, as a function of the state it starts in: its HAL part,
INVALID_STATE, or TEARDOWN's success without HAL calls (41_panel_ops.md R125 to R129). -/
inductive MemlessEnd (i : Instr) : (State → State) → Prop
  | hal : MemlessEnd i fun s => psFinish i (stateAfterSuccess i) (halPart [] i s)
  | refused : MemlessEnd i (psRaise i .invalidState .validate)
  | silent : MemlessEnd i (psCompleteOk .uninitialized)

/-- PS_ST alone decides which of its ends such a command has. -/
theorem exec_memless (hi : i ∈ memlessCommands) (st : HandleState) :
    ∃ f, MemlessEnd i f ∧ ∀ s : State, s.psSt = st → exec i s = .next (f s) := by
  simp only [memlessCommands, List.mem_cons, List.not_mem_nil, or_false] at hi
  by_cases hst : st = .idle
  · subst hst
    refine ⟨_, .hal, fun s hs => exec_of_reachesHal ?_⟩
    obtain rfl | rfl | rfl | rfl := hi
    · trivial
    · exact hs
    · exact hs
    · exact hs
  · obtain rfl | rfl | rfl | rfl := hi
    · exact ⟨_, .hal, fun s _ => rfl⟩
    · exact ⟨_, .refused, fun s hs => congrArg _ (clearStep_of_not_idle (hs ▸ hst))⟩
    · exact ⟨_, .refused, fun s hs => congrArg _ (sleepStep_of_not_idle (hs ▸ hst))⟩
    · exact ⟨_, .silent, fun s hs => congrArg _ (teardownStep_of_not_idle (hs ▸ hst))⟩

theorem MemlessEnd.panelFrame {f : State → State} (h : MemlessEnd i f) (s : State) :
    PanelFrame s (f s) := by
  cases h with
  | hal => exact panelFrame_psFinish (halStep_halPart ..).1 ..
  | refused => exact panelFrame_psRaise (HalStep.refl s).1 ..
  | silent => exact panelFrame_psCompleteOk (HalStep.refl s).1 _

theorem MemlessEnd.withConvertFields {f : State → State} (h : MemlessEnd i f) (u s : State) :
    f (withConvertFields u s) = Machine.withConvertFields u (f s) := by
  cases h with
  | hal =>
    dsimp only
    rw [halPart_ignoresConvert, psFinish_map_withConvertFields]
  | refused => rfl
  | silent => rfl

end Sys2Proof.Machine

namespace Sys2Proof.Proofs

open Sys2Proof.Machine

/-- Settles O59. By their frames CONVERT ends in `withConvertFields a s` and the panel command in `withPanelFields b s`.
Each engine's work takes no notice of the other's fields, so in either order the two updates come together in
`withConvertFields a b`. -/
theorem enginesCompleteInEitherOrder : Obligations.EnginesCompleteInEitherOrder := by
  unfold Obligations.EnginesCompleteInEitherOrder
  intro s i hi
  obtain ⟨f, hend, hexec⟩ := exec_memless hi s.psSt
  have hic : convertStep s = withConvertFields (convertStep s) s :=
    convertFrame_iff.1 (convertFrame_convertStep s)
  have hps : f s = withPanelFields (f s) s := panelFrame_iff.1 (hend.panelFrame s)
  refine ⟨convertStep s, f s, withConvertFields (convertStep s) (f s), rfl, hexec s rfl, ?panelLast,
    congrArg Host.Outcome.next ?convertLast⟩
  case panelLast =>
    rw [← hend.withConvertFields, ← hic]
    exact hexec (convertStep s) (by rw [hic]; rfl)
  case convertLast =>
    calc convertStep (f s)
        = convertStep (withPanelFields (f s) s) := by rw [← hps]
      _ = withPanelFields (f s) (convertStep s) := convertStep_withPanelFields _ s
      _ = withPanelFields (f s) (withConvertFields (convertStep s) s) := by rw [← hic]
      _ = withConvertFields (convertStep s) (withPanelFields (f s) s) :=
          withPanelFields_withConvertFields ..
      _ = withConvertFields (convertStep s) (f s) := by rw [← hps]

end Sys2Proof.Proofs
end

