-- ==== Sys2Proof/Proofs/StatusCodes.lean ====
section
/-! The codes of STATUS.ERR and PS_STATUS.STAGE (60_exceptions.md R212, R214). -/

namespace Sys2Proof.Proofs

/-- Settles O48: each entry of the two tables evaluates to its place in them. -/
theorem errorAndStageCodes : Obligations.ErrorAndStageCodes := by
  unfold Obligations.ErrorAndStageCodes
  exact ⟨rfl, rfl⟩

end Sys2Proof.Proofs
end

