-- ==== Sys2Proof/Proofs/DisplayOrder.lean ====
section
/-! CONVERT and DISPLAY commute when DST_REGION and the buffer share no address: a CONVERT writes MEM only in
DST_REGION, so DISPLAY sees the same buffer before and after it (20_memory.md R69; 42_convert.md R157;
70_reset_and_hazards.md R242). -/

namespace Sys2Proof.Machine

open Sys2Proof.Safety

variable {s : State} {m : ColorMode} {src : List Byte} {x : Nat}

/-! ### What CONVERT leaves of MEM -/

/-- The target of a CONVERT that passes its checks lies inside DST_REGION (42_convert.md R152, check 8). -/
theorem targetLen_le_dstCap (h : convertCheck s = .ok m) : targetLen s ≤ s.icDstCap.toNat := by
  obtain ⟨-, -, hchecks⟩ := (convertCheck_ok_iff s m).1 h
  obtain ⟨-, -, -, -, -, -, -, -, hcap, -⟩ := (convertChecksFrom3_none_iff m s).1 hchecks
  rw [targetLen_eq (icMode_of_convertCheck_ok h)]
  exact hcap

/-- Every CONVERT, the failing and the faulting one too, leaves MEM outside DST_REGION alone (42_convert.md R157). -/
theorem read_convertStep_outside (h : ¬ InTargetRegion s x) :
    Memory.read (convertStep s).mem x = Memory.read s.mem x := by
  obtain ⟨e, c, -, hstep⟩ | ⟨m, a, -, -, hstep⟩ | ⟨m, src, hc, -, hstep⟩ := convertStep_cases s <;>
    rw [hstep]
  · rfl
  · rfl
  · have hcap := targetLen_le_dstCap hc
    unfold InTargetRegion at h
    exact read_convertStore_outside hc (by omega)

theorem readBytes_congr {m m' : Memory} {a n : Nat}
    (h : ∀ x, a ≤ x → x < a + n → Memory.read m x = Memory.read m' x) :
    readBytes m a n = readBytes m' a n := by
  induction n generalizing a with
  | zero => rfl
  | succ n ih =>
    rw [readBytes, readBytes, h a le_rfl (by omega),
      ih fun x hlo hhi => h x (by omega) (by omega)]

/-- CONVERT does not change what DISPLAY reads when the regions share no address. -/
theorem readBuffer_convertStep (h : ¬ TargetMeetsBuffer s) :
    readBytes (convertStep s).mem (bufBase s) (bufLen s) = readBytes s.mem (bufBase s) (bufLen s) :=
  readBytes_congr fun x hlo hhi =>
    read_convertStep_outside fun htarget => h ⟨x, htarget, hlo, hhi⟩

/-! ### DISPLAY's end -/

/-- How DISPLAY ends, from its validation and what it read of its buffer: refused, an unwritten byte, or the HAL part
(41_panel_ops.md R123, R124, R126). -/
def displayEnd : Option Err → Except Nat (List Byte) → State → State
  | some e, _ => psRaise .psDisplay e .validate
  | none, .error a => psUnwritten a
  | none, .ok bytes => fun s => psFinish .psDisplay .idle (transferRun bytes s)

theorem displayStep_eq_displayEnd (s : State) :
    displayStep s = displayEnd (displayCheck s) (readBytes s.mem (bufBase s) (bufLen s)) s := by
  obtain ⟨e, hc, hstep⟩ | ⟨a, hc, hr, hstep⟩ | ⟨bytes, hc, hr, hstep⟩ := displayStep_cases s
  · rw [hstep, hc]; rfl
  · rw [hstep, hc, hr]; rfl
  · rw [hstep, hc, hr]; rfl

/-- CONVERT changes nothing DISPLAY's validation or its operands use. -/
theorem displayOperands_convertStep (s : State) :
    displayCheck (convertStep s) = displayCheck s ∧ bufBase (convertStep s) = bufBase s
      ∧ bufLen (convertStep s) = bufLen s := by
  rw [convertFrame_iff.1 (convertFrame_convertStep s)]
  exact ⟨rfl, rfl, rfl⟩

/-- After a CONVERT into another region DISPLAY ends as it would have before. -/
theorem displayStep_convertStep (h : ¬ TargetMeetsBuffer s) :
    displayStep (convertStep s)
      = displayEnd (displayCheck s) (readBytes s.mem (bufBase s) (bufLen s)) (convertStep s) := by
  obtain ⟨hcheck, hbase, hlen⟩ := displayOperands_convertStep s
  rw [displayStep_eq_displayEnd, hcheck, hbase, hlen, readBuffer_convertStep h]

/-! ### CONVERT commutes with each end of DISPLAY -/

/-- CONVERT commutes with an update that keeps to the panel's part of the state and takes no notice of CONVERT's. -/
theorem convertStep_comm {f : State → State} (hframe : ∀ s, PanelFrame s (f s))
    (hignores : ∀ u s, f (withConvertFields u s) = withConvertFields u (f s)) (s : State) :
    convertStep (f s) = f (convertStep s) := by
  have hic : convertStep s = withConvertFields (convertStep s) s :=
    convertFrame_iff.1 (convertFrame_convertStep s)
  have hps : f s = withPanelFields (f s) s := panelFrame_iff.1 (hframe s)
  calc convertStep (f s)
      = convertStep (withPanelFields (f s) s) := by rw [← hps]
    _ = withPanelFields (f s) (convertStep s) := convertStep_withPanelFields _ s
    _ = withPanelFields (f s) (withConvertFields (convertStep s) s) := by rw [← hic]
    _ = withConvertFields (convertStep s) (withPanelFields (f s) s) :=
        withPanelFields_withConvertFields ..
    _ = f (withConvertFields (convertStep s) s) := by rw [← hps, hignores]
    _ = f (convertStep s) := by rw [← hic]

theorem convertStep_of_error {e : Err} {c : BitVec 4} (h : convertCheck s = .error (e, c)) :
    convertStep s = icRaiseConvert e c s :=
  Host.Outcome.next.inj (exec_icConvert_of_error h)

theorem convertStep_of_ok (h : convertCheck s = .ok m)
    (hr : readBytes s.mem (srcBase s) (srcLen s) = .ok src) :
    convertStep s = convertStore m src s := by
  unfold convertStep
  simp only [h, hr]

/-- CONVERT commutes with DISPLAY's fault only when it records none of its own, since FAULTS keeps the order of two
faults. -/
theorem convertStep_psUnwritten (hfree : (convertStep s).faults = s.faults) (a : Nat) :
    convertStep (psUnwritten a s) = psUnwritten a (convertStep s) := by
  obtain ⟨e, c, hc, hstep⟩ | ⟨m, x, -, -, hstep⟩ | ⟨m, src, hc, hr, hstep⟩ := convertStep_cases s
  · rw [hstep]
    exact convertStep_of_error (s := psUnwritten a s) hc
  · rw [hstep, icUnwritten_faults] at hfree
    simp at hfree
  · rw [hstep]
    exact convertStep_of_ok (s := psUnwritten a s) hc hr

/-- A fault-free CONVERT commutes with every end of DISPLAY. -/
theorem convertStep_displayEnd (hfree : (convertStep s).faults = s.faults) (check : Option Err)
    (buffer : Except Nat (List Byte)) :
    convertStep (displayEnd check buffer s) = displayEnd check buffer (convertStep s) := by
  cases check with
  | some e =>
    exact convertStep_comm (f := psRaise .psDisplay e .validate)
      (fun t => panelFrame_psRaise (HalStep.refl t).1 ..) (fun _ _ => rfl) s
  | none =>
    cases buffer with
    | error a => exact convertStep_psUnwritten hfree a
    | ok bytes =>
      exact convertStep_comm (f := fun t => psFinish .psDisplay .idle (transferRun bytes t))
        (fun t => panelFrame_psFinish (halStep_transferRun bytes t).1 ..)
        (fun u t => by
          rw [transferRun_ignoresConvert bytes, psFinish_map_withConvertFields]) s

end Sys2Proof.Machine

namespace Sys2Proof.Proofs

open Sys2Proof.Machine

/-- Settles O60. By `displayStep_convertStep` DISPLAY ends in the same way before and after the CONVERT, and a
fault-free CONVERT commutes with that end. -/
theorem displayIgnoresDisjointConvert : Obligations.DisplayIgnoresDisjointConvert := by
  unfold Obligations.DisplayIgnoresDisjointConvert
  intro s a hdisjoint hexec hfree
  obtain rfl : convertStep s = a := Host.Outcome.next.inj hexec
  refine ⟨displayStep s, displayStep (convertStep s), rfl, rfl, congrArg Host.Outcome.next ?_⟩
  rw [displayStep_convertStep hdisjoint, displayStep_eq_displayEnd s]
  exact convertStep_displayEnd hfree ..

end Sys2Proof.Proofs
end

