-- ==== Sys2Proof/Proofs/RegisterHazards.lean ====
section
/-! The hazards of the host's register writes: a write to a pending engine, which read-only registers ignore, and an
issue that meets the other engine's region (70_reset_and_hazards.md R240, R242). -/

namespace Sys2Proof.Machine

open Sys2Proof.Safety

variable {s : State} {off : Offset} {r : Reg} {w : Word}

/-! ### The registers behind a list of offsets -/

/-- An offset among those of the registers that `p` selects is the offset of one of them. -/
theorem exists_reg_of_mem_offsets {p : Reg → Bool}
    (h : off.toNat ∈ (allRegs.filter p).map fun r => (regOffset r).toNat) :
    ∃ r, p r = true ∧ regOffset r = off := by
  obtain ⟨r, hr, hoff⟩ := List.mem_map.1 h
  exact ⟨r, (List.mem_filter.1 hr).2, BitVec.eq_of_toNat_eq hoff⟩

/-! ### The outcomes of a write -/

@[simp] theorem regStore_faults (r : Reg) (w : Word) (s : State) :
    (regStore r w s).faults = s.faults := by cases r <;> rfl

theorem regStore_of_readOnly (hr : regAccess r = .ro) (w : Word) (s : State) :
    regStore r w s = s := by
  cases r with
  | icStatus | icOutLen | psStatus | psExpLen | psPanelDim | psPanelMode => rfl
  | icCmd | icSrcDim | icSrcFmt | icSrcBase | icDstDim | icMode | icDstBase | icDstCap | psCmd
  | psBufBase | psBufLen => cases hr

theorem crossEngineHazard_of_readOnly (hr : regAccess r = .ro) (w : Word) (s : State) :
    crossEngineHazard r w s = false := by
  unfold crossEngineHazard
  split
  · cases hr
  · cases hr
  · rfl

/-- A read-only register ignores a write, whatever is pending (10_state.md R23; R240). -/
theorem hostStep_regWrite_readOnly (hr : regAccess r = .ro) (w : Word) (s : State) :
    hostStep (.regWrite (regOffset r) w) s = s := by
  have hpending : regWriteHazard r s = false := by simp [regWriteHazard, hr]
  change regWriteStep (regOffset r) w s = s
  rw [regWriteStep, regAt_regOffset]
  simp only [hpending, crossEngineHazard_of_readOnly hr, Bool.false_eq_true, if_false,
    regStore_of_readOnly hr]

/-- An issue that meets the other engine's region (R242). -/
theorem hostStep_regWrite_crossEngine (hp : enginePending (regEngine r) s = false)
    (hcross : crossEngineHazard r w s = true) :
    hostStep (.regWrite (regOffset r) w) s =
      recordFault (.hazard .crossEngine (regOffset r).toNat) s := by
  change regWriteStep (regOffset r) w s = _
  rw [regWriteStep, regAt_regOffset]
  simp only [regWriteHazard_of_not_pending hp, hcross, Bool.false_eq_true, if_false, if_true]

end Sys2Proof.Machine

namespace Sys2Proof.Proofs

open Sys2Proof.Machine

/-- Settles O51. Each list of offsets is that of the registers of one engine and access kind, and the write to such a
register has one outcome. -/
theorem writeToPendingEngineIsHazard : Obligations.WriteToPendingEngineIsHazard := by
  unfold Obligations.WriteToPendingEngineIsHazard
  intro s off w
  refine ⟨fun hp hoff => ?icHazard, fun hp hoff => ?psHazard, fun hoff => ?readOnly,
    fun hidle hoff => ?icOperand, fun hidle hoff => ?psOperand⟩
  case icHazard =>
    obtain ⟨r, hr, rfl⟩ := exists_reg_of_mem_offsets
      (p := fun r => decide (regAccess r ≠ .ro ∧ regEngine r = .ic)) hoff
    obtain ⟨hwritable, hic⟩ := of_decide_eq_true hr
    exact hostStep_regWrite_pending hwritable (hic ▸ enginePending_ic_of_pending hp) w
  case psHazard =>
    obtain ⟨r, hr, rfl⟩ := exists_reg_of_mem_offsets
      (p := fun r => decide (regAccess r ≠ .ro ∧ regEngine r = .ps)) hoff
    obtain ⟨hwritable, hps⟩ := of_decide_eq_true hr
    exact hostStep_regWrite_pending hwritable (hps ▸ enginePending_ps_of_pending hp) w
  case readOnly =>
    obtain ⟨r, hr, rfl⟩ := exists_reg_of_mem_offsets
      (p := fun r => decide (regAccess r = .ro)) hoff
    exact hostStep_regWrite_readOnly (of_decide_eq_true hr) w s
  case icOperand =>
    obtain ⟨r, hr, rfl⟩ := exists_reg_of_mem_offsets
      (p := fun r => decide (regAccess r = .rw ∧ regEngine r = .ic)) hoff
    obtain ⟨hrw, hic⟩ := of_decide_eq_true hr
    rw [hostStep_regWrite_operand hrw (hic ▸ enginePending_ic_of_none hidle), regStore_faults]
  case psOperand =>
    obtain ⟨r, hr, rfl⟩ := exists_reg_of_mem_offsets
      (p := fun r => decide (regAccess r = .rw ∧ regEngine r = .ps)) hoff
    obtain ⟨hrw, hps⟩ := of_decide_eq_true hr
    rw [hostStep_regWrite_operand hrw (hps ▸ enginePending_ps_of_none hidle), regStore_faults]

/-- Settles O53. Whether an issue is CROSS_ENGINE is `crossEngineHazard_icCmd_iff` and `crossEngineHazard_psCmd_iff`; an
issue that is not takes place. -/
theorem crossEngineIssueIsHazard : Obligations.CrossEngineIssueIsHazard := by
  unfold Obligations.CrossEngineIssueIsHazard
  refine fun s => ⟨fun hidle hp hcmd => ?convert, fun hidle hp hcmd => ?display⟩
  case convert =>
    have hic := enginePending_ic_of_none hidle
    have hcross := crossEngineHazard_icCmd_iff 1 s
    refine ⟨fun hmeets => ?_, fun hapart => ?_⟩
    · exact hostStep_regWrite_crossEngine (r := .icCmd) hic (hcross.2 ⟨rfl, hp, hcmd, hmeets⟩)
    · refine hostStep_regWrite_of_no_hazard (r := .icCmd) hic (Bool.eq_false_iff.2 fun h => ?_)
      obtain ⟨-, -, -, hmeets⟩ := hcross.1 h
      exact hapart hmeets
  case display =>
    have hps := enginePending_ps_of_none hidle
    have hcross := crossEngineHazard_psCmd_iff 2 s
    refine ⟨fun hmeets => ?_, fun hapart => ?_⟩
    · exact hostStep_regWrite_crossEngine (r := .psCmd) hps (hcross.2 ⟨rfl, hp, hcmd, hmeets⟩)
    · refine hostStep_regWrite_of_no_hazard (r := .psCmd) hps (Bool.eq_false_iff.2 fun h => ?_)
      obtain ⟨-, -, -, hmeets⟩ := hcross.1 h
      exact hapart hmeets

end Sys2Proof.Proofs
end

