-- ==== Sys2Proof/Proofs/MemoryHazards.lean ====
section
/-! The host's MEM accesses while commands are pending: which addresses are in flight, on the numbers in the registers,
and what an access to one of them does (20_memory.md R69; 70_reset_and_hazards.md R241). -/

namespace Sys2Proof.Machine

open Sys2Proof.Safety

variable {s : State} {a : Nat}

theorem memWriteHazard_iff (a : Nat) (s : State) :
    memWriteHazard a s = true ↔
      ((s.icPend = .pending ∧ s.icCmdl.toNat = 1) ∧ (InSourceRegion s a ∨ InTargetRegion s a))
        ∨ ((s.psPend = .pending ∧ s.psCmdl.toNat = 2) ∧ InBufferRegion s a) := by
  simp only [memWriteHazard, Bool.or_eq_true, Bool.and_eq_true, convertPending_iff,
    displayPending_iff, inRegion_srcRegion_iff, inRegion_dstRegion_iff, inRegion_bufRegion_iff]

theorem memReadHazard_iff (a : Nat) (s : State) :
    memReadHazard a s = true ↔
      (s.icPend = .pending ∧ s.icCmdl.toNat = 1) ∧ InTargetRegion s a := by
  rw [memReadHazard, Bool.and_eq_true, convertPending_iff, inRegion_dstRegion_iff]

theorem hostStep_memWrite_inFlight (ha : a < s.cfg.memSize) (hh : memWriteHazard a s = true)
    (b : Byte) :
    hostStep (.memWrite a b) s = { s with faults := s.faults ++ [.hazard .memInFlight a] } := by
  obtain ⟨h, -⟩ | ⟨-, -, e⟩ | ⟨-, h, -⟩ := memWriteStep_cases a b s
  · omega
  · exact e
  · simp [hh] at h

theorem hostStep_memRead_inFlight (ha : a < s.cfg.memSize) (hh : memReadHazard a s = true) :
    hostStep (.memRead a) s = { s with
      faults := s.faults ++ [.hazard .memInFlight a], replies := s.replies ++ [.byte 0] } := by
  obtain ⟨h, -⟩ | ⟨-, -, e⟩ | ⟨-, h, -⟩ | ⟨-, h, -⟩ := memReadStep_cases a s
  · omega
  · exact e
  · simp [hh] at h
  · simp [hh] at h

end Sys2Proof.Machine

namespace Sys2Proof.Proofs

open Sys2Proof.Machine

/-- Settles O52: `memWriteHazard_iff` and `memReadHazard_iff` say which accesses are in flight, and every other access
inside MEM takes place. -/
theorem memAccessInFlightIsHazard : Obligations.MemAccessInFlightIsHazard := by
  unfold Obligations.MemAccessInFlightIsHazard
  intro s a b ha
  dsimp only
  rw [← memWriteHazard_iff, ← memReadHazard_iff, Bool.not_eq_true, Bool.not_eq_true]
  exact ⟨fun hflight => hostStep_memWrite_inFlight ha hflight b,
    fun hfree => hostStep_memWrite_inside ha hfree b,
    fun hflight => hostStep_memRead_inFlight ha hflight,
    fun hfree => ⟨fun _ => hostStep_memRead_written ha hfree,
      hostStep_memRead_unwritten ha hfree⟩⟩

end Sys2Proof.Proofs
end

