-- ==== Sys2Proof/Proofs/HostFaults.lean ====
section
/-! Every host transaction either keeps FAULTS or is refused: a refused one appends one fault and has no other effect
but a read's reply, and the fault is a hazard only while an engine is pending (60_exceptions.md R217;
70_reset_and_hazards.md R244, R246). -/

namespace Sys2Proof.Machine

variable {s t : State} {f : Fault} {r : Reg} {w : Word} {a : Nat}

/-! ### A hazard needs a pending engine -/

/-- Some engine has a pending command. -/
def SomePending (s : State) : Prop := s.icPend = .pending ∨ s.psPend = .pending

theorem somePending_of_enginePending {e : Engine} (h : enginePending e s = true) :
    SomePending s := by
  cases e with
  | ic => exact .inl (of_decide_eq_true h)
  | ps => exact .inr (of_decide_eq_true h)

theorem somePending_of_convertPending (h : convertPending s = true) : SomePending s :=
  .inl ((convertPending_iff s).1 h).1

theorem somePending_of_displayPending (h : displayPending s = true) : SomePending s :=
  .inr ((displayPending_iff s).1 h).1

theorem somePending_of_regWriteHazard (h : regWriteHazard r s = true) : SomePending s :=
  somePending_of_enginePending (Bool.and_eq_true_iff.1 h).2

theorem somePending_of_crossEngineHazard (h : crossEngineHazard r w s = true) : SomePending s := by
  unfold crossEngineHazard at h
  split at h
  · obtain ⟨h, -⟩ := Bool.and_eq_true_iff.1 h
    exact somePending_of_displayPending (Bool.and_eq_true_iff.1 h).2
  · obtain ⟨h, -⟩ := Bool.and_eq_true_iff.1 h
    exact somePending_of_convertPending (Bool.and_eq_true_iff.1 h).2
  · cases h

theorem somePending_of_memWriteHazard (h : memWriteHazard a s = true) : SomePending s := by
  obtain ⟨⟨hp, -⟩, -⟩ | ⟨⟨hp, -⟩, -⟩ := (memWriteHazard_iff a s).1 h
  · exact .inl hp
  · exact .inr hp

theorem somePending_of_memReadHazard (h : memReadHazard a s = true) : SomePending s :=
  somePending_of_convertPending (Bool.and_eq_true_iff.1 h).1

/-! ### The outcomes of a transaction -/

/-- A fault the host may cause in `s`: a hazard only while an engine is pending (R246). -/
def HostFault (s : State) : Fault → Prop
  | .hazard _ _ => SomePending s
  | _ => True

/-- The outcomes of a host transaction, as far as FAULTS goes: a refused write, a refused read, which has a reply, or
one that keeps FAULTS. -/
inductive HostOutcome (s : State) : State → Prop
  | refusedWrite {f : Fault} (caused : HostFault s f) : HostOutcome s (recordFault f s)
  | refusedRead {f : Fault} (caused : HostFault s f) (r : Reply) :
    HostOutcome s (sendReply r (recordFault f s))
  | performed {t : State} (kept : t.faults = s.faults) : HostOutcome s t

theorem hostOutcome_regWriteStep (off : Offset) (w : Word) (s : State) :
    HostOutcome s (regWriteStep off w s) := by
  obtain ⟨-, e⟩ | ⟨r, -, ⟨h, e⟩ | ⟨-, h, e⟩ | ⟨-, -, e⟩⟩ := regWriteStep_cases off w s <;> rw [e]
  · exact .refusedWrite trivial
  · exact .refusedWrite (f := .hazard ..) (somePending_of_regWriteHazard h)
  · exact .refusedWrite (f := .hazard ..) (somePending_of_crossEngineHazard h)
  · exact .performed (regStore_faults r w s)

theorem hostOutcome_regReadStep (off : Offset) (s : State) : HostOutcome s (regReadStep off s) := by
  obtain ⟨-, e⟩ | ⟨r, -, e⟩ := regReadStep_cases off s <;> rw [e]
  · exact .refusedRead (f := .busErrorReg off) trivial _
  · exact .performed rfl

theorem hostOutcome_memWriteStep (a : Nat) (b : Byte) (s : State) :
    HostOutcome s (memWriteStep a b s) := by
  obtain ⟨-, e⟩ | ⟨-, h, e⟩ | ⟨-, -, e⟩ := memWriteStep_cases a b s <;> rw [e]
  · exact .refusedWrite trivial
  · exact .refusedWrite (f := .hazard ..) (somePending_of_memWriteHazard h)
  · exact .performed rfl

theorem hostOutcome_memReadStep (a : Nat) (s : State) : HostOutcome s (memReadStep a s) := by
  obtain ⟨-, e⟩ | ⟨-, h, e⟩ | ⟨-, -, b, -, e⟩ | ⟨-, -, -, e⟩ := memReadStep_cases a s <;> rw [e]
  · exact .refusedRead (f := .busErrorMem a) trivial _
  · exact .refusedRead (f := .hazard ..) (somePending_of_memReadHazard h) _
  · exact .performed rfl
  · exact .refusedRead (f := .unwrittenRead a) trivial _

theorem hostOutcome_otherWidthStep (caused : HostFault s f) (isRead : Bool) (zero : Reply) :
    HostOutcome s (otherWidthStep f isRead zero s) := by
  cases isRead with
  | false => exact .refusedWrite caused
  | true => exact .refusedRead caused zero

theorem hostOutcome_hostStep (x : Transaction) (s : State) : HostOutcome s (hostStep x s) := by
  cases x with
  | regWrite off w => exact hostOutcome_regWriteStep off w s
  | regRead off => exact hostOutcome_regReadStep off s
  | memWrite a b => exact hostOutcome_memWriteStep a b s
  | memRead a => exact hostOutcome_memReadStep a s
  | regOtherWidth off isRead =>
    exact hostOutcome_otherWidthStep (f := .busErrorReg off) trivial isRead _
  | memManyBytes a isRead =>
    exact hostOutcome_otherWidthStep (f := .busErrorMem a) trivial isRead _

/-- A refused transaction appends its fault to FAULTS; any other one keeps FAULTS. -/
theorem HostOutcome.faults (h : HostOutcome s t) :
    t.faults = s.faults ∨ ∃ f, HostFault s f ∧ t.faults = s.faults ++ [f] := by
  cases h with
  | refusedWrite caused => exact .inr ⟨_, caused, rfl⟩
  | refusedRead caused => exact .inr ⟨_, caused, rfl⟩
  | performed kept => exact .inl kept

/-- A transaction that changes FAULTS was refused: FAULTS and the replies apart, the state is as it was (R244). -/
theorem HostOutcome.eq_of_faults_ne (h : HostOutcome s t) (hne : t.faults ≠ s.faults) :
    t = { s with faults := t.faults, replies := t.replies } := by
  cases h with
  | refusedWrite => rfl
  | refusedRead => rfl
  | performed kept => exact absurd kept hne

end Sys2Proof.Machine

namespace Sys2Proof.Proofs

open Sys2Proof.Machine

/-- Settles O57: a fault that a transaction appends is a hazard only while an engine is pending. -/
theorem noHazardWithNothingPending : Obligations.NoHazardWithNothingPending := by
  unfold Obligations.NoHazardWithNothingPending
  intro s x hi hp kind detail hmem
  have hidle : ¬ SomePending s := by simp [SomePending, hi, hp]
  obtain hkept | ⟨f, hcaused, happended⟩ := (hostOutcome_hostStep x s).faults
  · rwa [hkept] at hmem
  · rw [happended, List.mem_append, List.mem_singleton] at hmem
    obtain hold | rfl := hmem
    · exact hold
    · exact absurd hcaused hidle

/-- Settles O58, from the outcomes of a transaction that changes FAULTS. -/
theorem faultingAccessChangesOnlyFaults : Obligations.FaultingAccessChangesOnlyFaults := by
  unfold Obligations.FaultingAccessChangesOnlyFaults
  intro s x hne
  have houtcome := hostOutcome_hostStep x s
  refine ⟨?_, houtcome.eq_of_faults_ne hne⟩
  obtain hkept | ⟨f, -, happended⟩ := houtcome.faults
  · exact absurd hkept hne
  · exact ⟨f, happended⟩

end Sys2Proof.Proofs
end

