-- ==== Sys2Proof/Proofs/Reset.lean ====
section
/-! The state after reset: its registers, the invariant, and the fields of a register that read 0 in every state
(10_state.md R23, R25, R35, R44; 70_reset_and_hazards.md R231). That no step stops stands here too. -/

namespace Sys2Proof.Machine

open Sys2Proof.Safety

/-! ### Reserved fields of the status words -/

/-- The reserved fields of IC_STATUS read 0: the mask has ones at those fields alone (R25). -/
theorem icStatusWord_and_reserved (s : State) : icStatusWord s &&& 0xFF0F00FC = 0 := by
  unfold icStatusWord
  change (_ : BitVec (8 + 4 + 4 + 8 + 6 + 1 + 1))
    &&& (0xFF#8 ++ 0#4 ++ 0xF#4 ++ 0#8 ++ 0x3F#6 ++ 0#1 ++ 0#1) = 0
  simp only [BitVec.and_append, BitVec.and_zero, BitVec.ofNat_eq_ofNat, BitVec.zero_and]
  rfl

/-- The reserved fields of PS_STATUS read 0 (R35). -/
theorem psStatusWord_and_reserved (s : State) : psStatusWord s &&& 0xFF0800FC = 0 := by
  unfold psStatusWord
  change (_ : BitVec (8 + 4 + 1 + 3 + 8 + 6 + 1 + 1))
    &&& (0xFF#8 ++ 0#4 ++ 1#1 ++ 0#3 ++ 0#8 ++ 0x3F#6 ++ 0#1 ++ 0#1) = 0
  simp only [BitVec.and_append, BitVec.and_zero, BitVec.ofNat_eq_ofNat, BitVec.zero_and]
  rfl

theorem regValue_icSrcFmt_lt (s : State) : (regValue .icSrcFmt s).toNat < 4 :=
  toNat_and_srcFmtMask s.icSrcFmt ▸ Nat.mod_lt _ (by decide)

theorem regValue_icMode_lt (s : State) : (regValue .icMode s).toNat < 128 :=
  toNat_and_modeMask s.icMode ▸ Nat.mod_lt _ (by decide)

/-! ### The parameters of the machine -/

theorem leastParams_wf : Config.leastParams.wf = true := by decide

/-- The machine is built from well-formed parameters (00_scope.md R8; log 4). -/
theorem params_wf : Config.params.wf = true := by
  unfold Config.params
  split
  case isTrue h => exact h
  case isFalse => exact leastParams_wf

/-! ### Every step -/

/-- A step takes the next turn, or drains an exhausted agenda (20_memory.md R71; 60_exceptions.md R210). -/
theorem step_next (s : State) : ∃ t, step s = .next t := by
  cases h : s.agenda with
  | nil =>
    obtain ⟨t, hstep, -⟩ := step_drains h
    exact ⟨t, hstep⟩
  | cons turn rest =>
    obtain ⟨t, hstep, -⟩ := step_uses_turn h
    exact ⟨t, hstep⟩

end Sys2Proof.Machine

namespace Sys2Proof.Proofs

open Sys2Proof.Machine Sys2Proof.Safety

/-- Settles O7. The registers of the reset state evaluate to the table's values; the reserved fields of every state are
those of the two masks and the two status words. -/
theorem resetState : Obligations.ResetState := by
  unfold Obligations.ResetState
  refine ⟨fun r hr => ?registers, rfl, rfl, rfl, rfl, rfl, rfl, rfl, rfl, rfl, Memory.read_nil,
    fun s => ⟨regValue_icSrcFmt_lt s, regValue_icMode_lt s, icStatusWord_and_reserved s,
      psStatusWord_and_reserved s⟩⟩
  case registers => fin_cases hr <;> rfl

/-- Settles O8: the parameters are well formed by `params_wf`, MEM is empty, and the other clauses are about the values
the reset state gives its fields. -/
theorem resetMeetsInvariant : Obligations.ResetMeetsInvariant where
  cfg_wf := params_wf
  mem_wf := reset_mem_wf
  mem_bounded a h := absurd (Memory.read_nil a) h
  fsCur_length := List.length_replicate
  fsNxt_length := List.length_replicate
  srcFmt_reserved := by decide
  mode_reserved := by decide
  ic_pair := List.mem_cons_self
  ps_pair := List.mem_cons_self
  ic_pending _ := rfl
  ps_pending _ := rfl
  ic_not_done _ := rfl
  ps_not_done _ := rfl
  after_hal_error h := absurd h Bool.false_ne_true

/-- Settles O5. -/
theorem everyStepHasANextState : Obligations.EveryStepHasANextState := by
  unfold Obligations.EveryStepHasANextState
  exact step_next

end Sys2Proof.Proofs
end
